-- ==== Sys2Proof/Word.lean ====
section
/-! DEFINITION. The word types of the block: packed-array words, bytes, command words, raw values. -/

namespace Sys2Proof

/-- A word of the packed array, `WORD_W` = 64 bits (00_scope.md R7). -/
abbrev Word := BitVec 64

/-- A byte of the stream, of IN, OUT and LIGHT (00_scope.md R12). -/
abbrev Byte := BitVec 8

/-- A command word (30_encoding.md R90), and the width of every host register (20_memory.md R61). -/
abbrev CmdWord := BitVec 32

/-- A raw value, `VALUE_W` = 14 bits (00_scope.md R7), also the width of a palette entry (10_state.md R24). -/
abbrev RawValue := BitVec 14

/-- A coordinate, `COORD_W` = 4 bits (00_scope.md R7). -/
abbrev Coord := BitVec 4

end Sys2Proof
end

