-- ==== Sys2Proof/Config.lean ====
section
/-! DEFINITION. The constants and the implementation parameters of 00_scope.md R7, and the free value. -/

namespace Sys2Proof

namespace Config

/-- `N_CELLS`, the number of cells of the section (00_scope.md R7). -/
abbrev nCells : Nat := 4096

/-- `PAL_MODE_MAX_BPE`, the widest width of palette mode (00_scope.md R7). -/
abbrev palModeMaxBpe : Nat := 8

/-- `DIRECT_BPE`, the width of direct mode (00_scope.md R7). -/
abbrev directBpe : Nat := 14

/-- `VARINT_MAX_BYTES` (00_scope.md R7). -/
abbrev varintMaxBytes : Nat := 5

/-- `WORD_GROUP_MARKER` (00_scope.md R7). -/
abbrev wordGroupMarker : Nat := 1

/-- `PAL_DECODE_MAX`, the longest palette DECODE accepts (00_scope.md R7). -/
abbrev palDecodeMax : Nat := 256

/-- `PAL_MAX`, the entries of the palette RAM and slots of the PAL window (00_scope.md R7). -/
abbrev palMax : Nat := 264

/-- `WORDS_MAX`, the words of the word RAM (00_scope.md R7). -/
abbrev wordsMax : Nat := 1024

/-- The free value: `anyValue n k` is the value with index `k` of draw number `n`. It has no body, so nothing can be proved
of it: it stands wherever the spec says "any value" (93_implementation_defined.md I7, I8, I9). Log entry 5. -/
opaque anyValue : Nat → Nat → BitVec 32

end Config

/-- `LEGAL_BPE` = {1, ..., 8, 14} (00_scope.md R8). -/
def legalBpe (b : Nat) : Bool := (1 ≤ b && b ≤ Config.palModeMaxBpe) || b == Config.directBpe

/-- The choices of the parameter `RESET_PALETTE` (00_scope.md R7). -/
inductive ResetPalette where
  /-- The palette of an empty section is [0]. -/
  | sentinel
  /-- The palette of an empty section is []. -/
  | empty
deriving DecidableEq, Repr

/-- The choices of the parameter `ENC_WIDE_PALETTE` (00_scope.md R7). -/
inductive WidePalette where
  /-- ENCODE fails ENC_PAL_RANGE on a palette entry above 255. -/
  | refuse
  /-- ENCODE writes the low byte of a palette entry. -/
  | truncate
deriving DecidableEq, Repr

/-- The implementation parameters (00_scope.md R7 and `BASE` of 20_memory.md R73). `encTag` is 7 bits wide, which is its
legal range 0 to 127; the ranges of the others are `Params.Legal`. Log entries 2 and 3. -/
structure Params where
  resetBpe : Nat
  resetPalette : ResetPalette
  encTag : BitVec 7
  encWidePalette : WidePalette
  inMax : Nat
  outMax : Nat
  lightMax : Nat
  base : BitVec 64
deriving DecidableEq, Repr

/-- The parameters with the defaults of 00_scope.md R7; `BASE` has no default in the spec and is 0 here (DESIGN CHOICE, log
entry 3). -/
def Params.default : Params where
  resetBpe := 4
  resetPalette := .sentinel
  encTag := 0
  encWidePalette := .refuse
  inMax := 16384
  outMax := 16384
  lightMax := 4096
  base := 0

/-- The legal ranges of the parameters (00_scope.md R7). -/
abbrev Params.Legal (p : Params) : Prop :=
  1 ≤ p.resetBpe ∧ p.resetBpe ≤ 8 ∧ 1 ≤ p.inMax ∧ p.inMax ≤ 16384 ∧ 1 ≤ p.outMax ∧ p.outMax ≤ 16384 ∧ p.lightMax ≤ 16384

end Sys2Proof
end

