-- ==== Sys2Proof/Syntax.lean ====
section
/-! DEFINITION. The commands (one constructor for each row of the opcode table), the host registers, and the lines of the
assembler. -/

namespace Sys2Proof

/-- The six commands (30_encoding.md R94). A coordinate is 4 bits and a value 14 bits, so an out-of-range operand cannot be
written (41_section.md R161, 93_implementation_defined.md I1). -/
inductive Instr where
  /-- `INIT` (41_section.md R164). -/
  | init
  /-- `GET x, y, z` (41_section.md R165). -/
  | get (x y z : Coord)
  /-- `SET x, y, z, v` (41_section.md R166). -/
  | set (x y z : Coord) (v : RawValue)
  /-- `PEEK x, y, z` (40_packed_array.md R131). -/
  | peek (x y z : Coord)
  /-- `DECODE` (42_stream_codec.md R215). -/
  | decode
  /-- `ENCODE` (42_stream_codec.md R226). -/
  | encode
deriving DecidableEq, Repr

/-- The registers of the host's map, one constructor for each row of 10_state.md R35. -/
inductive HostReg where
  | cmd
  | status
  | result
  | bpe
  | palLen
  | inLen
  | outLen
  | lightLen
  /-- `PAL[k]` of the palette window. -/
  | pal (k : Nat)
  /-- `IN[k]` of the input window. -/
  | inByte (k : Nat)
  /-- `OUT[k]` of the output window. -/
  | outByte (k : Nat)
deriving DecidableEq, Repr

/-- A line of an assembler program: a command (30_encoding.md R99), a pseudo-instruction (R100), a host directive (R101),
or a bare write of CMD as 95_test_vectors.md P5 writes it. Operands are numbers as written in the source. -/
inductive AsmLine where
  | init
  | get (x y z : Nat)
  | set (x y z v : Nat)
  | peek (x y z : Nat)
  | decode
  | encode
  /-- `GETI i`. -/
  | getI (i : Nat)
  /-- `SETI i, v`. -/
  | setI (i v : Nat)
  /-- `PEEKI i`. -/
  | peekI (i : Nat)
  /-- `.in b0, b1, ...`. -/
  | inBytes (bs : List Byte)
  /-- `.rd NAME`. -/
  | rd (r : HostReg)
  /-- `.rst`. -/
  | rst
  /-- `CMD <- w`: the bare host write. -/
  | writeCmd (w : CmdWord)
deriving DecidableEq, Repr

end Sys2Proof
end

