-- ==== Sys2Proof/WellFormed.lean ====
section
/-! DEFINITION. The operand checks of the assembler, and which host registers a block with given parameters has. A command
of `Instr` needs no check: its fields have exactly the widths of the encoding. -/

namespace Sys2Proof

/-- The assembler's coordinate check, 0 to 15 (30_encoding.md R99). -/
def coordOk (n : Nat) : Bool := n < 16

/-- The assembler's value check, 0 to 16383 (30_encoding.md R99). -/
def valueOk (n : Nat) : Bool := n < 16384

/-- The check of a linear cell index, 0 to 4095 (30_encoding.md R100). -/
def indexOk (n : Nat) : Bool := n < Config.nCells

/-- The operands the assembler accepts; it refuses every other line (30_encoding.md R99, R100). For the directives the spec
gives no check (R101): a `.in` list of any length and a `.rd` of any slot, also of one the block does not have, are accepted
(DESIGN CHOICE, log entry 11). -/
def AsmLine.wellFormed : AsmLine → Bool
  | .init => true
  | .get x y z => coordOk x && coordOk y && coordOk z
  | .set x y z v => coordOk x && coordOk y && coordOk z && valueOk v
  | .peek x y z => coordOk x && coordOk y && coordOk z
  | .decode => true
  | .encode => true
  | .getI i => indexOk i
  | .setI i v => indexOk i && valueOk v
  | .peekI i => indexOk i
  | .inBytes _ => true
  | .rd _ => true
  | .rst => true
  | .writeCmd _ => true

/-- The registers that exist: the windows have 264, `IN_MAX` and `OUT_MAX` slots (10_state.md R35). -/
def HostReg.wellFormed (p : Params) : HostReg → Bool
  | .cmd => true
  | .status => true
  | .result => true
  | .bpe => true
  | .palLen => true
  | .inLen => true
  | .outLen => true
  | .lightLen => true
  | .pal k => k < Config.palMax
  | .inByte k => k < p.inMax
  | .outByte k => k < p.outMax

end Sys2Proof
end

