-- ==== Sys2Proof/Decode.lean ====
section
/-! DEFINITION. The command word: its fields, the decoder, the encoder, and the assembler's commands (30_encoding.md). -/

namespace Sys2Proof

/-! ## Fields (30_encoding.md R91) -/

/-- OP, bits [3:0]. -/
def fieldOp (c : CmdWord) : BitVec 4 := c.extractLsb' 0 4

/-- X, bits [7:4]. -/
def fieldX (c : CmdWord) : Coord := c.extractLsb' 4 4

/-- Z, bits [11:8]. -/
def fieldZ (c : CmdWord) : Coord := c.extractLsb' 8 4

/-- Y, bits [15:12]. -/
def fieldY (c : CmdWord) : Coord := c.extractLsb' 12 4

/-- VAL, bits [29:16]. -/
def fieldVal (c : CmdWord) : RawValue := c.extractLsb' 16 14

/-- RSV, bits [31:30]. -/
def fieldRsv (c : CmdWord) : BitVec 2 := c.extractLsb' 30 2

/-- IDX, bits [15:4], the cell index operand (30_encoding.md R92). -/
def fieldIdx (c : CmdWord) : BitVec 12 := c.extractLsb' 4 12

/-! ## Decoding -/

/-- Why a word is illegal: the cases of 30_encoding.md R96. -/
inductive IllegalWord where
  /-- OP = 0x0 or 0x7 to 0xF. -/
  | reservedOpcode (op : BitVec 4)
  /-- OP names a command and RSV is not 0. -/
  | reservedBits
  /-- A field the command does not use is not 0. -/
  | unusedField
deriving DecidableEq, Repr

/-- The command of a word whose coordinates and value must be 0. -/
def decodePlain (c : CmdWord) (i : Instr) : Except IllegalWord Instr :=
  if fieldX c = 0 ∧ fieldZ c = 0 ∧ fieldY c = 0 ∧ fieldVal c = 0 then .ok i else .error .unusedField

/-- The command of a word that uses the coordinates and whose value must be 0. -/
def decodeCell (c : CmdWord) (i : Coord → Coord → Coord → Instr) : Except IllegalWord Instr :=
  if fieldVal c = 0 then .ok (i (fieldX c) (fieldY c) (fieldZ c)) else .error .unusedField

/-- The decoder, total over the 2^32 words (30_encoding.md R94 to R98). -/
def decode (c : CmdWord) : Except IllegalWord Instr :=
  if fieldOp c = 0 ∨ 7 ≤ (fieldOp c).toNat then .error (.reservedOpcode (fieldOp c))
  else if fieldRsv c ≠ 0 then .error .reservedBits
  else if fieldOp c = 1 then decodePlain c .init
  else if fieldOp c = 2 then decodeCell c .get
  else if fieldOp c = 3 then .ok (.set (fieldX c) (fieldY c) (fieldZ c) (fieldVal c))
  else if fieldOp c = 4 then decodeCell c .peek
  else if fieldOp c = 5 then decodePlain c .decode
  else decodePlain c .encode

/-- `illegal(c)` of 60_exceptions.md R263: the word matches no row (30_encoding.md R96). -/
def illegal (c : CmdWord) : Bool :=
  match decode c with
  | .ok _ => false
  | .error _ => true

/-- The word of an instruction's bits as spec/opcode_table.json numbers them, every bit above `nbits` zero. -/
def tableWord (nbits w : Nat) : CmdWord := BitVec.ofNat 32 (w % 2 ^ nbits)

/-- What the decoder reads from an instruction whose bits are `w`: an instruction is one 32-bit word (30_encoding.md R90), and
no instruction is longer. -/
def decodeTableWord (nbits w : Nat) : Option Instr :=
  if nbits ≤ 32 then
    match decode (tableWord nbits w) with
    | .ok i => some i
    | .error _ => none
  else none

/-! ## Encoding -/

/-- A command word from its fields, RSV being 0 (30_encoding.md R91). -/
def encodeFields (v : RawValue) (y z x : Coord) (op : BitVec 4) : CmdWord := 0#2 ++ v ++ y ++ z ++ x ++ op

/-- The word of a command (30_encoding.md R94). -/
def encode : Instr → CmdWord
  | .init => encodeFields 0 0 0 0 1
  | .get x y z => encodeFields 0 y z x 2
  | .set x y z v => encodeFields v y z x 3
  | .peek x y z => encodeFields 0 y z x 4
  | .decode => encodeFields 0 0 0 0 5
  | .encode => encodeFields 0 0 0 0 6

/-- The match column of 30_encoding.md R94. -/
def tableMatch : Instr → CmdWord
  | .init => 0x00000001
  | .get _ _ _ => 0x00000002
  | .set _ _ _ _ => 0x00000003
  | .peek _ _ _ => 0x00000004
  | .decode => 0x00000005
  | .encode => 0x00000006

/-- The mask column of 30_encoding.md R94. -/
def tableMask : Instr → CmdWord
  | .init => 0xFFFFFFFF
  | .get _ _ _ => 0xFFFF000F
  | .set _ _ _ _ => 0xC000000F
  | .peek _ _ _ => 0xFFFF000F
  | .decode => 0xFFFFFFFF
  | .encode => 0xFFFFFFFF

/-! ## The assembler (30_encoding.md R99, R100) -/

/-- Bits `i[3:0]`, `i[7:4]` and `i[11:8]` of a linear index: x, z and y (30_encoding.md R100, 41_section.md R161). -/
def indexX (i : Nat) : Coord := BitVec.ofNat 4 i

@[inherit_doc indexX] def indexZ (i : Nat) : Coord := BitVec.ofNat 4 (i / 16)

@[inherit_doc indexX] def indexY (i : Nat) : Coord := BitVec.ofNat 4 (i / 256)

/-- The command a line stands for: none for a directive, and none for a line the assembler refuses. -/
def assemble (l : AsmLine) : Option Instr :=
  if l.wellFormed then
    match l with
    | .init => some .init
    | .get x y z => some (.get (BitVec.ofNat 4 x) (BitVec.ofNat 4 y) (BitVec.ofNat 4 z))
    | .set x y z v => some (.set (BitVec.ofNat 4 x) (BitVec.ofNat 4 y) (BitVec.ofNat 4 z) (BitVec.ofNat 14 v))
    | .peek x y z => some (.peek (BitVec.ofNat 4 x) (BitVec.ofNat 4 y) (BitVec.ofNat 4 z))
    | .decode => some .decode
    | .encode => some .encode
    | .getI i => some (.get (indexX i) (indexY i) (indexZ i))
    | .setI i v => some (.set (indexX i) (indexY i) (indexZ i) (BitVec.ofNat 14 v))
    | .peekI i => some (.peek (indexX i) (indexY i) (indexZ i))
    | .inBytes _ => none
    | .rd _ => none
    | .rst => none
    | .writeCmd _ => none
  else none

end Sys2Proof
end

