-- ==== Sys2Proof/Machine/Memory.lean ====
section
/-! DEFINITION. The byte buffers IN and OUT: lists of (address, byte) with strictly rising addresses, the written bytes only.
An unlisted address is an unwritten byte: it has no value of its own, and reads as a free value (10_state.md R27, R28; log
entry 9). -/

namespace Sys2Proof.Machine

/-- The canonical form: addresses strictly rising. A written byte always differs from an unwritten one, so no entry equals
what an unlisted address reads as. -/
abbrev Memory.wf (m : List Host.Cell) : Prop := m.Pairwise (fun a b => a.1 < b.1)

/-- The byte written at address `k`, or none where nothing was written. -/
def Memory.read : List Host.Cell → Nat → Option Byte
  | [], _ => none
  | c :: m, k => if c.1 = k then some c.2 else Memory.read m k

/-- Write byte `v` at address `k`. -/
def Memory.write : List Host.Cell → Nat → Byte → List Host.Cell
  | [], k, v => [(k, v)]
  | c :: m, k, v =>
    if c.1 < k then c :: Memory.write m k v
    else if c.1 = k then (k, v) :: m
    else (k, v) :: c :: m

/-- The bytes `bs` as entries at addresses `k`, `k + 1`, ... -/
def Memory.cellsFrom : Nat → List Byte → List Host.Cell
  | _, [] => []
  | k, b :: bs => (k, b) :: Memory.cellsFrom (k + 1) bs

/-- Write the bytes `bs` at addresses 0 to `bs.length - 1` (`OUT[0 .. len(s)-1] <- s`, 42_stream_codec.md R226). -/
def Memory.overlay (bs : List Byte) (m : List Host.Cell) : List Host.Cell :=
  Memory.cellsFrom 0 bs ++ m.dropWhile (fun c => c.1 < bs.length)

/-- The `n` bytes from address `k` on, each unwritten byte being the one `free` gives for its address: one pass over a
buffer in canonical form. -/
def Memory.window (free : Nat → Byte) : List Host.Cell → Nat → Nat → List Byte
  | _, _, 0 => []
  | m, k, n + 1 =>
    match m.dropWhile (fun c => c.1 < k) with
    | [] => free k :: Memory.window free [] (k + 1) n
    | c :: r => (if c.1 = k then c.2 else free k) :: Memory.window free (c :: r) (k + 1) n

end Sys2Proof.Machine
end

