-- ==== Sys2Proof/Machine/PackedArray.lean ====
section
/-! DEFINITION. The packed array: its geometry and the primitives PA_get, PA_set, PA_alloc and PA_from_words
(40_packed_array.md R120 to R129), and the repack of a width expansion (41_section.md R170, R172). -/

namespace Sys2Proof.Machine

/-- A packed array `(A.b, A.words)`: a width and a word list (40_packed_array.md). -/
structure PackedArray where
  b : Nat
  words : List Word
deriving DecidableEq, Repr

/-- `cpw(b)`, the cells in a word (40_packed_array.md R120). -/
def cellsPerWord (b : Nat) : Nat := 64 / b

/-- `W(b)`, the words of an array (40_packed_array.md R121). -/
def wordCount (b : Nat) : Nat := (Config.nCells + cellsPerWord b - 1) / cellsPerWord b

/-- `wi(i)`, the word that holds cell `i` (40_packed_array.md R122). -/
def wordIndex (b i : Nat) : Nat := i / cellsPerWord b

/-- The lowest bit of cell `i` in its word, `s(i) * b` (40_packed_array.md R122). -/
def cellShift (b i : Nat) : Nat := (i % cellsPerWord b) * b

/-- `mask(b)`, b ones (40_packed_array.md R123). -/
def cellMask (b : Nat) : Word := BitVec.ofNat 64 (2 ^ b - 1)

/-- The cell value at bit `sh` of a word (40_packed_array.md R124). -/
def wordCell (b : Nat) (w : Word) (sh : Nat) : Nat := ((w >>> sh) &&& cellMask b).toNat

/-- A word with `v`, masked, in the cell at bit `sh` (40_packed_array.md R125). -/
def wordWithCell (b : Nat) (w : Word) (sh v : Nat) : Word :=
  (w &&& ~~~(cellMask b <<< sh)) ||| ((BitVec.ofNat 64 v &&& cellMask b) <<< sh)

/-- `PA_get(A, i)` (40_packed_array.md R124). A word the list does not have counts as 0; an array of `W(b)` words has every
word a cell needs. -/
def paGet (a : PackedArray) (i : Nat) : Nat :=
  wordCell a.b (a.words.getD (wordIndex a.b i) 0) (cellShift a.b i)

/-- `PA_set(A, i, v)` (40_packed_array.md R125). -/
def paSet (a : PackedArray) (i v : Nat) : PackedArray :=
  { a with
    words := a.words.set (wordIndex a.b i)
      (wordWithCell a.b (a.words.getD (wordIndex a.b i) 0) (cellShift a.b i) v) }

/-- `PA_alloc(b)` (40_packed_array.md R126). -/
def paAlloc (b : Nat) : PackedArray := { b := b, words := List.replicate (wordCount b) 0 }

/-- `PA_from_words(b, ws)` (40_packed_array.md R127). -/
def paFromWords (b : Nat) (ws : List Word) : Option PackedArray :=
  if ws.length = wordCount b then some { b := b, words := ws } else none

/-- Word `k` of a new array of width `b` whose cell `j` holds `f j` masked: the cells `k * cpw(b) + s` below 4096, each in
its slot `s`, and 0 elsewhere. -/
def packWord (b : Nat) (f : Nat → Nat) (k : Nat) : Word :=
  (List.range (cellsPerWord b)).foldl
    (fun w s =>
      if k * cellsPerWord b + s < Config.nCells then wordWithCell b w (s * b) (f (k * cellsPerWord b + s)) else w)
    0

/-- The repack of a width expansion: `NEW <- PA_alloc(b)` and then `PA_set(NEW, j, f j)` for j in 0 to 4095 (41_section.md
R166 steps 2c and 2d), computed word by word. That it is what the rule's loop gives is `Laws.paRepack_eq_loop`. -/
def paRepack (b : Nat) (f : Nat → Nat) : PackedArray :=
  { b := b, words := (List.range (wordCount b)).map (packWord b f) }

end Sys2Proof.Machine
end

