-- ==== Sys2Proof/Machine/State.lean ====
section
/-! DEFINITION. The state of the block (10_state.md R20), the actions of its two agents, the reasons a step can stop, and the
state after reset (70_reset_and_hazards.md R290). -/

namespace Sys2Proof.Machine

/-- The response-error codes of 60_exceptions.md R261. -/
inductive ErrCode where
  | decShort
  | decVarintLong
  | decBadBpe
  | decPalLong
  | decBadMarker
  | decBadWordcount
  | decLightLong
  | decInRange
  | encPalRange
  | encOverflow
deriving DecidableEq, Repr

/-- The fault codes of 60_exceptions.md R262. -/
inductive FaultCode where
  | illegalCmd
  | overrun
deriving DecidableEq, Repr

/-- The moves of the two agents (00_scope.md R9). An access carries the system address (20_memory.md R73: the block sits at
`BASE`) and the byte enables, which the block ignores (R61). -/
inductive Action where
  /-- The host reads. -/
  | read (addr : BitVec 64) (be : BitVec 4)
  /-- The host writes. -/
  | write (addr : BitVec 64) (be : BitVec 4) (data : BitVec 32)
  /-- The host asserts `rst` (70_reset_and_hazards.md R290). -/
  | rst
  /-- The engine takes its step, if it has one (60_exceptions.md R263). -/
  | engine
deriving DecidableEq, Repr

/-- The section: what INIT allocates and DECODE and ENCODE load and store (10_state.md R21 to R26). The lists hold the live
elements only, so PAL_LEN and LIGHT_LEN are their lengths. -/
structure Section where
  /-- BPE (R21). -/
  bpe : BitVec 5
  /-- The live words of WORDS (R23). -/
  words : List Word
  /-- PAL (R24). -/
  pal : List RawValue
  /-- LIGHT (R26). -/
  light : List Byte
deriving DecidableEq, Repr

/-- The state. The fields from `sec` to `pend` are the block's (10_state.md R20). `params` are the implementation parameters
(00_scope.md R7), which no step changes. `agenda`, `rdata` and `draws` are the model's own (log entries 1, 4 and 5). -/
structure State where
  /-- The implementation parameters. -/
  params : Params
  /-- BPE, WORDS, PAL and LIGHT. -/
  sec : Section
  /-- IN: the bytes written since reset (R27). -/
  inBuf : List Host.Cell
  /-- IN_LEN (R27). -/
  inLen : BitVec 16
  /-- OUT: the bytes written since reset (R28). -/
  outBuf : List Host.Cell
  /-- OUT_LEN (R28). -/
  outLen : BitVec 16
  /-- RESULT (R29). -/
  result : RawValue
  /-- STATUS.DONE (R30). -/
  done : Bool
  /-- STATUS.ERR (R30). -/
  err : Bool
  /-- STATUS.FAULT (R30, R31). -/
  fault : Bool
  /-- STATUS.ERRCODE (R30). -/
  errcode : BitVec 4
  /-- STATUS.FAULTCODE (R30). -/
  faultcode : BitVec 4
  /-- PEND, or empty (R32). STATUS.BUSY is 1 while it is filled (R30). -/
  pend : Option CmdWord
  /-- The moves still to come, the next one first; when it is empty the engine moves. -/
  agenda : List Action
  /-- What the last host read returned to the host. -/
  rdata : BitVec 32
  /-- The number of the next draw of a free value. -/
  draws : Nat
deriving DecidableEq, Repr

/-- Why the step can stop with a fault. The block's own faults are no such stop: they set STATUS.FAULT in a next state
(60_exceptions.md R266). -/
inductive Fault where
  /-- Raised by the engine's step when PEND holds a word that is no command. CMD accepts no such word (60_exceptions.md R263),
  so no run reaches it, and the spec gives it no effect. Safe: the model stops (log entry 6). -/
  | pendIllegal
deriving DecidableEq, Repr

/-- Why an instruction could be refused. -/
inductive Refusal where
  /-- Raised by an arm of exec whose instruction has no meaning yet; no arm does. Safe: the model stops. -/
  | notModelled (mnemonic : String)
deriving DecidableEq, Repr

/-! ## Derived state -/

/-- STATUS.BUSY: a command is pending (10_state.md R30, R32). -/
def State.busy (s : State) : Bool := s.pend.isSome

/-- Direct mode, `BPE > 8` (10_state.md R22). -/
def Section.direct (c : Section) : Bool := Config.palModeMaxBpe < c.bpe.toNat

/-- STATUS.MODE, 1 = DIRECT (10_state.md R22, R30). -/
def State.mode (s : State) : Bool := s.sec.direct

/-- PAL_LEN (10_state.md R24). -/
def State.palLen (s : State) : Nat := s.sec.pal.length

/-- LIGHT_LEN (10_state.md R26). -/
def State.lightLen (s : State) : Nat := s.sec.light.length

/-- The live packed array `(BPE, WORDS)` (40_packed_array.md). -/
def Section.array (c : Section) : PackedArray := { b := c.bpe.toNat, words := c.words }

/-- Cell `i` of the live array, `PA_get(i)` (40_packed_array.md R124). -/
def Section.cell (c : Section) (i : Nat) : Nat := paGet c.array i

/-! ## Reset -/

/-- The palette of an empty section (10_state.md R24, 41_section.md R164). -/
def emptyPalette : ResetPalette → List RawValue
  | .sentinel => [0]
  | .empty => []

/-- The empty section, which INIT allocates and `rst` leaves (41_section.md R164, 70_reset_and_hazards.md R290). -/
def emptySection (p : Params) : Section where
  bpe := BitVec.ofNat 5 p.resetBpe
  words := (paAlloc p.resetBpe).words
  pal := emptyPalette p.resetPalette
  light := []

/-- The state after `rst` of a block with parameters `p` (70_reset_and_hazards.md R290). -/
def State.resetWith (p : Params) : State where
  params := p
  sec := emptySection p
  inBuf := []
  inLen := 0
  outBuf := []
  outLen := 0
  result := 0
  done := false
  err := false
  fault := false
  errcode := 0
  faultcode := 0
  pend := none
  agenda := []
  rdata := 0
  draws := 0

/-- The state after reset with the default parameters (00_scope.md R7, 70_reset_and_hazards.md R290). -/
def State.reset : State := State.resetWith Params.default

end Sys2Proof.Machine
end

