-- ==== Sys2Proof/Machine/Flags.lean ====
section
/-! DEFINITION. STATUS and its codes (10_state.md R30; 60_exceptions.md R261, R262). The block has no condition flag beyond
STATUS (00_scope.md R14). -/

namespace Sys2Proof.Machine

/-- The ERRCODE of a response error (60_exceptions.md R261). -/
def errBits : ErrCode → BitVec 4
  | .decShort => 1
  | .decVarintLong => 2
  | .decBadBpe => 3
  | .decPalLong => 4
  | .decBadMarker => 5
  | .decBadWordcount => 6
  | .decLightLong => 7
  | .decInRange => 8
  | .encPalRange => 9
  | .encOverflow => 10

/-- The FAULTCODE of a fault (60_exceptions.md R262). -/
def faultBits : FaultCode → BitVec 4
  | .illegalCmd => 1
  | .overrun => 2

/-- The STATUS register: BUSY [0], DONE [1], ERR [2], FAULT [3], ERRCODE [7:4], FAULTCODE [11:8], MODE [12], bits [31:13]
zero (10_state.md R30). -/
def statusWord (s : State) : BitVec 32 :=
  0#19 ++ BitVec.ofBool s.mode ++ s.faultcode ++ s.errcode ++ BitVec.ofBool s.fault ++ BitVec.ofBool s.err
    ++ BitVec.ofBool s.done ++ BitVec.ofBool s.busy

end Sys2Proof.Machine
end

