-- ==== Sys2Proof/Machine/Operands.lean ====
section
/-! DEFINITION. The operands of a command: the cell index and the value (30_encoding.md R92, R93; 41_section.md R160). -/

namespace Sys2Proof.Machine

/-- `index(x, y, z) = (y << 8) | (z << 4) | x`, the operand IDX (41_section.md R160, 30_encoding.md R92). -/
def cellIndex (x y z : Coord) : BitVec 12 :=
  (y.setWidth 12 <<< 8) ||| (z.setWidth 12 <<< 4) ||| x.setWidth 12

/-- The cell a command names. -/
def cellOf (x y z : Coord) : Nat := (cellIndex x y z).toNat

end Sys2Proof.Machine
end

