-- ==== Sys2Proof/Machine/Ops.lean ====
section
/-! DEFINITION. The shared operations of the commands: completion, response errors, faults, `rst`, free values, palette
lookup. The block takes no trap and has no return from one (60_exceptions.md R271): raising a response error and raising a
fault are its whole exception model. -/

namespace Sys2Proof.Machine

/-! ## Ends of a command (60_exceptions.md R263) -/

/-- The end of the engine's step: `BUSY <- 0; DONE <- 1`, PEND consumed (60_exceptions.md R263, 10_state.md R32). -/
def complete (s : State) : State := { s with pend := none, done := true }

/-- `raise ERR(code)` at the end of the engine's step: `ERR <- 1; ERRCODE <- code` (60_exceptions.md R263, R264). -/
def raiseErr (e : ErrCode) (s : State) : State := complete { s with err := true, errcode := errBits e }

/-- `raise FAULT(code)`: only while FAULT = 0, so the first fault's code stays (60_exceptions.md R266, R267). -/
def raiseFault (f : FaultCode) (s : State) : State :=
  if s.fault then s else { s with fault := true, faultcode := faultBits f }

/-- `ERR <- 0; ERRCODE <- 0`, which an accepted and an illegal CMD write do (60_exceptions.md R263, R265). -/
def clearErr (s : State) : State := { s with err := false, errcode := 0 }

/-- The host asserts `rst`: every element of the block's state takes its reset value and a pending command is cancelled
(70_reset_and_hazards.md R290). The parameters are no state of the block, and the model's own fields are not the block's (log
entry 10). -/
def hardReset (s : State) : State :=
  { State.resetWith s.params with agenda := s.agenda, rdata := s.rdata, draws := s.draws }

/-! ## Free values -/

/-- "Any value" of 32 bits, number `k` of the current draw (93_implementation_defined.md, log entry 5). -/
def freeWord (s : State) (k : Nat) : BitVec 32 := Config.anyValue s.draws k

/-- "Any value" of a byte, number `k` of the current draw. -/
def freeByte (s : State) (k : Nat) : Byte := (freeWord s k).setWidth 8

/-- The next draw is another one. -/
def nextDraw (s : State) : State := { s with draws := s.draws + 1 }

/-- The bytes `IN[0 .. IN_LEN-1]` that DECODE consumes, an unwritten one being a draw (10_state.md R27). -/
def inputBytes (s : State) : List Byte := Memory.window (freeByte s) s.inBuf 0 s.inLen.toNat

/-! ## The palette -/

/-- `lookup(pal, v)`: the lowest index k with `pal[k] == v`, or none for NOTFOUND (41_section.md R163). -/
def lookup (pal : List RawValue) (v : RawValue) : Option Nat := pal.findIdx? (fun e => e == v)

/-- The raw value of a cell value `c`: the palette entry, 0 beyond the palette (the degraded-read fallback), or `c` itself
in direct mode (41_section.md R165). -/
def rawValueOf (c : Section) (v : Nat) : RawValue :=
  if c.direct then BitVec.ofNat 14 v else c.pal.getD v 0

end Sys2Proof.Machine
end

