-- ==== Sys2Proof/Machine/Bus.lean ====
section
/-! DEFINITION. The host's bus: address decode, reads, writes and command acceptance (20_memory.md; 10_state.md R35, R36;
60_exceptions.md R263). -/

namespace Sys2Proof.Machine

/-! ## Address decode -/

/-- The byte offset of a register (10_state.md R35). -/
def regOffset : HostReg → Nat
  | .cmd => 0x00000
  | .status => 0x00004
  | .result => 0x00008
  | .bpe => 0x0000C
  | .palLen => 0x00010
  | .inLen => 0x00014
  | .outLen => 0x00018
  | .lightLen => 0x0001C
  | .pal k => 0x01000 + 4 * k
  | .inByte k => 0x10000 + 4 * k
  | .outByte k => 0x20000 + 4 * k

/-- The system address of a register (20_memory.md R73). -/
def regAddr (p : Params) (r : HostReg) : BitVec 64 := p.base + BitVec.ofNat 64 (regOffset r)

/-- The register number of an access: bits [17:2] of the address relative to `BASE`. Bits [1:0] are ignored and bits above
17 are not decoded (20_memory.md R61). -/
def regNumber (p : Params) (addr : BitVec 64) : Nat := ((addr - p.base).extractLsb' 2 16).toNat

/-- The single registers at offsets 0x00000 to 0x0001F, one for each word (10_state.md R35). -/
def singleReg : Nat → Option HostReg
  | 0 => some .cmd
  | 1 => some .status
  | 2 => some .result
  | 3 => some .bpe
  | 4 => some .palLen
  | 5 => some .inLen
  | 6 => some .outLen
  | 7 => some .lightLen
  | _ + 8 => none

/-- The slot of the palette, IN or OUT window with a number, none beyond a window's slots (10_state.md R35). -/
def windowReg (p : Params) (n : Nat) : Option HostReg :=
  if 0x400 ≤ n ∧ n < 0x400 + Config.palMax then some (.pal (n - 0x400))
  else if 0x4000 ≤ n ∧ n < 0x4000 + p.inMax ∧ n < 0x8000 then some (.inByte (n - 0x4000))
  else if 0x8000 ≤ n ∧ n < 0x8000 + p.outMax ∧ n < 0xC000 then some (.outByte (n - 0x8000))
  else none

/-- The register with a number, none where nothing is mapped (10_state.md R35, 20_memory.md R62). -/
def regOfNumber (p : Params) (n : Nat) : Option HostReg := (singleReg n).or (windowReg p n)

/-- The register an access reaches. -/
def regAt (p : Params) (addr : BitVec 64) : Option HostReg := regOfNumber p (regNumber p addr)

/-! ## Reads -/

/-- A byte of a buffer in its 32-bit register, a draw where it is unwritten; bits [31:8] are 0 (20_memory.md R63). -/
def bufferByte (s : State) (m : List Host.Cell) (k : Nat) : BitVec 32 := ((Memory.read m k).getD (freeByte s 0)).setWidth 32

/-- The value of a register while BUSY = 0 (10_state.md R35, R36). -/
def idleRegValue (s : State) : HostReg → BitVec 32
  | .cmd => 0
  | .status => statusWord s
  | .result => s.result.setWidth 32
  | .bpe => s.sec.bpe.setWidth 32
  | .palLen => (BitVec.ofNat 9 s.palLen).setWidth 32
  | .inLen => s.inLen.setWidth 32
  | .outLen => s.outLen.setWidth 32
  | .lightLen => (BitVec.ofNat 16 s.lightLen).setWidth 32
  | .pal k => (s.sec.pal.getD k 0).setWidth 32
  | .inByte k => bufferByte s s.inBuf k
  | .outByte k => if k < s.outLen.toNat then bufferByte s s.outBuf k else (freeByte s 0).setWidth 32

/-- What a host read returns: an unmapped address reads 0 (20_memory.md R62); a register other than STATUS reads as any value
while BUSY = 1 (R71). Log entry 5 says why an unmapped address reads 0 then too. -/
def readValue (s : State) (addr : BitVec 64) : BitVec 32 :=
  match regAt s.params addr with
  | some r => if s.busy && r != .status then freeWord s 0 else idleRegValue s r
  | none => 0

/-- A host read: it changes nothing of the block (20_memory.md R70). The byte enables are ignored (R61). -/
def hostRead (addr : BitVec 64) (_be : BitVec 4) (s : State) : State := nextDraw { s with rdata := readValue s addr }

/-! ## Writes -/

/-- A host write of CMD (60_exceptions.md R263). -/
def writeCmd (c : CmdWord) (s : State) : State :=
  if s.fault then s
  else if s.busy then raiseFault .overrun s
  else if illegal c then { clearErr (raiseFault .illegalCmd s) with done := true }
  else { clearErr s with done := false, pend := some c }

/-- A host write of a register that holds input: dropped, with OVERRUN, while BUSY = 1 (20_memory.md R72). -/
def writeInput (s s' : State) : State := if s.busy then raiseFault .overrun s else s'

/-- A host write of a register; a write of a read-only register is ignored (10_state.md R36). -/
def writeReg (s : State) (v : BitVec 32) : HostReg → State
  | .cmd => writeCmd v s
  | .inLen => writeInput s { s with inLen := v.setWidth 16 }
  | .inByte k => writeInput s { s with inBuf := Memory.write s.inBuf k (v.setWidth 8) }
  | .status => s
  | .result => s
  | .bpe => s
  | .palLen => s
  | .outLen => s
  | .lightLen => s
  | .pal _ => s
  | .outByte _ => s

/-- A host write: an unmapped address ignores it (20_memory.md R62). The byte enables are ignored (R61). -/
def hostWrite (addr : BitVec 64) (_be : BitVec 4) (v : BitVec 32) (s : State) : State :=
  match regAt s.params addr with
  | some r => writeReg s v r
  | none => s

end Sys2Proof.Machine
end

