-- ==== Sys2Proof/Machine/Codec.lean ====
section
/-! DEFINITION. DECODE and ENCODE: the varint, the stream and the two commands (42_stream_codec.md). A read cursor is the
list of the bytes still to read. -/

namespace Sys2Proof.Machine

/-! ## Varints -/

/-- The loop of ReadVarint with `left` = 5 - n bytes allowed, n bytes read and `val` accumulated; the limit is tested before
the end of the input (42_stream_codec.md R211). -/
def readVarintLoop : (left n val : Nat) → List Byte → Except ErrCode (Nat × List Byte)
  | 0, _, _, _ => .error .decVarintLong
  | _ + 1, _, _, [] => .error .decShort
  | left + 1, n, val, b :: bs =>
    let val' := val ||| ((b &&& 0x7F).toNat <<< (7 * n))
    if b &&& 0x80 = 0 then .ok (val' % 2 ^ 32, bs) else readVarintLoop left (n + 1) val' bs

/-- `ReadVarint()`: the value, 32 bits, and the bytes after it (42_stream_codec.md R211, R213). -/
def readVarint (bs : List Byte) : Except ErrCode (Nat × List Byte) := readVarintLoop Config.varintMaxBytes 0 0 bs

/-- The loop of `varint(v)`, at most `left` bytes before the last (42_stream_codec.md R214). -/
def varintLoop : (left v : Nat) → List Byte
  | 0, v => [BitVec.ofNat 8 v]
  | left + 1, v =>
    if 0x80 ≤ v then (BitVec.ofNat 8 (v &&& 0x7F) ||| 0x80) :: varintLoop left (v >>> 7) else [BitVec.ofNat 8 v]

/-- `varint(v)` for `v < 2^32`: the shortest form (42_stream_codec.md R214). -/
def varint (v : Nat) : List Byte := varintLoop (Config.varintMaxBytes - 1) v

/-! ## Words -/

/-- The 8 stream bytes of a word, most significant first (20_memory.md R64). -/
def bytesOfWord (w : Word) : List Byte :=
  [w.extractLsb' 56 8, w.extractLsb' 48 8, w.extractLsb' 40 8, w.extractLsb' 32 8,
   w.extractLsb' 24 8, w.extractLsb' 16 8, w.extractLsb' 8 8, w.extractLsb' 0 8]

/-- The word of its stream bytes, most significant first (20_memory.md R64). -/
def wordOfBytes (bs : List Byte) : Word := bs.foldl (fun w b => (w <<< 8) ||| b.setWidth 64) 0

/-! ## DECODE -/

/-- End with `e` unless `c` holds. -/
def require (c : Bool) (e : ErrCode) : Except ErrCode Unit := if c then .ok () else .error e

/-- Step 1: the width byte (42_stream_codec.md R216). -/
def readWidth : List Byte → Except ErrCode (Byte × List Byte)
  | [] => .error .decShort
  | b :: bs => if legalBpe b.toNat then .ok (b, bs) else .error .decBadBpe

/-- Step 3: `n` palette entries, each a discarded tag and one byte (42_stream_codec.md R218). -/
def readPalette : Nat → List Byte → Except ErrCode (List RawValue × List Byte)
  | 0, bs => .ok ([], bs)
  | n + 1, bs =>
    match readVarint bs with
    | .error e => .error e
    | .ok (_, []) => .error .decShort
    | .ok (_, v :: bs') =>
      match readPalette n bs' with
      | .error e => .error e
      | .ok (p, r) => .ok (v.setWidth 14 :: p, r)

/-- Step 6: `n` words of 8 bytes, of an input that has them (42_stream_codec.md R221). -/
def readWords : Nat → List Byte → List Word × List Byte
  | 0, bs => ([], bs)
  | n + 1, bs => (wordOfBytes (bs.take 8) :: (readWords n (bs.drop 8)).1, (readWords n (bs.drop 8)).2)

/-- The section a stream of `IN_LEN` bytes holds, or the first error met (42_stream_codec.md R215 to R224). -/
def decodeStream (p : Params) (input : List Byte) : Except ErrCode Section := do
  require (input.length ≤ p.inMax) .decInRange
  let (b, r) ← readWidth input
  let (len, r) ← readVarint r
  require (len ≤ Config.palDecodeMax) .decPalLong
  let (pal, r) ← readPalette len r
  let (marker, r) ← readVarint r
  require (marker == Config.wordGroupMarker) .decBadMarker
  let (wc, r) ← readVarint r
  require (wc == wordCount b.toNat) .decBadWordcount
  require (8 * wc ≤ r.length) .decShort
  let (words, light) := readWords wc r
  require (light.length ≤ p.lightMax) .decLightLong
  return { bpe := b.setWidth 5, words := words, pal := pal, light := light }

/-- `DECODE`: the section is replaced wholesale, or nothing but STATUS changes (42_stream_codec.md R215, R224, R225). The
free bytes it may consume are used up. -/
def execDecode (s : State) : Host.Outcome State Fault Refusal :=
  match decodeStream s.params (inputBytes s) with
  | .ok c => .next (complete { nextDraw s with sec := c })
  | .error e => .next (raiseErr e (nextDraw s))

/-! ## ENCODE -/

/-- The stream of a section (42_stream_codec.md R210, R226). -/
def encodeSection (p : Params) (c : Section) : List Byte :=
  [c.bpe.setWidth 8] ++ varint c.pal.length
    ++ c.pal.flatMap (fun e => varint p.encTag.toNat ++ [e.setWidth 8])
    ++ varint Config.wordGroupMarker ++ varint (wordCount c.bpe.toNat)
    ++ c.words.flatMap bytesOfWord ++ c.light

/-- The stream, or ENC_PAL_RANGE (42_stream_codec.md R227), or ENC_OVERFLOW (R229), in this order (60_exceptions.md R269). -/
def encodeStream (p : Params) (c : Section) : Except ErrCode (List Byte) := do
  require (!(p.encWidePalette == .refuse && c.pal.any (fun e => 255 < e.toNat))) .encPalRange
  require ((encodeSection p c).length ≤ p.outMax) .encOverflow
  return encodeSection p c

/-- `ENCODE`: OUT and OUT_LEN take the stream, or OUT_LEN is 0 and the error is raised (42_stream_codec.md R226). -/
def execEncode (s : State) : Host.Outcome State Fault Refusal :=
  match encodeStream s.params s.sec with
  | .ok bs => .next (complete { s with outBuf := Memory.overlay bs s.outBuf, outLen := BitVec.ofNat 16 bs.length })
  | .error e => .next (raiseErr e { s with outLen := 0 })

end Sys2Proof.Machine
end

