-- ==== Sys2Proof/Machine/Peek.lean ====
section
/-! DEFINITION. PEEK (40_packed_array.md R131). -/

namespace Sys2Proof.Machine

/-- `PEEK x, y, z`: RESULT takes the raw cell, zero-extended (40_packed_array.md R131). -/
def execPeek (x y z : Coord) (s : State) : Host.Outcome State Fault Refusal :=
  .next (complete { s with result := BitVec.ofNat 14 (s.sec.cell (cellOf x y z)) })

end Sys2Proof.Machine
end

