-- ==== Sys2Proof/Machine/Section.lean ====
section
/-! DEFINITION. INIT, GET and SET with the growth and repack controller (41_section.md). -/

namespace Sys2Proof.Machine

/-- `INIT`: the section becomes the empty one; RESULT, IN, IN_LEN, OUT, OUT_LEN and FAULT stay (41_section.md R164). -/
def execInit (s : State) : Host.Outcome State Fault Refusal :=
  .next (complete { s with sec := emptySection s.params })

/-- `GET x, y, z`: RESULT takes the cell's raw value (41_section.md R165). -/
def execGet (x y z : Coord) (s : State) : Host.Outcome State Fault Refusal :=
  .next (complete { s with result := rawValueOf s.sec (s.sec.cell (cellOf x y z)) })

/-! ## SET (41_section.md R166) -/

/-- Step 1, the id of a raw value, none being NOTFOUND (41_section.md R167). -/
def setId (c : Section) (v : RawValue) : Option Nat :=
  if c.direct then some v.toNat
  else if v = 0 then some 0
  else lookup c.pal v

/-- Steps 2a to 2e, the width expansion of a section whose palette already has the new entry: one bit wider with the cells
copied (41_section.md R170), or, past 8 bits, direct mode with the cells replaced by their raw values (R171, R172). An index
beyond the snapshot, which R179 shows never to occur, counts as an entry 0 (log entry 7). -/
def expand (c : Section) : Section :=
  if Config.palModeMaxBpe < c.bpe.toNat + 1 then
    { c with
      bpe := BitVec.ofNat 5 Config.directBpe
      words := (paRepack Config.directBpe (fun j => (c.pal.getD (c.cell j) 0).toNat)).words
      pal := [] }
  else
    { c with
      bpe := BitVec.ofNat 5 (c.bpe.toNat + 1)
      words := (paRepack (c.bpe.toNat + 1) (fun j => c.cell j)).words }

/-- Step 2: the append (41_section.md R168) and, when the new length exceeds `2^BPE`, one expansion (R169, R176). -/
def appendValue (c : Section) (v : RawValue) : Section :=
  let c' := { c with pal := c.pal ++ [v] }
  if 2 ^ c.bpe.toNat < c'.pal.length then expand c' else c'

/-- Step 2f, the id after an append, by the mode that is then current (41_section.md R173). The lookup finds the entry just
appended, so NOTFOUND cannot arise here. -/
def recomputeId (c : Section) (v : RawValue) : Nat :=
  if c.direct then v.toNat else (lookup c.pal v).getD 0

/-- Step 3: `PA_set(live, i, id)` (41_section.md R174). -/
def storeCell (c : Section) (i id : Nat) : Section := { c with words := (paSet c.array i id).words }

/-- The whole of SET on the section (41_section.md R166). -/
def setValue (c : Section) (i : Nat) (v : RawValue) : Section :=
  match setId c v with
  | some id => storeCell c i id
  | none => storeCell (appendValue c v) i (recomputeId (appendValue c v) v)

/-- `SET x, y, z, v` (41_section.md R166): one atomic change of the section (R175). -/
def execSet (x y z : Coord) (v : RawValue) (s : State) : Host.Outcome State Fault Refusal :=
  .next (complete { s with sec := setValue s.sec (cellOf x y z) v })

end Sys2Proof.Machine
end

