-- ==== Sys2Proof/Machine/Dispatch.lean ====
section
/-! DEFINITION. One arm per command. -/

namespace Sys2Proof.Machine

-- The engine's step for an accepted command: its rule and the completion (60_exceptions.md R263).
def exec (i : Instr) (s : State) : Host.Outcome State Fault Refusal :=
  match i with
  | .init => Sys2Proof.Machine.execInit s
  | .get x y z => Sys2Proof.Machine.execGet x y z s
  | .set x y z v => Sys2Proof.Machine.execSet x y z v s
  | .peek x y z => Sys2Proof.Machine.execPeek x y z s
  | .decode => Sys2Proof.Machine.execDecode s
  | .encode => Sys2Proof.Machine.execEncode s

end Sys2Proof.Machine
end

