-- ==== Sys2Proof/Machine/Engine.lean ====
section
/-! DEFINITION. The two agents' moves (00_scope.md R9). The engine's instruction is the word in PEND, not a word of memory
(20_memory.md R75). -/

namespace Sys2Proof.Machine

/-- The engine's step, enabled when BUSY = 1 (60_exceptions.md R263); with nothing pending the block waits
(70_reset_and_hazards.md R292). -/
def engineStep (s : State) : Host.Outcome State Fault Refusal :=
  match s.pend with
  | none => .next s
  | some w =>
    match decode w with
    | .ok i => exec i s
    | .error _ => .fault .pendIllegal

/-- One move of an agent. -/
def perform (a : Action) (s : State) : Host.Outcome State Fault Refusal :=
  match a with
  | .read addr be => .next (hostRead addr be s)
  | .write addr be v => .next (hostWrite addr be v s)
  | .rst => .next (hardReset s)
  | .engine => engineStep s

/-- The next move: the first of the agenda, or the engine's when the agenda is empty. -/
def nextMove (s : State) : Host.Outcome State Fault Refusal :=
  match s.agenda with
  | [] => engineStep s
  | a :: rest => perform a { s with agenda := rest }

/-- The state in which the word `c` is pending and the engine moves next. -/
def withPending (s : State) (c : CmdWord) : State := { s with pend := some c, agenda := .engine :: s.agenda }

end Sys2Proof.Machine
end

