-- ==== Sys2Proof/Machine/Step.lean ====
section
/-! DEFINITION. The step of the machine, and where it fetches its next instruction. -/

namespace Sys2Proof.Machine

/-- One step: the next move of the two agents (00_scope.md R9, 20_memory.md R76). -/
def step (s : State) : Host.Outcome State Fault Refusal := nextMove s

/-- The state with an instruction's word in PEND, where the engine takes it, and the engine's move next (10_state.md R32). -/
def State.withFetchWord (s : State) (nbits w : Nat) : State := withPending s (tableWord nbits w)

end Sys2Proof.Machine
end

