-- ==== Sys2Proof/Machine/Assembler.lean ====
section
/-! DEFINITION. The lines of an assembler program as moves of the two agents (30_encoding.md R99 to R101). -/

namespace Sys2Proof.Machine

/-- A host read and a host write of a register, all byte enables on. -/
def readMove (p : Params) (r : HostReg) : Action := .read (regAddr p r) 0xF

@[inherit_doc readMove] def writeMove (p : Params) (r : HostReg) (v : BitVec 32) : Action := .write (regAddr p r) 0xF v

/-- A command line: write the word to CMD, then read STATUS until BUSY = 0 (30_encoding.md R99). The engine's step stands
before the read, so the first read of STATUS shows BUSY = 0 (log entry 8). -/
def commandMoves (p : Params) (w : CmdWord) : List Action :=
  [writeMove p .cmd w, .engine, readMove p .status]

/-- The writes of IN[k], IN[k + 1], ... The spec does not say what the assembler does with more bytes than IN has. DESIGN
CHOICE (log entry 11): every byte is written at IN's base plus four times its number, so those from `IN_MAX` on go to
whatever the address decode finds there. -/
def inByteMoves (p : Params) : Nat → List Byte → List Action
  | _, [] => []
  | k, b :: bs => writeMove p (.inByte k) (b.setWidth 32) :: inByteMoves p (k + 1) bs

/-- The moves of a line, none where the assembler refuses it (30_encoding.md R99, R101). The length that `.in` writes is its
number of bytes; IN_LEN takes the low 16 bits (10_state.md R36). -/
def lineMoves (p : Params) (l : AsmLine) : Option (List Action) :=
  match l with
  | .inBytes bs => some (inByteMoves p 0 bs ++ [writeMove p .inLen (BitVec.ofNat 32 bs.length)])
  | .rd r => some [readMove p r]
  | .rst => some [.rst]
  | .writeCmd w => some [writeMove p .cmd w]
  | l => (assemble l).map (fun i => commandMoves p (encode i))

/-- The moves of a program. The spec says that the assembler refuses a line whose operands are out of range (30_encoding.md
R99), not what becomes of the program's other lines: a program with a refused line has no moves at all (DESIGN CHOICE, log
entry 8). -/
def programMoves (p : Params) : List AsmLine → Option (List Action)
  | [] => some []
  | l :: ls =>
    match lineMoves p l, programMoves p ls with
    | some a, some b => some (a ++ b)
    | _, _ => none

end Sys2Proof.Machine
end

