-- ==== Sys2Proof/Safety.lean ====
section
/-! DEFINITION. What claims say of a run: the invariant of the states (10_state.md R37, 41_section.md R178), reachability, the
handshake (70_reset_and_hazards.md R293), the end of a run and its observation (R302), and the terms of the statements about
cells, streams and completed commands. -/

namespace Sys2Proof.Machine

/-! ## The invariant -/

/-- The palette bound: in palette mode `PAL_LEN <= 2^BPE` or `PAL_LEN <= 255 + BPE` (41_section.md R178); in direct mode at
most the 256 entries a DECODE can leave (42_stream_codec.md R217, R224). -/
def Section.palBound (c : Section) : Prop :=
  if c.direct then c.pal.length ≤ Config.palDecodeMax
  else c.pal.length ≤ 2 ^ c.bpe.toNat ∨ c.pal.length ≤ 255 + c.bpe.toNat

/-- A section the block can hold: a legal width, W(BPE) words, a bounded palette and bounded light data (10_state.md R37). -/
structure Section.Ok (p : Params) (c : Section) : Prop where
  bpe_legal : legalBpe c.bpe.toNat = true
  words_length : c.words.length = wordCount c.bpe.toNat
  pal_bound : c.palBound
  light_bound : c.light.length ≤ p.lightMax

/-- A byte buffer of `max` bytes: canonical and inside its window. -/
def bufferOk (max : Nat) (m : List Host.Cell) : Prop := Memory.wf m ∧ ∀ c ∈ m, c.1 < max

/-- ERR and FAULT agree with their codes, the codes are ones the spec gives (10_state.md R37; 60_exceptions.md R261, R262),
and while a command is pending DONE and ERR are clear (60_exceptions.md R263). -/
structure StatusOk (s : State) : Prop where
  err_code : s.err = true ↔ s.errcode ≠ 0
  err_known : s.errcode.toNat ≤ 10
  fault_code : s.fault = true ↔ s.faultcode ≠ 0
  fault_known : s.faultcode.toNat ≤ 2
  busy_clear : s.busy = true → s.done = false ∧ s.err = false

/-- The invariant of the machine. -/
structure State.Inv (s : State) : Prop where
  params_legal : s.params.Legal
  section_ok : s.sec.Ok s.params
  in_ok : bufferOk s.params.inMax s.inBuf
  out_ok : bufferOk s.params.outMax s.outBuf
  out_len : s.outLen.toNat ≤ s.params.outMax
  out_written : ∀ k, k < s.outLen.toNat → (Memory.read s.outBuf k).isSome
  status_ok : StatusOk s
  pend_legal : ∀ w, s.pend = some w → illegal w = false

/-! ## Runs -/

/-- The states of the runs of a block with parameters `p`: from reset, with any agenda, any number of steps. -/
inductive Reachable (p : Params) : State → Prop where
  | start (agenda : List Action) (rdata : BitVec 32) (draws : Nat) :
      Reachable p { State.resetWith p with agenda := agenda, rdata := rdata, draws := draws }
  | move {s t : State} : Reachable p s → step s = .next t → Reachable p t

/-- The states reached from reset by INIT and SET alone (41_section.md R180). -/
inductive SetReachable (p : Params) : State → Prop where
  | start : SetReachable p (State.resetWith p)
  | init {s t : State} : SetReachable p s → exec .init s = .next t → SetReachable p t
  | set {s t : State} (x y z : Coord) (v : RawValue) :
      SetReachable p s → exec (.set x y z v) s = .next t → SetReachable p t

/-- The registers the host must read only while BUSY = 0 (70_reset_and_hazards.md R293). -/
def idleRead : HostReg → Bool
  | .cmd => false
  | .status => false
  | .result => true
  | .bpe => true
  | .palLen => true
  | .inLen => false
  | .outLen => true
  | .lightLen => true
  | .pal _ => true
  | .inByte _ => false
  | .outByte _ => true

/-- The registers the host must write only while BUSY = 0 (70_reset_and_hazards.md R293). -/
def idleWrite : HostReg → Bool
  | .cmd => true
  | .status => false
  | .result => false
  | .bpe => false
  | .palLen => false
  | .inLen => true
  | .outLen => false
  | .lightLen => false
  | .pal _ => false
  | .inByte _ => true
  | .outByte _ => false

/-- A host move that keeps the handshake in state `s`: while BUSY = 1 the host reads and writes none of the registers that
70_reset_and_hazards.md R293 keeps for BUSY = 0. R293 has the host learn that BUSY = 0 by reading STATUS; here the move is
tested against BUSY itself and no earlier read of STATUS is asked for, and `rst`, which R293 does not name, always keeps the
handshake (DESIGN CHOICE, log entry 12). -/
def keepsHandshake (s : State) : Action → Bool
  | .read addr _ => !(s.busy && (regAt s.params addr).any idleRead)
  | .write addr _ _ => !(s.busy && (regAt s.params addr).any idleWrite)
  | .rst => true
  | .engine => true

/-- A run ends where BUSY = 0 and the host performs no further action (70_reset_and_hazards.md R302). -/
def State.ended (s : State) : Prop := s.busy = false ∧ s.agenda = []

/-- A run ends well when it ends with FAULT = 0 (70_reset_and_hazards.md R302). -/
def State.endsWell (s : State) : Prop := s.ended ∧ s.fault = false

/-- The observation of a run (70_reset_and_hazards.md R302). -/
structure Observation where
  status : BitVec 32
  result : RawValue
  bpe : BitVec 5
  pal : List RawValue
  lightLen : Nat
  inLen : BitVec 16
  outLen : BitVec 16
  out : List (Option Byte)
deriving DecidableEq, Repr

/-- The host-readable state at the end of a run (70_reset_and_hazards.md R302). -/
def State.observe (s : State) : Observation where
  status := statusWord s
  result := s.result
  bpe := s.sec.bpe
  pal := s.sec.pal
  lightLen := s.lightLen
  inLen := s.inLen
  outLen := s.outLen
  out := (List.range s.outLen.toNat).map (Memory.read s.outBuf)

/-! ## Terms of the statements -/

/-- A completed command: BUSY = 0, DONE = 1, and IN and OUT read byte by byte as in `s` (60_exceptions.md R263). -/
structure Completed (s t : State) : Prop where
  not_busy : t.busy = false
  done : t.done = true
  in_bytes : ∀ a, Memory.read t.inBuf a = Memory.read s.inBuf a
  out_bytes : ∀ a, Memory.read t.outBuf a = Memory.read s.outBuf a

/-- The linear index of coordinates as a number: `256 y + 16 z + x` (41_section.md R160). -/
def linearIndex (x y z : Coord) : Nat := 256 * y.toNat + 16 * z.toNat + x.toNat

/-- Bit `p` of word `k` of the live array. -/
def Section.bit (c : Section) (k p : Nat) : Bool := (c.words.getD k 0).getLsbD p

/-- Bit `p` of word `k` belongs to cell `i` in an array of width `b` (40_packed_array.md R122). -/
def bitInCell (b i k p : Nat) : Prop := k = i / (64 / b) ∧ (i % (64 / b)) * b ≤ p ∧ p < (i % (64 / b)) * b + b

/-- Cell `i` holds the number `v`: the bits of `v` are the `BPE` bits of the word (40_packed_array.md R122, R124). -/
def Section.holds (c : Section) (i v : Nat) : Prop :=
  v < 2 ^ c.bpe.toNat ∧
  ∀ n < c.bpe.toNat,
    v.testBit n = c.bit (i / (64 / c.bpe.toNat)) ((i % (64 / c.bpe.toNat)) * c.bpe.toNat + n)

/-- Every bit that belongs to no cell is 0 (10_state.md R38). -/
def Section.cleanUnused (c : Section) : Prop :=
  ∀ k < c.words.length, ∀ p < 64, (∀ i < 4096, ¬ bitInCell c.bpe.toNat i k p) → c.bit k p = false

/-- Two sections that differ at most in bits that belong to no cell. -/
def Section.sameCells (c d : Section) : Prop :=
  c.bpe = d.bpe ∧ c.pal = d.pal ∧ c.light = d.light ∧ c.words.length = d.words.length ∧
  ∀ i < 4096, ∀ k p, bitInCell c.bpe.toNat i k p → c.bit k p = d.bit k p

/-- The lowest index of a value in a palette is `k` (41_section.md R163). -/
def firstIndex (pal : List RawValue) (v : RawValue) (k : Nat) : Prop :=
  pal[k]? = some v ∧ ∀ j < k, pal[j]? ≠ some v

/-- The commands run one after the other, each accepted and completed. -/
def runCommands : List Instr → State → Host.Outcome State Fault Refusal
  | [], s => .next s
  | i :: is, s =>
    match exec i s with
    | .next t => runCommands is t
    | .fault r => .fault r
    | .refused r => .refused r

/-- The raw value of a SET. -/
def setValueOf : Instr → Option RawValue
  | .set _ _ _ v => some v
  | .init => none
  | .get _ _ _ => none
  | .peek _ _ _ => none
  | .decode => none
  | .encode => none

/-- The number of 7-bit groups, the first one least significant (20_memory.md R65). -/
def groupValue : List Byte → Nat
  | [] => 0
  | b :: bs => b.toNat % 128 + 128 * groupValue bs

/-- The bytes `bs` are a varint of value `v` (42_stream_codec.md R211). -/
def VarintBytes (bs : List Byte) (v : Nat) : Prop := ∀ rest, readVarint (bs ++ rest) = .ok (v, rest)

/-- The palette entries of a stream: each a tag and a byte (42_stream_codec.md R218). -/
def entryBytes (es : List (List Byte × Byte)) : List Byte := es.flatMap (fun e => e.1 ++ [e.2])

/-- Each entry's tag is a varint, of any value (42_stream_codec.md R218). -/
def TagsOk (es : List (List Byte × Byte)) : Prop := ∀ e ∈ es, ∃ tag, VarintBytes e.1 tag

/-- The bytes `pre` are well-formed fields up to a place where a stream has a varint: the palette length after the width
byte; the tag of a palette entry; the marker after the last entry; the word count after the marker (42_stream_codec.md
R210). -/
def BeforeVarint (pre : List Byte) : Prop :=
  ∃ (b : Byte) (vlen vmark : List Byte) (es : List (List Byte × Byte)) (n : Nat),
    legalBpe b.toNat = true ∧ VarintBytes vlen n ∧ n ≤ 256 ∧ TagsOk es ∧ VarintBytes vmark 1 ∧
    (pre = [b] ∨ (es.length ≤ n ∧ pre = b :: vlen ++ entryBytes es) ∨
      (es.length = n ∧ pre = b :: vlen ++ entryBytes es ++ vmark))

/-- The fields of the stream ENCODE writes, byte by byte: the width; the palette's length; for each entry the tag and the low
byte of the entry; the marker; the word count; each word's eight bytes, the most significant one first; the light data
(42_stream_codec.md R226, R227, R228; 20_memory.md R64). -/
def Section.fields (p : Params) (c : Section) : List Byte :=
  [BitVec.ofNat 8 c.bpe.toNat] ++ varint c.pal.length
    ++ c.pal.flatMap (fun e => [BitVec.ofNat 8 p.encTag.toNat, BitVec.ofNat 8 (e.toNat % 256)])
    ++ [1] ++ varint (wordCount c.bpe.toNat)
    ++ c.words.flatMap (fun w => (List.range 8).map fun j => BitVec.ofNat 8 (w.toNat / 256 ^ (7 - j)))
    ++ c.light

/-- The offsets at which no register is mapped: between the single registers and the palette window, and beyond the slots of
each window (20_memory.md R62). -/
def unmappedOffset (p : Params) (off : Nat) : Prop :=
  (0x20 ≤ off ∧ off < 0x1000) ∨ (0x1000 + 4 * 264 ≤ off ∧ off < 0x10000) ∨
  (0x10000 + 4 * p.inMax ≤ off ∧ off < 0x20000) ∨ 0x20000 + 4 * p.outMax ≤ off

/-- The state of the same block at another base address, its host's accesses moved with it (20_memory.md R73). -/
def moveBase (d : BitVec 64) (s : State) : State :=
  { s with
    params := { s.params with base := s.params.base + d }
    agenda := s.agenda.map fun a =>
      match a with
      | .read addr be => .read (addr + d) be
      | .write addr be v => .write (addr + d) be v
      | .rst => .rst
      | .engine => .engine }

/-- The moves that load a stream and run DECODE: the boot sequence (70_reset_and_hazards.md R294). -/
def bootMoves (p : Params) (bs : List Byte) : List Action :=
  inByteMoves p 0 bs ++ [writeMove p .inLen (BitVec.ofNat 32 bs.length)] ++ commandMoves p 0x00000005

end Sys2Proof.Machine
end

