-- ==== Sys2Proof/Certificates/Slice0/Obligations.lean ====
section
/-! DEFINITION. The statements about the model, for the provers. The idiom "restoring the named fields of t from s gives s"
says that every other field of the state is unchanged. -/

open Sys2Proof Sys2Proof.Machine

/-! ## Encoding (30_encoding.md) -/

/-- Decode and encode agree: a word decodes to a command exactly when it is the command's encoding. So decoding the encoding
of any command, every operand at every value its field admits, gives the command, and no two words are one command
(30_encoding.md R94, R98). -/
def Obligations.DecodeAndEncodeAgree : Prop :=
  ∀ (w : CmdWord) (i : Instr), decode w = .ok i ↔ encode i = w

/-- A word is legal exactly when it matches a row of the table of 30_encoding.md R94, the row it decodes to; a word that
matches none is illegal (R96). -/
def Obligations.LegalWordsMatchTheTable : Prop :=
  (∀ w : CmdWord, illegal w = true ↔ ∀ i : Instr, w &&& tableMask i ≠ tableMatch i) ∧
  ∀ (w : CmdWord) (i : Instr), decode w = .ok i → w &&& tableMask i = tableMatch i

/-- The operands of a decoded word are its fields: the index is bits [15:4], it is `(Y << 8) | (Z << 4) | X`, and the value is
bits [29:16] (30_encoding.md R92, R93; 41_section.md R160). -/
def Obligations.OperandsAreTheWordsFields : Prop :=
  ∀ (w : CmdWord) (x y z : Coord),
    cellOf x y z = y.toNat <<< 8 ||| z.toNat <<< 4 ||| x.toNat ∧
    (decode w = .ok (.get x y z) → cellOf x y z = w.toNat / 16 % 4096) ∧
    (decode w = .ok (.peek x y z) → cellOf x y z = w.toNat / 16 % 4096) ∧
    ∀ v, decode w = .ok (.set x y z v) → cellOf x y z = w.toNat / 16 % 4096 ∧ v.toNat = w.toNat / 65536 % 16384

/-- Some words written out from the encodings decode to their commands, and some illegal ones to none
(95_test_vectors.md V-ENC). -/
def Obligations.SampleWordsDecode : Prop :=
  decode 0x00000001 = .ok .init ∧ decode 0x00000102 = .ok (.get 0 0 1) ∧ decode 0x012C2533 = .ok (.set 3 2 5 300) ∧
  decode 0x3FFFFFF3 = .ok (.set 15 15 15 16383) ∧ decode 0x00000104 = .ok (.peek 0 0 1) ∧ decode 0x00000005 = .ok .decode ∧
  decode 0x00000006 = .ok .encode ∧ illegal 0x00000000 = true ∧ illegal 0x0000000F = true ∧ illegal 0x40000003 = true ∧
  illegal 0x00010002 = true ∧ illegal 0x00000011 = true

/-- The coordinate map is a bijection from coordinates to the 4096 indices, with the inverse of 41_section.md R161. -/
def Obligations.CoordinateMapIsBijective : Prop :=
  (∀ i : BitVec 12, ∃! c : Coord × Coord × Coord, cellIndex c.1 c.2.1 c.2.2 = i) ∧
  ∀ i : BitVec 12, cellIndex (i.extractLsb' 0 4) (i.extractLsb' 8 4) (i.extractLsb' 4 4) = i

/-- The assembler accepts a command line or a pseudo-instruction exactly when its operands are in range, and its word is then
the one of 30_encoding.md R99 or R100. -/
def Obligations.AssemblerGivesTheWords : Prop :=
  ((assemble .init).map encode = some 0x00000001 ∧ (assemble .decode).map encode = some 0x00000005 ∧
    (assemble .encode).map encode = some 0x00000006) ∧
  (∀ x y z, x < 16 → y < 16 → z < 16 →
    (assemble (.get x y z)).map (fun i => (encode i).toNat) = some (y <<< 12 ||| z <<< 8 ||| x <<< 4 ||| 2) ∧
    (assemble (.peek x y z)).map (fun i => (encode i).toNat) = some (y <<< 12 ||| z <<< 8 ||| x <<< 4 ||| 4) ∧
    ∀ v < 16384, (assemble (.set x y z v)).map (fun i => (encode i).toNat)
      = some (v <<< 16 ||| y <<< 12 ||| z <<< 8 ||| x <<< 4 ||| 3)) ∧
  (∀ i < 4096,
    (assemble (.getI i)).map (fun c => (encode c).toNat) = some (i <<< 4 ||| 2) ∧
    (assemble (.peekI i)).map (fun c => (encode c).toNat) = some (i <<< 4 ||| 4) ∧
    ∀ v < 16384, (assemble (.setI i v)).map (fun c => (encode c).toNat) = some (v <<< 16 ||| i <<< 4 ||| 3)) ∧
  (∀ x y z v, ¬ (x < 16 ∧ y < 16 ∧ z < 16) →
    assemble (.get x y z) = none ∧ assemble (.peek x y z) = none ∧ assemble (.set x y z v) = none) ∧
  (∀ v, 16384 ≤ v → (∀ x y z, assemble (.set x y z v) = none) ∧ ∀ i, assemble (.setI i v) = none) ∧
  ∀ i v, 4096 ≤ i → assemble (.getI i) = none ∧ assemble (.peekI i) = none ∧ assemble (.setI i v) = none

/-! ## The host's bus (20_memory.md; 10_state.md R35, R36) -/

/-- Two accesses with the same address bits [17:2] are the same access, whatever their other address bits and byte enables
are (20_memory.md R61). That the bits are those of the address's distance from BASE is the model's reading of R61 with R73
and 92_eei_decisions.md D44 (DEDUCED, log entry 3). -/
def Obligations.OnlyAddressBits17To2Matter : Prop :=
  ∀ (s : State) (a a' : BitVec 64) (be be' : BitVec 4) (v : BitVec 32),
    (∀ n, 2 ≤ n → n < 18 → (a - s.params.base).getLsbD n = (a' - s.params.base).getLsbD n) →
    hostRead a be s = hostRead a' be' s ∧ hostWrite a be v s = hostWrite a' be' v s

/-- The address decode is the register map of 10_state.md R35: each register answers at its own offset, and an access that
reaches a register is at that register's offset. -/
def Obligations.AddressDecodeIsTheRegisterMap : Prop :=
  ∀ p : Params, p.Legal →
    (∀ r : HostReg, r.wellFormed p = true → regAt p (regAddr p r) = some r) ∧
    ∀ (addr : BitVec 64) (r : HostReg), regAt p addr = some r →
      r.wellFormed p = true ∧ 4 * regNumber p addr = regOffset r

/-- While BUSY = 0 an unmapped address reads 0 and ignores a write, and either access raises no error and no fault: the
addresses between the registers and the windows and the slots beyond each window (20_memory.md R62). -/
def Obligations.UnmappedAddressReadsZeroAndIgnoresWrites : Prop :=
  ∀ (s : State) (addr : BitVec 64) (be : BitVec 4) (v : BitVec 32),
    s.params.Legal → s.busy = false → unmappedOffset s.params (4 * regNumber s.params addr) →
    hostWrite addr be v s = s ∧ (hostRead addr be s).rdata = 0 ∧ (hostRead addr be s).err = s.err ∧
      (hostRead addr be s).fault = s.fault

/-- What the host reads while BUSY = 1: STATUS as it stands, any value from every other register (20_memory.md R71), and still
0 at an unmapped address, which still ignores a write. That R71 and 93_implementation_defined.md I9 do not mean unmapped
addresses is the model's choice, and so is the form of "any value" (DEDUCED and DESIGN CHOICE, log entry 5). -/
def Obligations.BusyReadsShowStatusOnly : Prop :=
  ∀ (s : State) (addr : BitVec 64) (be : BitVec 4) (rest : List Action), s.params.Legal → s.busy = true →
    (s.agenda = .read addr be :: rest →
      ∃ t, step s = .next t ∧
        (∀ r, regAt s.params addr = some r → t.rdata = if r = .status then statusWord s else Config.anyValue s.draws 0) ∧
        (unmappedOffset s.params (4 * regNumber s.params addr) → t.rdata = 0)) ∧
    ∀ v, s.agenda = .write addr be v :: rest → unmappedOffset s.params (4 * regNumber s.params addr) →
      step s = .next { s with agenda := rest }

/-- The fields of STATUS at their places, bits [31:13] being 0 (10_state.md R30). -/
def Obligations.StatusFieldsAtTheirBits : Prop :=
  ∀ s : State,
    (statusWord s).getLsbD 0 = s.busy ∧ (statusWord s).getLsbD 1 = s.done ∧ (statusWord s).getLsbD 2 = s.err ∧
    (statusWord s).getLsbD 3 = s.fault ∧ (statusWord s).extractLsb' 4 4 = s.errcode ∧
    (statusWord s).extractLsb' 8 4 = s.faultcode ∧ (statusWord s).getLsbD 12 = decide (8 < s.sec.bpe.toNat) ∧
    (statusWord s).extractLsb' 13 19 = 0

/-- What the host reads from each register while BUSY = 0, in every state that meets the invariant (10_state.md R35). -/
def Obligations.IdleReadsShowTheRegisters : Prop :=
  ∀ (s : State) (be : BitVec 4), s.Inv → s.busy = false →
    let rd := fun r => (hostRead (regAddr s.params r) be s).rdata
    rd .cmd = 0 ∧ rd .status = statusWord s ∧ (rd .result).toNat = s.result.toNat ∧ (rd .bpe).toNat = s.sec.bpe.toNat ∧
    (rd .palLen).toNat = s.sec.pal.length ∧ (rd .inLen).toNat = s.inLen.toNat ∧ (rd .outLen).toNat = s.outLen.toNat ∧
    (rd .lightLen).toNat = s.sec.light.length ∧
    (∀ k v, s.sec.pal[k]? = some v → (rd (.pal k)).toNat = v.toNat) ∧
    (∀ k, s.sec.pal.length ≤ k → k < 264 → rd (.pal k) = 0) ∧
    (∀ k b, Memory.read s.inBuf k = some b → (rd (.inByte k)).toNat = b.toNat) ∧
    ∀ k b, k < s.outLen.toNat → Memory.read s.outBuf k = some b → (rd (.outByte k)).toNat = b.toNat

/-- A host read changes nothing of the block, and STATUS reads as it stands even while BUSY = 1 (20_memory.md R70, R71). -/
def Obligations.HostReadChangesNothing : Prop :=
  ∀ (s : State) (addr : BitVec 64) (be : BitVec 4) (rest : List Action), s.agenda = .read addr be :: rest →
    ∃ t, step s = .next t ∧ t.agenda = rest ∧
      { t with agenda := s.agenda, rdata := s.rdata, draws := s.draws } = s ∧
      (regAt s.params addr = some .status → t.rdata = statusWord s)

/-- While BUSY = 1 a write to CMD, IN_LEN or an IN byte is dropped and records OVERRUN, unless a fault is recorded already;
the pending command stays pending (20_memory.md R72). -/
def Obligations.WriteWhileBusyFaultsOverrun : Prop :=
  ∀ (s : State) (addr : BitVec 64) (be : BitVec 4) (v : BitVec 32) (rest : List Action) (r : HostReg),
    s.busy = true → s.agenda = .write addr be v :: rest → regAt s.params addr = some r →
    (r = .cmd ∨ r = .inLen ∨ ∃ k, r = .inByte k) →
    (s.fault = true → step s = .next { s with agenda := rest }) ∧
    (s.fault = false → step s = .next { s with agenda := rest, fault := true, faultcode := 2 })

/-- While BUSY = 0 a write of IN[k] stores the low byte at address k and leaves every other byte of IN, and all else; a write
of IN_LEN stores the low half, not clamped; a write of a read-only register changes nothing, busy or not (10_state.md R36,
20_memory.md R70). -/
def Obligations.HostWritesStoreInputOnly : Prop :=
  (∀ (s : State) (addr : BitVec 64) (be : BitVec 4) (v : BitVec 32) (rest : List Action) (r : HostReg),
    s.agenda = .write addr be v :: rest → regAt s.params addr = some r →
    (r ≠ .cmd ∧ r ≠ .inLen ∧ ∀ k, r ≠ .inByte k) → step s = .next { s with agenda := rest }) ∧
  ∀ (s : State) (be : BitVec 4) (v : BitVec 32), s.params.Legal → s.busy = false →
    (∀ k < s.params.inMax,
      let t := hostWrite (regAddr s.params (.inByte k)) be v s
      Memory.read t.inBuf k = some (v.extractLsb' 0 8) ∧
      (∀ j, j ≠ k → Memory.read t.inBuf j = Memory.read s.inBuf j) ∧ { t with inBuf := s.inBuf } = s) ∧
    (let t := hostWrite (regAddr s.params .inLen) be v s
     t.inLen = v.extractLsb' 0 16 ∧ { t with inLen := s.inLen } = s)

/-- Nothing in the block depends on BASE: a block moved in the address map, with its host's accesses moved alike, takes the
same step (20_memory.md R73, 92_eei_decisions.md D44). -/
def Obligations.StepDoesNotDependOnBase : Prop :=
  ∀ (d : BitVec 64) (s t : State), step s = .next t → step (moveBase d s) = .next (moveBase d t)

/-! ## Commands, errors and faults (60_exceptions.md) -/

/-- The four cases of a CMD write, the first that applies being the only one (60_exceptions.md R263). -/
def Obligations.CommandAcceptanceCases : Prop :=
  ∀ (s : State) (addr : BitVec 64) (be : BitVec 4) (c : CmdWord), regAt s.params addr = some .cmd →
    let t := hostWrite addr be c s
    (s.fault = true → t = s) ∧
    (s.fault = false → s.busy = true → t = { s with fault := true, faultcode := 2 }) ∧
    (s.fault = false → s.busy = false → illegal c = true →
      t = { s with fault := true, faultcode := 1, err := false, errcode := 0, done := true }) ∧
    (s.fault = false → s.busy = false → illegal c = false →
      t = { s with err := false, errcode := 0, done := false, pend := some c })

/-- A step runs the decoded command: with a legal word pending, the engine's move is exec of it, whether the agenda names the
move or is empty (the agenda is the model's choice, log entry 1); with nothing pending the engine does nothing
(70_reset_and_hazards.md R292). -/
def Obligations.StepRunsThePendingCommand : Prop :=
  (∀ (s : State) (w : CmdWord) (i : Instr), s.pend = some w → decode w = .ok i →
    (s.agenda = [] → step s = exec i s) ∧
    ∀ rest, s.agenda = .engine :: rest → step s = exec i { s with agenda := rest }) ∧
  ∀ s : State, s.pend = none →
    (s.agenda = [] → step s = .next s) ∧ ∀ rest, s.agenda = .engine :: rest → step s = .next { s with agenda := rest }

/-- A pending command is executed, unless the host asserts `rst`: after at most as many steps as the agenda is long comes the
step that is exec of the command, and it leaves BUSY = 0 and DONE = 1. Until then the host's moves change the agenda, what the
host has read, and at most the fault bits, so the command runs on the section, input and output it was accepted with
(70_reset_and_hazards.md R300). R300 asks weak fairness only; the bound rests on the agenda, of which an empty one moves the
engine (DESIGN CHOICE, log entry 1). -/
def Obligations.PendingCommandCompletes : Prop :=
  ∀ (s : State) (w : CmdWord) (i : Instr), s.Inv → s.pend = some w → decode w = .ok i → .rst ∉ s.agenda →
    ∃ (k : Nat) (u t : State), k ≤ s.agenda.length ∧ Sys2Proof.core.run k s = .next u ∧
      { u with agenda := s.agenda, rdata := s.rdata, draws := s.draws, fault := s.fault, faultcode := s.faultcode } = s ∧
      step u = .next t ∧ exec i { u with agenda := u.agenda.tail } = .next t ∧ t.busy = false ∧ t.done = true

/-- FAULT is sticky: until `rst` no step clears it or changes its code, and while it is 1 a CMD write is ignored
(10_state.md R31, 60_exceptions.md R267). -/
def Obligations.FaultIsStickyUntilReset : Prop :=
  ∀ s t : State, s.fault = true → step s = .next t →
    (s.agenda.head? ≠ some .rst → t.fault = true ∧ t.faultcode = s.faultcode) ∧
    (s.agenda.head? = some .rst → t.fault = false ∧ t.faultcode = 0) ∧
    ∀ addr be v rest, s.agenda = .write addr be v :: rest → regAt s.params addr = some .cmd → t = { s with agenda := rest }

/-- A fault is raised only by a host write: of an illegal word to an idle CMD, or of CMD, IN_LEN or IN while BUSY = 1
(60_exceptions.md R266). -/
def Obligations.OnlyHostWritesRaiseFaults : Prop :=
  ∀ s t : State, step s = .next t → s.fault = false → t.fault = true →
    ∃ addr be v rest r, s.agenda = .write addr be v :: rest ∧ regAt s.params addr = some r ∧
      ((r = .cmd ∧ s.busy = false ∧ illegal v = true ∧ t.faultcode = 1) ∨
       ((r = .cmd ∨ r = .inLen ∨ ∃ k, r = .inByte k) ∧ s.busy = true ∧ t.faultcode = 2))

/-- ERR and ERRCODE keep their values until the next accepted or illegal CMD write, or `rst`, clears them; with ERR = 1 no
command is pending, so a CMD write is one of the two exactly when FAULT = 0 (60_exceptions.md R265). -/
def Obligations.ErrorStaysUntilTheNextCommand : Prop :=
  ∀ s t : State, s.Inv → s.err = true → step s = .next t →
    let clearing := s.agenda.head? = some .rst ∨
      ∃ addr be v rest, s.agenda = .write addr be v :: rest ∧ regAt s.params addr = some .cmd ∧ s.fault = false
    (clearing → t.err = false ∧ t.errcode = 0) ∧ (¬ clearing → t.err = true ∧ t.errcode = s.errcode)

/-- A command that raises a response error is DECODE or ENCODE, and it changes STATUS and, for ENCODE, OUT_LEN to 0, and
nothing else; INIT, GET, SET and PEEK raise none (60_exceptions.md R261, R264). -/
def Obligations.ErrorsArePrecise : Prop :=
  ∀ (i : Instr) (s t : State), exec i s = .next t → s.err = false → t.err = true →
    (i = .decode ∨ i = .encode) ∧ 1 ≤ t.errcode.toNat ∧ t.errcode.toNat ≤ 10 ∧
    { t with pend := s.pend, done := s.done, err := s.err, errcode := s.errcode, outLen := s.outLen, draws := s.draws } = s ∧
    (i = .decode → t.outLen = s.outLen) ∧ (i = .encode → t.outLen = 0)

/-- The host's accesses change no section, no result and no output; the engine changes no input and no parameter
(10_state.md R27; 20_memory.md R70). -/
def Obligations.AgentsWriteTheirOwnState : Prop :=
  (∀ (s t : State) (a : Action) (rest : List Action), s.agenda = a :: rest → a ≠ .rst → a ≠ .engine → step s = .next t →
    t.sec = s.sec ∧ t.result = s.result ∧ t.outLen = s.outLen ∧ (∀ k, Memory.read t.outBuf k = Memory.read s.outBuf k)) ∧
  ∀ (i : Instr) (s t : State), exec i s = .next t →
    t.inLen = s.inLen ∧ (∀ k, Memory.read t.inBuf k = Memory.read s.inBuf k) ∧ t.params = s.params ∧
    t.fault = s.fault ∧ t.faultcode = s.faultcode ∧ t.agenda = s.agenda ∧ t.rdata = s.rdata ∧
    t.busy = false ∧ t.done = true

/-- A host that keeps the handshake never causes OVERRUN (70_reset_and_hazards.md R293). That a move is tested against BUSY
itself, with no earlier read of STATUS asked for, is the model's choice (DESIGN CHOICE, log entry 12). -/
def Obligations.HandshakeAvoidsOverrun : Prop :=
  ∀ (s t : State) (a : Action) (rest : List Action), s.Inv → s.fault = false → s.agenda = a :: rest →
    keepsHandshake s a = true → step s = .next t → t.faultcode ≠ 2

/-! ## Reset and the invariant -/

/-- What `rst` leaves in one step, from every state: the table of 70_reset_and_hazards.md R290, and the section INIT makes. -/
def Obligations.ResetLeavesTheTableOfR290 : Prop :=
  ∀ (s : State) (rest : List Action), s.params.Legal → s.agenda = .rst :: rest →
    ∃ t, step s = .next t ∧
      t.sec.bpe.toNat = s.params.resetBpe ∧ t.sec.words.length = wordCount s.params.resetBpe ∧
      (∀ w ∈ t.sec.words, w = 0) ∧ (∀ i < 4096, t.sec.cell i = 0) ∧
      (s.params.resetPalette = .sentinel → t.sec.pal = [0] ∧ t.palLen = 1) ∧
      (s.params.resetPalette = .empty → t.sec.pal = [] ∧ t.palLen = 0) ∧
      t.lightLen = 0 ∧ t.inLen = 0 ∧ (∀ k, Memory.read t.inBuf k = none) ∧ t.outLen = 0 ∧
      (∀ k, Memory.read t.outBuf k = none) ∧ t.result = 0 ∧ statusWord t = 0 ∧ t.pend = none ∧
      ∃ u, exec .init s = .next u ∧ u.sec = t.sec

/-- Asserting `rst` gives the reset state of the block with its parameters, whatever was pending (70_reset_and_hazards.md
R290). That the agenda stays, and with it the model's other own fields, is the model's choice (DESIGN CHOICE, log entry
10). -/
def Obligations.RstGivesTheResetState : Prop :=
  ∀ (s : State) (rest : List Action), s.agenda = .rst :: rest →
    ∃ t, step s = .next t ∧ t.agenda = rest ∧
      { t with agenda := [], rdata := 0, draws := 0 } = State.resetWith s.params

/-- The reset state meets the invariant, for every legal choice of the parameters. -/
def Obligations.ResetMeetsTheInvariant : Prop :=
  (∀ p : Params, p.Legal → (State.resetWith p).Inv) ∧ State.reset.Inv

/-- The invariant is inductive: every step of either agent keeps it, the palette bound of 41_section.md R178 with it. -/
def Obligations.StepKeepsTheInvariant : Prop :=
  ∀ s t : State, s.Inv → step s = .next t → t.Inv

/-- From a state that meets the invariant the machine always takes a step: no fault of the model and no refusal is
reachable. -/
def Obligations.StepNeverStops : Prop :=
  ∀ s : State, s.Inv → ∃ t, step s = .next t

/-- Between commands every reachable state satisfies (a) to (f) of 10_state.md R37. -/
def Obligations.ReachableStatesSatisfyR37 : Prop :=
  ∀ (p : Params) (s : State), p.Legal → Reachable p s → s.busy = false →
    legalBpe s.sec.bpe.toNat = true ∧ s.sec.words.length = wordCount s.sec.bpe.toNat ∧ s.palLen ≤ 263 ∧
    s.lightLen ≤ p.lightMax ∧ (s.faultcode = 0 ↔ s.fault = false) ∧ (s.errcode = 0 ↔ s.err = false)

/-! ## INIT, GET, PEEK (41_section.md, 40_packed_array.md) -/

/-- The widths' geometry: 40_packed_array.md R130's columns cpw and W for the nine legal widths. -/
def Obligations.GeometryOfTheLegalWidths : Prop :=
  [1, 2, 3, 4, 5, 6, 7, 8, 14].map (fun b => (cellsPerWord b, wordCount b))
    = [(64, 64), (32, 128), (21, 196), (16, 256), (12, 342), (10, 410), (9, 456), (8, 512), (4, 1024)]

/-- INIT allocates the empty section, of which every GET then returns 0, and changes nothing else but the completion
(41_section.md R164). -/
def Obligations.InitAllocatesTheEmptySection : Prop :=
  ∀ s : State, s.params.Legal →
    ∃ t, exec .init s = .next t ∧
      t.sec.bpe.toNat = s.params.resetBpe ∧ t.sec.words.length = wordCount s.params.resetBpe ∧
      (∀ i < 4096, t.sec.holds i 0) ∧ t.sec.cleanUnused ∧
      (s.params.resetPalette = .sentinel → t.sec.pal = [0]) ∧ (s.params.resetPalette = .empty → t.sec.pal = []) ∧
      t.sec.light = [] ∧ Completed s t ∧ { t with sec := s.sec, pend := s.pend, done := s.done } = s ∧
      decode 0x00000001 = .ok .init ∧ ∀ x y z, ∃ u, exec (.get x y z) t = .next u ∧ u.result = 0

/-- GET returns the raw value of the cell's bits: through the palette, 0 beyond it, the bits themselves in direct mode; it
writes RESULT only; its word has OP = 2 and VAL and RSV zero (41_section.md R165). -/
def Obligations.GetReturnsTheRawValue : Prop :=
  ∀ (x y z : Coord) (s : State), legalBpe s.sec.bpe.toNat = true → s.sec.words.length = wordCount s.sec.bpe.toNat →
    ∃ t v, exec (.get x y z) s = .next t ∧ s.sec.holds (linearIndex x y z) v ∧
      (s.sec.bpe.toNat ≤ 8 → v < s.sec.pal.length → s.sec.pal[v]? = some t.result) ∧
      (s.sec.bpe.toNat ≤ 8 → s.sec.pal.length ≤ v → t.result = 0) ∧
      (8 < s.sec.bpe.toNat → t.result.toNat = v) ∧
      Completed s t ∧ { t with result := s.result, pend := s.pend, done := s.done } = s ∧
      decode (0#2 ++ 0#14 ++ y ++ z ++ x ++ 2#4) = .ok (.get x y z)

/-- PEEK returns the cell's bits in either mode and writes RESULT only; in direct mode GET returns the same; its word has
OP = 4 and VAL and RSV zero (40_packed_array.md R131). -/
def Obligations.PeekReturnsTheRawCell : Prop :=
  ∀ (x y z : Coord) (s : State), legalBpe s.sec.bpe.toNat = true → s.sec.words.length = wordCount s.sec.bpe.toNat →
    ∃ t, exec (.peek x y z) s = .next t ∧ s.sec.holds (linearIndex x y z) t.result.toNat ∧
      Completed s t ∧ { t with result := s.result, pend := s.pend, done := s.done } = s ∧
      (8 < s.sec.bpe.toNat → exec (.get x y z) s = .next t) ∧
      decode (0#2 ++ 0#14 ++ y ++ z ++ x ++ 4#4) = .ok (.peek x y z)

/-- No command but ENCODE depends on an unused bit: from states that differ in unused bits only, INIT, GET, SET, PEEK and
DECODE give states that differ in unused bits at most. ENCODE writes the unused bits out as they stand: the streams of two
sections that differ in such a bit differ (40_packed_array.md R128). -/
def Obligations.OnlyEncodeReadsUnusedBits : Prop :=
  ∀ (s : State) (d : Section), s.sec.Ok s.params → s.sec.sameCells d →
    (∀ i : Instr, i ≠ .encode →
      ∃ t u, exec i s = .next t ∧ exec i { s with sec := d } = .next u ∧
        t.sec.sameCells u.sec ∧ { t with sec := u.sec } = u) ∧
    (encodeSection s.params s.sec = encodeSection s.params d → s.sec = d)

/-! ## SET (41_section.md) -/

/-- SET of 0, or of a value the palette has, in palette mode: the id (0, or the lowest index) is stored masked in the cell;
no other bit of the array changes, nor the palette, the width, the light data or anything else (41_section.md R167, R174). -/
def Obligations.SetOfKnownValueStoresItsIndex : Prop :=
  ∀ (x y z : Coord) (v : RawValue) (s : State) (id : Nat), s.sec.Ok s.params → s.sec.bpe.toNat ≤ 8 →
    ((v = 0 ∧ id = 0) ∨ (v ≠ 0 ∧ firstIndex s.sec.pal v id)) →
    ∃ t, exec (.set x y z v) s = .next t ∧
      t.sec.bpe = s.sec.bpe ∧ t.sec.pal = s.sec.pal ∧ t.sec.light = s.sec.light ∧
      t.sec.words.length = s.sec.words.length ∧
      t.sec.holds (linearIndex x y z) (id % 2 ^ s.sec.bpe.toNat) ∧
      (∀ k p, ¬ bitInCell s.sec.bpe.toNat (linearIndex x y z) k p → t.sec.bit k p = s.sec.bit k p) ∧
      Completed s t ∧ { t with sec := s.sec, pend := s.pend, done := s.done } = s

/-- SET in direct mode stores the raw value in the cell; no other bit of the array changes, nor the palette, the width, the
light data or anything else (41_section.md R167, R174). -/
def Obligations.SetInDirectModeStoresTheValue : Prop :=
  ∀ (x y z : Coord) (v : RawValue) (s : State), s.sec.Ok s.params → 8 < s.sec.bpe.toNat →
    ∃ t, exec (.set x y z v) s = .next t ∧
      t.sec.bpe = s.sec.bpe ∧ t.sec.pal = s.sec.pal ∧ t.sec.light = s.sec.light ∧
      t.sec.words.length = s.sec.words.length ∧ t.sec.holds (linearIndex x y z) v.toNat ∧
      (∀ k p, ¬ bitInCell s.sec.bpe.toNat (linearIndex x y z) k p → t.sec.bit k p = s.sec.bit k p) ∧
      Completed s t ∧ { t with sec := s.sec, pend := s.pend, done := s.done } = s

/-- SET of a new value that the width still has room for: the value is appended and its index stored; the width stays and no
other bit of the array changes (41_section.md R168, R169, R173). -/
def Obligations.SetAppendsWithinTheWidth : Prop :=
  ∀ (x y z : Coord) (v : RawValue) (s : State), s.sec.Ok s.params → s.sec.bpe.toNat ≤ 8 → v ≠ 0 → v ∉ s.sec.pal →
    s.sec.pal.length + 1 ≤ 2 ^ s.sec.bpe.toNat →
    ∃ t, exec (.set x y z v) s = .next t ∧
      t.sec.bpe = s.sec.bpe ∧ t.sec.pal = s.sec.pal ++ [v] ∧ t.sec.light = s.sec.light ∧
      t.sec.words.length = s.sec.words.length ∧ t.sec.holds (linearIndex x y z) s.sec.pal.length ∧
      (∀ k p, ¬ bitInCell s.sec.bpe.toNat (linearIndex x y z) k p → t.sec.bit k p = s.sec.bit k p) ∧
      Completed s t ∧ { t with sec := s.sec, pend := s.pend, done := s.done } = s

/-- SET of a new value that the width has no room for, below 8 bits: the width grows by one, every other cell keeps its
value in the new array, whose unused bits are 0, and the new index is stored masked (41_section.md R169, R170, R173). -/
def Obligations.SetGrowsByOneBit : Prop :=
  ∀ (x y z : Coord) (v : RawValue) (s : State), s.sec.Ok s.params → s.sec.bpe.toNat < 8 → v ≠ 0 → v ∉ s.sec.pal →
    2 ^ s.sec.bpe.toNat < s.sec.pal.length + 1 →
    ∃ t, exec (.set x y z v) s = .next t ∧
      t.sec.bpe.toNat = s.sec.bpe.toNat + 1 ∧ t.sec.pal = s.sec.pal ++ [v] ∧ t.sec.light = s.sec.light ∧
      t.sec.words.length = wordCount (s.sec.bpe.toNat + 1) ∧
      t.sec.holds (linearIndex x y z) (s.sec.pal.length % 2 ^ (s.sec.bpe.toNat + 1)) ∧
      (∀ j < 4096, j ≠ linearIndex x y z → ∀ c, s.sec.holds j c → t.sec.holds j c) ∧ t.sec.cleanUnused ∧
      Completed s t ∧ { t with sec := s.sec, pend := s.pend, done := s.done } = s

/-- SET of a new value that 8 bits have no room for: direct mode, an empty palette, every other cell holding its entry of the
old palette with the value appended, which is always defined, and the cell the value (41_section.md R171, R172, R179). -/
def Obligations.SetSwitchesToDirectMode : Prop :=
  ∀ (x y z : Coord) (v : RawValue) (s : State), s.sec.Ok s.params → s.sec.bpe.toNat = 8 → v ≠ 0 → v ∉ s.sec.pal →
    256 < s.sec.pal.length + 1 →
    ∃ t, exec (.set x y z v) s = .next t ∧
      t.sec.bpe.toNat = 14 ∧ t.sec.pal = [] ∧ t.sec.light = s.sec.light ∧ t.sec.words.length = 1024 ∧
      t.sec.holds (linearIndex x y z) v.toNat ∧
      (∀ j < 4096, ∀ c, s.sec.holds j c →
        ∃ e, (s.sec.pal ++ [v])[c]? = some e ∧ (j ≠ linearIndex x y z → t.sec.holds j e.toNat)) ∧ t.sec.cleanUnused ∧
      Completed s t ∧ { t with sec := s.sec, pend := s.pend, done := s.done } = s

/-- One way, one step: a SET keeps BPE, or raises it by one below 8, or takes it from 8 to 14, and it leaves direct mode
never (41_section.md R176, R177). -/
def Obligations.SetNeverLowersTheWidth : Prop :=
  ∀ (x y z : Coord) (v : RawValue) (s t : State), exec (.set x y z v) s = .next t →
    (t.sec.bpe = s.sec.bpe ∨ (s.sec.bpe.toNat < 8 ∧ t.sec.bpe.toNat = s.sec.bpe.toNat + 1) ∨
      (s.sec.bpe.toNat = 8 ∧ t.sec.bpe.toNat = 14)) ∧
    (8 < s.sec.bpe.toNat → t.sec.bpe = s.sec.bpe ∧ t.sec.pal = s.sec.pal)

/-- The unused bits stay 0 under INIT and SET (10_state.md R38). -/
def Obligations.UnusedBitsStayZero : Prop :=
  ∀ (s t : State) (x y z : Coord) (v : RawValue), s.params.Legal → s.sec.Ok s.params →
    (exec .init s = .next t → t.sec.cleanUnused) ∧
    (s.sec.cleanUnused → exec (.set x y z v) s = .next t → t.sec.cleanUnused)

/-- GET after SET returns the value set: always in direct mode; in palette mode when the value's index fits the width, or,
for 0, when the palette is empty or starts with 0; and always in a state reached from reset by INIT and SET with the sentinel
palette (41_section.md R180). -/
def Obligations.GetAfterSetReturnsTheValue : Prop :=
  (∀ (x y z : Coord) (v : RawValue) (s t : State), s.sec.Ok s.params → exec (.set x y z v) s = .next t →
    (8 < t.sec.bpe.toNat ∨
     (t.sec.bpe.toNat ≤ 8 ∧ v ≠ 0 ∧ ∃ k, firstIndex t.sec.pal v k ∧ k < 2 ^ t.sec.bpe.toNat) ∨
     (t.sec.bpe.toNat ≤ 8 ∧ v = 0 ∧ (t.sec.pal = [] ∨ t.sec.pal[0]? = some 0))) →
    ∃ u, exec (.get x y z) t = .next u ∧ u.result = v) ∧
  ∀ (p : Params) (x y z : Coord) (v : RawValue) (s t : State), p.Legal → p.resetPalette = .sentinel → SetReachable p s →
    exec (.set x y z v) s = .next t → ∃ u, exec (.get x y z) t = .next u ∧ u.result = v

/-- When every cell's index is inside the palette, a palette-mode SET, whether it grows the width, switches to direct mode or
neither, changes no other cell's raw value; every cell's index is so in every palette-mode state reached from reset by INIT
and SET with the sentinel palette. Without that premise a SET can change another cell's raw value: a cell that holds PAL_LEN
itself, and reads 0, reads the value that is appended (41_section.md R181). -/
def Obligations.SetPreservesEveryOtherCell : Prop :=
  (∀ (x y z x' y' z' : Coord) (v : RawValue) (s t : State), s.sec.Ok s.params → s.sec.bpe.toNat ≤ 8 →
    (∀ j < 4096, s.sec.cell j < s.sec.pal.length) → (x', y', z') ≠ (x, y, z) → exec (.set x y z v) s = .next t →
    ∃ u w, exec (.get x' y' z') s = .next u ∧ exec (.get x' y' z') t = .next w ∧ u.result = w.result) ∧
  (∀ (p : Params) (s : State), p.Legal → p.resetPalette = .sentinel → SetReachable p s → s.sec.bpe.toNat ≤ 8 →
    ∀ j < 4096, s.sec.cell j < s.sec.pal.length) ∧
  ∀ (x y z x' y' z' : Coord) (v : RawValue) (s t : State), s.sec.Ok s.params → s.sec.bpe.toNat ≤ 8 →
    s.sec.cell (linearIndex x' y' z') = s.sec.pal.length → (x', y', z') ≠ (x, y, z) → v ≠ 0 → v ∉ s.sec.pal →
    exec (.set x y z v) s = .next t →
    ∃ u w, exec (.get x' y' z') s = .next u ∧ u.result = 0 ∧ exec (.get x' y' z') t = .next w ∧ w.result = v

/-- The growth schedule: from an empty section, after SETs of `k` distinct nonzero values the palette has `k + 1` entries
(`k` with the empty palette) and the width is the least that holds them, not below RESET_BPE, or 14 when 8 bits do not
(41_section.md R182). -/
def Obligations.GrowthFollowsTheSchedule : Prop :=
  ∀ (s : State) (cmds : List Instr) (k : Nat), s.params.Legal → s.sec = emptySection s.params →
    (∀ i ∈ cmds, ∃ x y z v, i = .set x y z v ∧ v ≠ 0) → (cmds.filterMap setValueOf).toFinset.card = k →
    let n := if s.params.resetPalette = .sentinel then k + 1 else k
    ∃ t, runCommands cmds s = .next t ∧
      (n ≤ 256 → t.palLen = n ∧ n ≤ 2 ^ t.sec.bpe.toNat ∧ s.params.resetBpe ≤ t.sec.bpe.toNat ∧ t.sec.bpe.toNat ≤ 8 ∧
        ∀ b, s.params.resetBpe ≤ b → n ≤ 2 ^ b → t.sec.bpe.toNat ≤ b) ∧
      (256 < n → t.sec.bpe.toNat = 14 ∧ t.palLen = 0)

/-! ## Streams (42_stream_codec.md) -/

/-- Reading a varint: up to four continuation bytes and one byte without bit 7 give the low 32 bits of the groups' number; a
fifth continuation byte fails DEC_VARINT_LONG whatever follows; an input that ends before fails DEC_SHORT
(42_stream_codec.md R211, R212, R213). -/
def Obligations.ReadVarintFollowsItsRule : Prop :=
  ∀ pre : List Byte, (∀ b ∈ pre, 128 ≤ b.toNat) →
    (pre.length = 5 → ∀ rest, readVarint (pre ++ rest) = .error .decVarintLong) ∧
    (pre.length < 5 → readVarint pre = .error .decShort) ∧
    (pre.length < 5 → ∀ (b : Byte) (rest : List Byte), b.toNat < 128 →
      readVarint (pre ++ b :: rest) = .ok (groupValue (pre ++ [b]) % 2 ^ 32, rest))

/-- Writing a varint: the loop of 42_stream_codec.md R214 and its lengths, and no shorter bytes read as the value. -/
def Obligations.VarintIsTheShortestForm : Prop :=
  ∀ v < 2 ^ 32,
    (v < 128 → varint v = [BitVec.ofNat 8 v]) ∧
    (128 ≤ v → varint v = BitVec.ofNat 8 (v % 128 + 128) :: varint (v / 128)) ∧
    (v < 128 → (varint v).length = 1) ∧ (128 ≤ v → v < 16384 → (varint v).length = 2) ∧
    ∀ bs, readVarint bs = .ok (v, []) → (varint v).length ≤ bs.length

/-- DECODE accepts exactly the streams of 42_stream_codec.md R210: a legal width, a palette of at most 256 tagged bytes, the
marker 1, the width's word count, the words most significant byte first, and bounded light data, within IN_MAX bytes. -/
def Obligations.DecodeAcceptsExactlyTheFormat : Prop :=
  ∀ (p : Params) (input : List Byte) (c : Section),
    decodeStream p input = .ok c ↔
      ∃ (vlen vmark vcount : List Byte) (es : List (List Byte × Byte)),
        input = [c.bpe.setWidth 8] ++ vlen ++ entryBytes es ++ vmark ++ vcount ++ c.words.flatMap bytesOfWord ++ c.light ∧
        input.length ≤ p.inMax ∧ legalBpe c.bpe.toNat = true ∧
        VarintBytes vlen es.length ∧ es.length ≤ 256 ∧ (∀ e ∈ es, ∃ tag, VarintBytes e.1 tag) ∧
        c.pal = es.map (fun e => e.2.setWidth 14) ∧
        VarintBytes vmark 1 ∧ VarintBytes vcount (wordCount c.bpe.toNat) ∧
        c.words.length = wordCount c.bpe.toNat ∧ c.light.length ≤ p.lightMax

/-- The error of each malformed stream, the fields before the bad one being well formed: an input above IN_MAX; no width byte,
or a bad one; a long palette; a wrong marker; a wrong word count; a varint of any field that does not end within five bytes,
or that the input's end cuts; no byte after a tag; too few word bytes; too much light data. And what a stream with enough word
bytes and bounded light data gives: its words, most significant byte first, and its light data, as they stand
(42_stream_codec.md R216, R217, R219 to R223; R211 for the varints). -/
def Obligations.MalformedStreamsGiveTheirErrors : Prop :=
  ∀ p : Params,
    (∀ input : List Byte, p.inMax < input.length → decodeStream p input = .error .decInRange) ∧
    decodeStream p [] = .error .decShort ∧
    (∀ (b : Byte) (tail : List Byte), (b :: tail).length ≤ p.inMax → legalBpe b.toNat = false →
      decodeStream p (b :: tail) = .error .decBadBpe) ∧
    (∀ pre cs : List Byte, BeforeVarint pre → (∀ c ∈ cs, 128 ≤ c.toNat) →
      (cs.length = 5 → ∀ tail, (pre ++ cs ++ tail).length ≤ p.inMax →
        decodeStream p (pre ++ cs ++ tail) = .error .decVarintLong) ∧
      (cs.length < 5 → (pre ++ cs).length ≤ p.inMax → decodeStream p (pre ++ cs) = .error .decShort)) ∧
    ∀ (b : Byte) (vlen : List Byte) (es : List (List Byte × Byte)) (n : Nat),
      legalBpe b.toNat = true → VarintBytes vlen n → TagsOk es →
      (256 < n → ∀ tail, (b :: vlen ++ tail).length ≤ p.inMax → decodeStream p (b :: vlen ++ tail) = .error .decPalLong) ∧
      (n ≤ 256 → es.length < n → ∀ vtag tag, VarintBytes vtag tag → (b :: vlen ++ entryBytes es ++ vtag).length ≤ p.inMax →
        decodeStream p (b :: vlen ++ entryBytes es ++ vtag) = .error .decShort) ∧
      (n ≤ 256 → es.length = n → ∀ (vmark tail : List Byte) (m : Nat), VarintBytes vmark m →
        (b :: vlen ++ entryBytes es ++ vmark ++ tail).length ≤ p.inMax → m ≠ 1 →
        decodeStream p (b :: vlen ++ entryBytes es ++ vmark ++ tail) = .error .decBadMarker) ∧
      (n ≤ 256 → es.length = n → ∀ (vmark vcount tail : List Byte) (w : Nat), VarintBytes vmark 1 → VarintBytes vcount w →
        (b :: vlen ++ entryBytes es ++ vmark ++ vcount ++ tail).length ≤ p.inMax →
        let result := decodeStream p (b :: vlen ++ entryBytes es ++ vmark ++ vcount ++ tail)
        (w ≠ wordCount b.toNat → result = .error .decBadWordcount) ∧
        (w = wordCount b.toNat → tail.length < 8 * w → result = .error .decShort) ∧
        (w = wordCount b.toNat → 8 * w + p.lightMax < tail.length → result = .error .decLightLong) ∧
        (w = wordCount b.toNat → 8 * w ≤ tail.length → tail.length ≤ 8 * w + p.lightMax →
          ∃ c, result = .ok c ∧ c.words.length = w ∧ c.light = tail.drop (8 * w) ∧
            ∀ k < w, ∀ j < 8,
              (c.words.getD k 0).toNat / 256 ^ (7 - j) % 256 = (tail.getD (8 * k + j) 0).toNat))

/-- A truncated stream, cut anywhere before the end of its last word, is never accepted (42_stream_codec.md R221, R225). -/
def Obligations.TruncatedStreamsAreRefused : Prop :=
  ∀ (p : Params) (input : List Byte) (c : Section) (n : Nat), decodeStream p input = .ok c →
    n + c.light.length < input.length → decodeStream p (input.take n) = .error .decShort

/-- DECODE commits the decoded section wholesale, or raises the stream's error and leaves the section; it always completes,
and it changes nothing else (42_stream_codec.md R224, R225). The free bytes it may consume count as used: `draws` is the
model's own (log entry 5). -/
def Obligations.DecodeCommitsOrFails : Prop :=
  ∀ s : State,
    (∀ c, decodeStream s.params (inputBytes s) = .ok c →
      ∃ t, exec .decode s = .next t ∧ t.sec = c ∧ Completed s t ∧
        { t with sec := s.sec, pend := s.pend, done := s.done, draws := s.draws } = s) ∧
    ∀ e, decodeStream s.params (inputBytes s) = .error e →
      ∃ t, exec .decode s = .next t ∧ t.err = true ∧ t.errcode = errBits e ∧ t.sec = s.sec ∧ Completed s t ∧
        { t with pend := s.pend, done := s.done, err := s.err, errcode := s.errcode, draws := s.draws } = s

/-- DECODE consumes IN_LEN bytes, each the byte the host wrote where it wrote one (10_state.md R27). -/
def Obligations.DecodeReadsTheWrittenInput : Prop :=
  ∀ s : State, Memory.wf s.inBuf →
    (inputBytes s).length = s.inLen.toNat ∧
    ∀ k b, k < s.inLen.toNat → Memory.read s.inBuf k = some b → (inputBytes s)[k]? = some b

/-- The stream of a section is the fields of 42_stream_codec.md R226, byte by byte. ENCODE of a section it can write, with
TRUNCATE also one that has entries above 255, of which it writes the low byte (R227): OUT_LEN is the stream's length, OUT's
first bytes are the stream, and every other byte of OUT and everything else stays. -/
def Obligations.EncodeWritesTheStream : Prop :=
  (∀ (p : Params) (c : Section), encodeSection p c = c.fields p) ∧
  ∀ s : State, s.Inv → (s.params.encWidePalette = .truncate ∨ ∀ e ∈ s.sec.pal, e.toNat ≤ 255) →
    (s.sec.fields s.params).length ≤ s.params.outMax →
    ∃ t, exec .encode s = .next t ∧ t.outLen.toNat = (s.sec.fields s.params).length ∧
      (∀ a < (s.sec.fields s.params).length, Memory.read t.outBuf a = (s.sec.fields s.params)[a]?) ∧
      (∀ a, (s.sec.fields s.params).length ≤ a → Memory.read t.outBuf a = Memory.read s.outBuf a) ∧
      (∀ a, Memory.read t.inBuf a = Memory.read s.inBuf a) ∧ t.busy = false ∧ t.done = true ∧
      { t with outBuf := s.outBuf, outLen := s.outLen, pend := s.pend, done := s.done } = s

/-- ENCODE refuses a palette entry above 255 with REFUSE, and a stream above OUT_MAX, in this order: OUT_LEN is 0, no byte of
OUT is written and the section stays (42_stream_codec.md R227, R229; 60_exceptions.md R269). -/
def Obligations.EncodeFailsWithoutOutput : Prop :=
  ∀ (s : State) (code : BitVec 4),
    ((s.params.encWidePalette = .refuse ∧ (∃ e ∈ s.sec.pal, 255 < e.toNat) ∧ code = 9) ∨
     ((s.params.encWidePalette = .truncate ∨ ∀ e ∈ s.sec.pal, e.toNat ≤ 255) ∧
       s.params.outMax < (encodeSection s.params s.sec).length ∧ code = 10)) →
    ∃ t, exec .encode s = .next t ∧ t.outLen = 0 ∧ t.err = true ∧ t.errcode = code ∧ Completed s t ∧
      { t with outLen := s.outLen, pend := s.pend, done := s.done, err := s.err, errcode := s.errcode } = s

/-- The length of a stream and its largest values, which are attained; with `OUT_MAX >= 8710 + LIGHT_MAX` no section overflows OUT
(42_stream_codec.md R230). -/
def Obligations.EncodedLength : Prop :=
  ∀ (p : Params) (c : Section), c.Ok p →
    (encodeSection p c).length
      = 1 + (varint c.pal.length).length + 2 * c.pal.length + 1 + (varint (wordCount c.bpe.toNat)).length
        + 8 * wordCount c.bpe.toNat + c.light.length ∧
    (encodeSection p c).length ≤ 8710 + c.light.length ∧
    (c.bpe.toNat = 14 → c.pal.length = 256 → (encodeSection p c).length = 8710 + c.light.length) ∧
    (c.bpe.toNat ≤ 8 → (encodeSection p c).length ≤ 4628 + c.light.length) ∧
    (c.bpe.toNat = 8 → c.pal.length = 263 → (encodeSection p c).length = 4628 + c.light.length) ∧
    (8710 + p.lightMax ≤ p.outMax → (encodeSection p c).length ≤ p.outMax)

/-- The round trip: ENCODE a section whose palette has at most 256 entries, none above 255; give its output to DECODE as
input; the section comes back bit for bit (42_stream_codec.md R231). -/
def Obligations.DecodeOfEncodeIsTheSection : Prop :=
  ∀ s t u : State, s.Inv → s.sec.pal.length ≤ 256 → (∀ e ∈ s.sec.pal, e.toNat ≤ 255) →
    (encodeSection s.params s.sec).length ≤ s.params.inMax → s.err = false → exec .encode s = .next t → t.err = false →
    u.Inv → u.params = s.params → u.inLen = t.outLen →
    (∀ k < t.outLen.toNat, Memory.read u.inBuf k = Memory.read t.outBuf k) →
    ∃ w, exec .decode u = .next w ∧ w.sec = s.sec

/-- Re-encoding: a stream DECODE accepts is never longer after ENCODE, and is the same bytes when its varints are in shortest
form and its tags are those ENCODE writes (42_stream_codec.md R232). -/
def Obligations.ReencodeIsByteExact : Prop :=
  ∀ (p : Params) (input : List Byte) (c : Section), decodeStream p input = .ok c →
    (encodeSection p c).length ≤ input.length ∧
    ∀ (vs tail : List Byte) (m w : Nat), m < 2 ^ 32 → w < 2 ^ 32 → vs.length < 2 ^ 32 →
      input = [c.bpe.setWidth 8] ++ varint vs.length ++ vs.flatMap (fun v => varint p.encTag.toNat ++ [v])
        ++ varint m ++ varint w ++ tail →
      encodeSection p c = input

/-- The boot sequence: an idle host that writes a stream to IN, its length to IN_LEN and DECODE to CMD, and reads STATUS,
leaves the block holding the decoded section, with no error (70_reset_and_hazards.md R294). That the engine's step stands
between the CMD write and one read of STATUS is the model's choice (DESIGN CHOICE, log entries 1 and 8). -/
def Obligations.BootSequenceLoadsTheStream : Prop :=
  ∀ (s : State) (bs : List Byte) (c : Section), s.Inv → s.busy = false → s.fault = false →
    decodeStream s.params bs = .ok c → s.agenda = bootMoves s.params bs →
    ∃ t : State, Sys2Proof.core.run (bs.length + 4) s = .next t ∧ t.sec = c ∧ t.ended ∧ t.err = false ∧ t.rdata = statusWord t
end

