-- ==== Sys2Proof/Laws/State.lean ====
section
/-! SUPPORT. What each update of the state does to each field, and to the derived state. -/

namespace Sys2Proof.Machine

@[simp] theorem complete_params (s : State) : (complete s).params = s.params := rfl
@[simp] theorem complete_sec (s : State) : (complete s).sec = s.sec := rfl
@[simp] theorem complete_inBuf (s : State) : (complete s).inBuf = s.inBuf := rfl
@[simp] theorem complete_inLen (s : State) : (complete s).inLen = s.inLen := rfl
@[simp] theorem complete_outBuf (s : State) : (complete s).outBuf = s.outBuf := rfl
@[simp] theorem complete_outLen (s : State) : (complete s).outLen = s.outLen := rfl
@[simp] theorem complete_result (s : State) : (complete s).result = s.result := rfl
@[simp] theorem complete_done (s : State) : (complete s).done = true := rfl
@[simp] theorem complete_err (s : State) : (complete s).err = s.err := rfl
@[simp] theorem complete_fault (s : State) : (complete s).fault = s.fault := rfl
@[simp] theorem complete_errcode (s : State) : (complete s).errcode = s.errcode := rfl
@[simp] theorem complete_faultcode (s : State) : (complete s).faultcode = s.faultcode := rfl
@[simp] theorem complete_pend (s : State) : (complete s).pend = none := rfl
@[simp] theorem complete_agenda (s : State) : (complete s).agenda = s.agenda := rfl
@[simp] theorem complete_rdata (s : State) : (complete s).rdata = s.rdata := rfl
@[simp] theorem complete_draws (s : State) : (complete s).draws = s.draws := rfl
@[simp] theorem complete_busy (s : State) : (complete s).busy = false := rfl

@[simp] theorem raiseErr_params (e : ErrCode) (s : State) : (raiseErr e s).params = s.params := rfl
@[simp] theorem raiseErr_sec (e : ErrCode) (s : State) : (raiseErr e s).sec = s.sec := rfl
@[simp] theorem raiseErr_inBuf (e : ErrCode) (s : State) : (raiseErr e s).inBuf = s.inBuf := rfl
@[simp] theorem raiseErr_inLen (e : ErrCode) (s : State) : (raiseErr e s).inLen = s.inLen := rfl
@[simp] theorem raiseErr_outBuf (e : ErrCode) (s : State) : (raiseErr e s).outBuf = s.outBuf := rfl
@[simp] theorem raiseErr_outLen (e : ErrCode) (s : State) : (raiseErr e s).outLen = s.outLen := rfl
@[simp] theorem raiseErr_result (e : ErrCode) (s : State) : (raiseErr e s).result = s.result := rfl
@[simp] theorem raiseErr_done (e : ErrCode) (s : State) : (raiseErr e s).done = true := rfl
@[simp] theorem raiseErr_err (e : ErrCode) (s : State) : (raiseErr e s).err = true := rfl
@[simp] theorem raiseErr_fault (e : ErrCode) (s : State) : (raiseErr e s).fault = s.fault := rfl
@[simp] theorem raiseErr_errcode (e : ErrCode) (s : State) : (raiseErr e s).errcode = errBits e := rfl
@[simp] theorem raiseErr_faultcode (e : ErrCode) (s : State) : (raiseErr e s).faultcode = s.faultcode := rfl
@[simp] theorem raiseErr_pend (e : ErrCode) (s : State) : (raiseErr e s).pend = none := rfl
@[simp] theorem raiseErr_agenda (e : ErrCode) (s : State) : (raiseErr e s).agenda = s.agenda := rfl
@[simp] theorem raiseErr_rdata (e : ErrCode) (s : State) : (raiseErr e s).rdata = s.rdata := rfl
@[simp] theorem raiseErr_draws (e : ErrCode) (s : State) : (raiseErr e s).draws = s.draws := rfl
@[simp] theorem raiseErr_busy (e : ErrCode) (s : State) : (raiseErr e s).busy = false := rfl

@[simp] theorem clearErr_params (s : State) : (clearErr s).params = s.params := rfl
@[simp] theorem clearErr_sec (s : State) : (clearErr s).sec = s.sec := rfl
@[simp] theorem clearErr_inBuf (s : State) : (clearErr s).inBuf = s.inBuf := rfl
@[simp] theorem clearErr_inLen (s : State) : (clearErr s).inLen = s.inLen := rfl
@[simp] theorem clearErr_outBuf (s : State) : (clearErr s).outBuf = s.outBuf := rfl
@[simp] theorem clearErr_outLen (s : State) : (clearErr s).outLen = s.outLen := rfl
@[simp] theorem clearErr_result (s : State) : (clearErr s).result = s.result := rfl
@[simp] theorem clearErr_done (s : State) : (clearErr s).done = s.done := rfl
@[simp] theorem clearErr_err (s : State) : (clearErr s).err = false := rfl
@[simp] theorem clearErr_fault (s : State) : (clearErr s).fault = s.fault := rfl
@[simp] theorem clearErr_errcode (s : State) : (clearErr s).errcode = 0 := rfl
@[simp] theorem clearErr_faultcode (s : State) : (clearErr s).faultcode = s.faultcode := rfl
@[simp] theorem clearErr_pend (s : State) : (clearErr s).pend = s.pend := rfl
@[simp] theorem clearErr_agenda (s : State) : (clearErr s).agenda = s.agenda := rfl
@[simp] theorem clearErr_rdata (s : State) : (clearErr s).rdata = s.rdata := rfl
@[simp] theorem clearErr_draws (s : State) : (clearErr s).draws = s.draws := rfl
@[simp] theorem clearErr_busy (s : State) : (clearErr s).busy = s.busy := rfl

@[simp] theorem nextDraw_params (s : State) : (nextDraw s).params = s.params := rfl
@[simp] theorem nextDraw_sec (s : State) : (nextDraw s).sec = s.sec := rfl
@[simp] theorem nextDraw_inBuf (s : State) : (nextDraw s).inBuf = s.inBuf := rfl
@[simp] theorem nextDraw_inLen (s : State) : (nextDraw s).inLen = s.inLen := rfl
@[simp] theorem nextDraw_outBuf (s : State) : (nextDraw s).outBuf = s.outBuf := rfl
@[simp] theorem nextDraw_outLen (s : State) : (nextDraw s).outLen = s.outLen := rfl
@[simp] theorem nextDraw_result (s : State) : (nextDraw s).result = s.result := rfl
@[simp] theorem nextDraw_done (s : State) : (nextDraw s).done = s.done := rfl
@[simp] theorem nextDraw_err (s : State) : (nextDraw s).err = s.err := rfl
@[simp] theorem nextDraw_fault (s : State) : (nextDraw s).fault = s.fault := rfl
@[simp] theorem nextDraw_errcode (s : State) : (nextDraw s).errcode = s.errcode := rfl
@[simp] theorem nextDraw_faultcode (s : State) : (nextDraw s).faultcode = s.faultcode := rfl
@[simp] theorem nextDraw_pend (s : State) : (nextDraw s).pend = s.pend := rfl
@[simp] theorem nextDraw_agenda (s : State) : (nextDraw s).agenda = s.agenda := rfl
@[simp] theorem nextDraw_rdata (s : State) : (nextDraw s).rdata = s.rdata := rfl
@[simp] theorem nextDraw_draws (s : State) : (nextDraw s).draws = s.draws + 1 := rfl
@[simp] theorem nextDraw_busy (s : State) : (nextDraw s).busy = s.busy := rfl

@[simp] theorem hardReset_params (s : State) : (hardReset s).params = s.params := rfl
@[simp] theorem hardReset_sec (s : State) : (hardReset s).sec = emptySection s.params := rfl
@[simp] theorem hardReset_inBuf (s : State) : (hardReset s).inBuf = [] := rfl
@[simp] theorem hardReset_inLen (s : State) : (hardReset s).inLen = 0 := rfl
@[simp] theorem hardReset_outBuf (s : State) : (hardReset s).outBuf = [] := rfl
@[simp] theorem hardReset_outLen (s : State) : (hardReset s).outLen = 0 := rfl
@[simp] theorem hardReset_result (s : State) : (hardReset s).result = 0 := rfl
@[simp] theorem hardReset_done (s : State) : (hardReset s).done = false := rfl
@[simp] theorem hardReset_err (s : State) : (hardReset s).err = false := rfl
@[simp] theorem hardReset_fault (s : State) : (hardReset s).fault = false := rfl
@[simp] theorem hardReset_errcode (s : State) : (hardReset s).errcode = 0 := rfl
@[simp] theorem hardReset_faultcode (s : State) : (hardReset s).faultcode = 0 := rfl
@[simp] theorem hardReset_pend (s : State) : (hardReset s).pend = none := rfl
@[simp] theorem hardReset_agenda (s : State) : (hardReset s).agenda = s.agenda := rfl
@[simp] theorem hardReset_rdata (s : State) : (hardReset s).rdata = s.rdata := rfl
@[simp] theorem hardReset_draws (s : State) : (hardReset s).draws = s.draws := rfl
@[simp] theorem hardReset_busy (s : State) : (hardReset s).busy = false := rfl

@[simp] theorem withPending_params (s : State) (c : CmdWord) : (withPending s c).params = s.params := rfl
@[simp] theorem withPending_sec (s : State) (c : CmdWord) : (withPending s c).sec = s.sec := rfl
@[simp] theorem withPending_inBuf (s : State) (c : CmdWord) : (withPending s c).inBuf = s.inBuf := rfl
@[simp] theorem withPending_inLen (s : State) (c : CmdWord) : (withPending s c).inLen = s.inLen := rfl
@[simp] theorem withPending_outBuf (s : State) (c : CmdWord) : (withPending s c).outBuf = s.outBuf := rfl
@[simp] theorem withPending_outLen (s : State) (c : CmdWord) : (withPending s c).outLen = s.outLen := rfl
@[simp] theorem withPending_result (s : State) (c : CmdWord) : (withPending s c).result = s.result := rfl
@[simp] theorem withPending_done (s : State) (c : CmdWord) : (withPending s c).done = s.done := rfl
@[simp] theorem withPending_err (s : State) (c : CmdWord) : (withPending s c).err = s.err := rfl
@[simp] theorem withPending_fault (s : State) (c : CmdWord) : (withPending s c).fault = s.fault := rfl
@[simp] theorem withPending_errcode (s : State) (c : CmdWord) : (withPending s c).errcode = s.errcode := rfl
@[simp] theorem withPending_faultcode (s : State) (c : CmdWord) : (withPending s c).faultcode = s.faultcode := rfl
@[simp] theorem withPending_pend (s : State) (c : CmdWord) : (withPending s c).pend = some c := rfl
@[simp] theorem withPending_agenda (s : State) (c : CmdWord) : (withPending s c).agenda = .engine :: s.agenda := rfl
@[simp] theorem withPending_rdata (s : State) (c : CmdWord) : (withPending s c).rdata = s.rdata := rfl
@[simp] theorem withPending_draws (s : State) (c : CmdWord) : (withPending s c).draws = s.draws := rfl
@[simp] theorem withPending_busy (s : State) (c : CmdWord) : (withPending s c).busy = true := rfl

@[simp] theorem hostRead_params (addr : BitVec 64) (be : BitVec 4) (s : State) : (hostRead addr be s).params = s.params := rfl
@[simp] theorem hostRead_sec (addr : BitVec 64) (be : BitVec 4) (s : State) : (hostRead addr be s).sec = s.sec := rfl
@[simp] theorem hostRead_inBuf (addr : BitVec 64) (be : BitVec 4) (s : State) : (hostRead addr be s).inBuf = s.inBuf := rfl
@[simp] theorem hostRead_inLen (addr : BitVec 64) (be : BitVec 4) (s : State) : (hostRead addr be s).inLen = s.inLen := rfl
@[simp] theorem hostRead_outBuf (addr : BitVec 64) (be : BitVec 4) (s : State) : (hostRead addr be s).outBuf = s.outBuf := rfl
@[simp] theorem hostRead_outLen (addr : BitVec 64) (be : BitVec 4) (s : State) : (hostRead addr be s).outLen = s.outLen := rfl
@[simp] theorem hostRead_result (addr : BitVec 64) (be : BitVec 4) (s : State) : (hostRead addr be s).result = s.result := rfl
@[simp] theorem hostRead_done (addr : BitVec 64) (be : BitVec 4) (s : State) : (hostRead addr be s).done = s.done := rfl
@[simp] theorem hostRead_err (addr : BitVec 64) (be : BitVec 4) (s : State) : (hostRead addr be s).err = s.err := rfl
@[simp] theorem hostRead_fault (addr : BitVec 64) (be : BitVec 4) (s : State) : (hostRead addr be s).fault = s.fault := rfl
@[simp] theorem hostRead_errcode (addr : BitVec 64) (be : BitVec 4) (s : State) : (hostRead addr be s).errcode = s.errcode := rfl
@[simp] theorem hostRead_faultcode (addr : BitVec 64) (be : BitVec 4) (s : State) : (hostRead addr be s).faultcode = s.faultcode := rfl
@[simp] theorem hostRead_pend (addr : BitVec 64) (be : BitVec 4) (s : State) : (hostRead addr be s).pend = s.pend := rfl
@[simp] theorem hostRead_agenda (addr : BitVec 64) (be : BitVec 4) (s : State) : (hostRead addr be s).agenda = s.agenda := rfl
@[simp] theorem hostRead_rdata (addr : BitVec 64) (be : BitVec 4) (s : State) : (hostRead addr be s).rdata = readValue s addr := rfl
@[simp] theorem hostRead_draws (addr : BitVec 64) (be : BitVec 4) (s : State) : (hostRead addr be s).draws = s.draws + 1 := rfl
@[simp] theorem hostRead_busy (addr : BitVec 64) (be : BitVec 4) (s : State) : (hostRead addr be s).busy = s.busy := rfl

/-! ## raiseFault: one fault, then nothing (60_exceptions.md R266) -/

theorem raiseFault_of_fault {f : FaultCode} {s : State} (h : s.fault = true) : raiseFault f s = s := by
  simp [raiseFault, h]

theorem raiseFault_of_clear {f : FaultCode} {s : State} (h : s.fault = false) :
    raiseFault f s = { s with fault := true, faultcode := faultBits f } := by
  simp [raiseFault, h]

/-- All that raising a fault can do. -/
theorem raiseFault_cases (f : FaultCode) (s : State) :
    (s.fault = true ∧ raiseFault f s = s) ∨
    (s.fault = false ∧ raiseFault f s = { s with fault := true, faultcode := faultBits f }) := by
  cases h : s.fault with
  | true => exact .inl ⟨rfl, raiseFault_of_fault h⟩
  | false => exact .inr ⟨rfl, raiseFault_of_clear h⟩

@[simp] theorem raiseFault_fault (f : FaultCode) (s : State) : (raiseFault f s).fault = true := by
  unfold raiseFault; split <;> simp_all

@[simp] theorem raiseFault_params (f : FaultCode) (s : State) : (raiseFault f s).params = s.params := by
  unfold raiseFault; split <;> rfl

@[simp] theorem raiseFault_sec (f : FaultCode) (s : State) : (raiseFault f s).sec = s.sec := by
  unfold raiseFault; split <;> rfl

@[simp] theorem raiseFault_inBuf (f : FaultCode) (s : State) : (raiseFault f s).inBuf = s.inBuf := by
  unfold raiseFault; split <;> rfl

@[simp] theorem raiseFault_inLen (f : FaultCode) (s : State) : (raiseFault f s).inLen = s.inLen := by
  unfold raiseFault; split <;> rfl

@[simp] theorem raiseFault_outBuf (f : FaultCode) (s : State) : (raiseFault f s).outBuf = s.outBuf := by
  unfold raiseFault; split <;> rfl

@[simp] theorem raiseFault_outLen (f : FaultCode) (s : State) : (raiseFault f s).outLen = s.outLen := by
  unfold raiseFault; split <;> rfl

@[simp] theorem raiseFault_result (f : FaultCode) (s : State) : (raiseFault f s).result = s.result := by
  unfold raiseFault; split <;> rfl

@[simp] theorem raiseFault_done (f : FaultCode) (s : State) : (raiseFault f s).done = s.done := by
  unfold raiseFault; split <;> rfl

@[simp] theorem raiseFault_err (f : FaultCode) (s : State) : (raiseFault f s).err = s.err := by
  unfold raiseFault; split <;> rfl

@[simp] theorem raiseFault_errcode (f : FaultCode) (s : State) : (raiseFault f s).errcode = s.errcode := by
  unfold raiseFault; split <;> rfl

@[simp] theorem raiseFault_pend (f : FaultCode) (s : State) : (raiseFault f s).pend = s.pend := by
  unfold raiseFault; split <;> rfl

@[simp] theorem raiseFault_agenda (f : FaultCode) (s : State) : (raiseFault f s).agenda = s.agenda := by
  unfold raiseFault; split <;> rfl

@[simp] theorem raiseFault_rdata (f : FaultCode) (s : State) : (raiseFault f s).rdata = s.rdata := by
  unfold raiseFault; split <;> rfl

@[simp] theorem raiseFault_draws (f : FaultCode) (s : State) : (raiseFault f s).draws = s.draws := by
  unfold raiseFault; split <;> rfl

@[simp] theorem raiseFault_busy (f : FaultCode) (s : State) : (raiseFault f s).busy = s.busy := by
  simp [State.busy]

/-! ## Reset -/

@[simp] theorem resetWith_params (p : Params) : (State.resetWith p).params = p := rfl
@[simp] theorem resetWith_sec (p : Params) : (State.resetWith p).sec = emptySection p := rfl
@[simp] theorem resetWith_busy (p : Params) : (State.resetWith p).busy = false := rfl
@[simp] theorem resetWith_fault (p : Params) : (State.resetWith p).fault = false := rfl

/-! ## The section -/

@[simp] theorem emptySection_pal (p : Params) : (emptySection p).pal = emptyPalette p.resetPalette := rfl
@[simp] theorem emptySection_light (p : Params) : (emptySection p).light = [] := rfl
@[simp] theorem emptySection_bpe (p : Params) : (emptySection p).bpe = BitVec.ofNat 5 p.resetBpe := rfl
@[simp] theorem emptySection_words (p : Params) : (emptySection p).words = List.replicate (wordCount p.resetBpe) 0 := rfl
@[simp] theorem array_b (c : Section) : c.array.b = c.bpe.toNat := rfl
@[simp] theorem array_words (c : Section) : c.array.words = c.words := rfl
@[simp] theorem storeCell_bpe (c : Section) (i id : Nat) : (storeCell c i id).bpe = c.bpe := rfl
@[simp] theorem storeCell_pal (c : Section) (i id : Nat) : (storeCell c i id).pal = c.pal := rfl
@[simp] theorem storeCell_light (c : Section) (i id : Nat) : (storeCell c i id).light = c.light := rfl

theorem storeCell_array (c : Section) (i id : Nat) : (storeCell c i id).array = paSet c.array i id := rfl

/-! ## STATUS and its codes -/

/-- The bits of STATUS, field by field from the lowest (10_state.md R30). -/
theorem statusWord_getLsbD (s : State) (n : Nat) :
    (statusWord s).getLsbD n =
      if n < 1 then (BitVec.ofBool s.busy).getLsbD n
      else if n - 1 < 1 then (BitVec.ofBool s.done).getLsbD (n - 1)
      else if n - 1 - 1 < 1 then (BitVec.ofBool s.err).getLsbD (n - 1 - 1)
      else if n - 1 - 1 - 1 < 1 then (BitVec.ofBool s.fault).getLsbD (n - 1 - 1 - 1)
      else if n - 1 - 1 - 1 - 1 < 4 then s.errcode.getLsbD (n - 1 - 1 - 1 - 1)
      else if n - 1 - 1 - 1 - 1 - 4 < 4 then s.faultcode.getLsbD (n - 1 - 1 - 1 - 1 - 4)
      else if n - 1 - 1 - 1 - 1 - 4 - 4 < 1 then (BitVec.ofBool s.mode).getLsbD (n - 1 - 1 - 1 - 1 - 4 - 4)
      else (0#19).getLsbD (n - 1 - 1 - 1 - 1 - 4 - 4 - 1) := by
  unfold statusWord
  repeat rw [BitVec.getLsbD_append]

/-- BUSY is that a command is pending; the other fields of a state do not touch it. -/
theorem busy_eq (s : State) : s.busy = s.pend.isSome := rfl

/-- An error code is never 0, which is "no error", and is one of the ten of 60_exceptions.md R261. -/
theorem errBits_range (e : ErrCode) : errBits e ≠ 0 ∧ 1 ≤ (errBits e).toNat ∧ (errBits e).toNat ≤ 10 := by
  cases e <;> decide

end Sys2Proof.Machine
end

