-- ==== Sys2Proof/Laws/Codec.lean ====
section
/-! SUPPORT. The stream codec: varints, words, palette entries, and what a successful or failing DECODE and ENCODE is. -/

namespace Sys2Proof.Machine

/-! ## Sequencing of checks -/

theorem require_eq_ok {c : Bool} {e : ErrCode} {u : Unit} : require c e = .ok u ↔ c = true := by
  cases c <;> simp [require]

/-- A sequence that ends well: its first part did, and the rest did on its result. -/
theorem bind_eq_ok {α β : Type} {m : Except ErrCode α} {f : α → Except ErrCode β} {b : β} :
    (m >>= f) = .ok b ↔ ∃ a, m = .ok a ∧ f a = .ok b := by
  cases m with
  | error e => simp [bind, Except.bind]
  | ok a => simp [bind, Except.bind]

/-! ## Varints -/

theorem byte_low (b : Byte) : (b &&& 0x7F).toNat = b.toNat % 128 := by
  rw [BitVec.toNat_and]
  exact Nat.and_two_pow_sub_one_eq_mod b.toNat 7

theorem byte_high (b : Byte) : b &&& 0x80 = 0 ↔ b.toNat < 128 := by
  revert b
  decide

/-- The loop's value: the groups already read and, above them, those of the bytes read. -/
theorem readVarintLoop_stop (left n val : Nat) (hval : val < 2 ^ (7 * n)) (b : Byte) (hb : b.toNat < 128) (rest : List Byte) :
    readVarintLoop (left + 1) n val (b :: rest) = .ok ((val + b.toNat % 128 * 2 ^ (7 * n)) % 2 ^ 32, rest) := by
  rw [readVarintLoop, if_pos ((byte_high b).mpr hb), byte_low, Nat.lor_comm, ← Nat.shiftLeft_add_eq_or_of_lt hval,
    Nat.shiftLeft_eq, Nat.add_comm]

theorem readVarintLoop_continue (left n val : Nat) (hval : val < 2 ^ (7 * n)) (b : Byte) (hb : 128 ≤ b.toNat)
    (rest : List Byte) :
    readVarintLoop (left + 1) n val (b :: rest) = readVarintLoop left (n + 1) (val + b.toNat % 128 * 2 ^ (7 * n)) rest := by
  have h : ¬ b &&& 0x80 = 0 := by
    rw [byte_high]
    omega
  rw [readVarintLoop, if_neg h, byte_low, Nat.lor_comm, ← Nat.shiftLeft_add_eq_or_of_lt hval, Nat.shiftLeft_eq,
    Nat.add_comm (b.toNat % 128 * 2 ^ (7 * n))]

theorem groups_lt {n val g : Nat} (hval : val < 2 ^ (7 * n)) : val + g % 128 * 2 ^ (7 * n) < 2 ^ (7 * (n + 1)) := by
  have h1 : g % 128 < 128 := Nat.mod_lt g (by omega)
  have h2 : 2 ^ (7 * (n + 1)) = 128 * 2 ^ (7 * n) := by
    rw [Nat.mul_add, Nat.pow_add, Nat.mul_comm]
  have h3 : g % 128 * 2 ^ (7 * n) ≤ 127 * 2 ^ (7 * n) := Nat.mul_le_mul_right _ (by omega)
  rw [h2]
  omega

/-- A varint is a prefix of the input that reads the same whatever follows it, and is 1 to `left` bytes long. -/
theorem readVarintLoop_ok {left n val v : Nat} (hval : val < 2 ^ (7 * n)) {bs r : List Byte}
    (h : readVarintLoop left n val bs = .ok (v, r)) :
    ∃ pre, bs = pre ++ r ∧ 1 ≤ pre.length ∧ pre.length ≤ left ∧
      ∀ rest, readVarintLoop left n val (pre ++ rest) = .ok (v, rest) := by
  induction left generalizing n val bs with
  | zero => simp [readVarintLoop] at h
  | succ left ih =>
    cases bs with
    | nil => simp [readVarintLoop] at h
    | cons b bs =>
      by_cases hb : b.toNat < 128
      · rw [readVarintLoop_stop left n val hval b hb] at h
        simp only [Except.ok.injEq, Prod.mk.injEq] at h
        refine ⟨[b], by simp [h.2], by simp, by simp, fun rest => ?_⟩
        rw [List.singleton_append, readVarintLoop_stop left n val hval b hb, h.1]
      · rw [readVarintLoop_continue left n val hval b (by omega)] at h
        obtain ⟨pre, h1, h2, h3, h4⟩ := ih (groups_lt hval) h
        refine ⟨b :: pre, by simp [h1], by simp, by simp only [List.length_cons]; omega, fun rest => ?_⟩
        rw [List.cons_append, readVarintLoop_continue left n val hval b (by omega), h4]

/-- All that a successful ReadVarint can be. -/
theorem readVarint_ok {bs r : List Byte} {v : Nat} (h : readVarint bs = .ok (v, r)) :
    ∃ pre, bs = pre ++ r ∧ 1 ≤ pre.length ∧ pre.length ≤ 5 ∧ ∀ rest, readVarint (pre ++ rest) = .ok (v, rest) :=
  readVarintLoop_ok (by simp) h

theorem varintLoop_read (left n val v : Nat) (hval : val < 2 ^ (7 * n)) (hv : v < 2 ^ (7 * (left + 1)))
    (hn : val + v * 2 ^ (7 * n) < 2 ^ 32) (rest : List Byte) :
    readVarintLoop (left + 1) n val (varintLoop left v ++ rest) = .ok (val + v * 2 ^ (7 * n), rest) := by
  induction left generalizing n val v with
  | zero =>
    have hv' : v < 128 := by simpa using hv
    have hb : (BitVec.ofNat 8 v).toNat = v := by simp only [BitVec.toNat_ofNat]; omega
    rw [varintLoop, List.singleton_append, readVarintLoop_stop _ _ _ hval _ (by omega), hb, Nat.mod_eq_of_lt hv',
      Nat.mod_eq_of_lt hn]
  | succ left ih =>
    by_cases h128 : 0x80 ≤ v
    · have hbyte : (BitVec.ofNat 8 (v &&& 0x7F) ||| 0x80).toNat = v % 128 + 128 := by
        have h1 : v &&& 0x7F = v % 128 := Nat.and_two_pow_sub_one_eq_mod v 7
        have h2 : v % 128 < 2 ^ 7 := Nat.mod_lt v (by omega)
        rw [BitVec.toNat_or, BitVec.toNat_ofNat, h1, Nat.mod_eq_of_lt (by omega), Nat.lor_comm]
        have h3 := Nat.shiftLeft_add_eq_or_of_lt h2 1
        rw [Nat.shiftLeft_eq] at h3
        have h4 : (0x80 : Byte).toNat = 1 * 2 ^ 7 := rfl
        rw [h4, ← h3]
        omega
      have hdm := Nat.div_add_mod v 128
      have hshift : v >>> 7 = v / 128 := Nat.shiftRight_eq_div_pow v 7
      have hpow : (2 : Nat) ^ (7 * (n + 1)) = 128 * 2 ^ (7 * n) := by rw [Nat.mul_add, Nat.pow_add, Nat.mul_comm]
      have hsum : val + v % 128 * 2 ^ (7 * n) + v / 128 * 2 ^ (7 * (n + 1)) = val + v * 2 ^ (7 * n) := by
        rw [hpow, ← Nat.mul_assoc, Nat.add_assoc, ← Nat.add_mul]
        congr 2
        omega
      have hmod : (v % 128 + 128) % 128 = v % 128 := by omega
      rw [varintLoop, if_pos h128, List.cons_append, readVarintLoop_continue _ _ _ hval _ (by omega), hbyte, hmod, hshift,
        ih (n + 1) _ _ (groups_lt hval) ?_ (by rw [hsum]; exact hn), hsum]
      have : (2 : Nat) ^ (7 * (left + 1 + 1)) = 2 ^ (7 * (left + 1)) * 128 := by rw [Nat.mul_add 7 (left + 1), Nat.pow_add]
      rw [this] at hv
      exact Nat.div_lt_of_lt_mul (by omega)
    · have hb : (BitVec.ofNat 8 v).toNat = v := by simp only [BitVec.toNat_ofNat]; omega
      rw [varintLoop, if_neg h128, List.singleton_append, readVarintLoop_stop _ _ _ hval _ (by omega), hb,
        Nat.mod_eq_of_lt (show v < 128 by omega), Nat.mod_eq_of_lt hn]

/-- ReadVarint reads back what `varint` writes (42_stream_codec.md R211, R214). -/
theorem readVarint_varint {v : Nat} (hv : v < 2 ^ 32) (rest : List Byte) : readVarint (varint v ++ rest) = .ok (v, rest) := by
  have := varintLoop_read 4 0 0 v (by simp) (lt_of_lt_of_le hv (Nat.pow_le_pow_right (by omega) (by omega)))
    (by simpa using hv) rest
  simpa [readVarint, varint, Config.varintMaxBytes] using this

/-! ## Words -/

@[simp] theorem bytesOfWord_length (w : Word) : (bytesOfWord w).length = 8 := rfl

/-- A word is the word of its stream bytes (20_memory.md R64). -/
theorem wordOfBytes_bytesOfWord (w : Word) : wordOfBytes (bytesOfWord w) = w := by
  refine BitVec.eq_of_getLsbD_eq fun n hn => ?_
  simp only [wordOfBytes, bytesOfWord, List.foldl_cons, List.foldl_nil, BitVec.getLsbD_or, BitVec.getLsbD_shiftLeft,
    BitVec.getLsbD_setWidth, BitVec.getLsbD_extractLsb', hn, decide_true, Bool.true_and]
  interval_cases n <;> simp

/-- Eight bytes are the stream bytes of their word (20_memory.md R64). -/
theorem bytesOfWord_wordOfBytes (b0 b1 b2 b3 b4 b5 b6 b7 : Byte) :
    bytesOfWord (wordOfBytes [b0, b1, b2, b3, b4, b5, b6, b7]) = [b0, b1, b2, b3, b4, b5, b6, b7] := by
  simp only [bytesOfWord, wordOfBytes, List.foldl_cons, List.foldl_nil, List.cons.injEq, and_true]
  refine ⟨?_, ?_, ?_, ?_, ?_, ?_, ?_, ?_⟩ <;>
  · refine BitVec.eq_of_getLsbD_eq fun n hn => ?_
    simp only [BitVec.getLsbD_extractLsb', BitVec.getLsbD_or, BitVec.getLsbD_shiftLeft, BitVec.getLsbD_setWidth, hn]
    interval_cases n <;> simp

theorem flatMap_bytesOfWord_length (ws : List Word) : (ws.flatMap bytesOfWord).length = 8 * ws.length := by
  induction ws with
  | nil => rfl
  | cons w ws ih =>
    rw [List.flatMap_cons, List.length_append, ih, bytesOfWord_length, List.length_cons]
    omega

/-- The words of a stream are read back. -/
theorem readWords_flatMap (ws : List Word) (rest : List Byte) :
    readWords ws.length (ws.flatMap bytesOfWord ++ rest) = (ws, rest) := by
  induction ws with
  | nil => rfl
  | cons w ws ih =>
    have h1 : ((w :: ws).flatMap bytesOfWord ++ rest).take 8 = bytesOfWord w := by
      rw [List.flatMap_cons, List.append_assoc, List.take_append_of_le_length (by simp), List.take_of_length_le (by simp)]
    have h2 : ((w :: ws).flatMap bytesOfWord ++ rest).drop 8 = ws.flatMap bytesOfWord ++ rest := by
      rw [List.flatMap_cons, List.append_assoc, ← bytesOfWord_length w, List.drop_left]
    rw [List.length_cons, readWords, h1, h2, ih, wordOfBytes_bytesOfWord]

theorem eight_bytes {bs : List Byte} (h : bs.length = 8) : bytesOfWord (wordOfBytes bs) = bs := by
  match bs, h with
  | [b0, b1, b2, b3, b4, b5, b6, b7], _ => exact bytesOfWord_wordOfBytes b0 b1 b2 b3 b4 b5 b6 b7

/-- What reading words gives: that many words, whose stream bytes are the bytes read. -/
theorem readWords_spec (n : Nat) {bs : List Byte} (h : 8 * n ≤ bs.length) :
    (readWords n bs).1.length = n ∧ (readWords n bs).1.flatMap bytesOfWord ++ (readWords n bs).2 = bs := by
  induction n generalizing bs with
  | zero => exact ⟨rfl, rfl⟩
  | succ n ih =>
    obtain ⟨h1, h2⟩ := ih (bs := bs.drop 8) (by rw [List.length_drop]; omega)
    refine ⟨by simp [readWords, h1], ?_⟩
    simp only [readWords]
    rw [List.flatMap_cons, eight_bytes (by rw [List.length_take]; omega), List.append_assoc, h2, List.take_append_drop]

/-! ## Palette entries -/

/-- The entries of a stream are read back, whatever their tags are (42_stream_codec.md R218). -/
theorem readPalette_entries (es : List (List Byte × Byte)) (ht : ∀ e ∈ es, ∃ tag, ∀ rest, readVarint (e.1 ++ rest) = .ok (tag, rest))
    (rest : List Byte) :
    readPalette es.length (es.flatMap (fun e => e.1 ++ [e.2]) ++ rest) = .ok (es.map (fun e => e.2.setWidth 14), rest) := by
  induction es with
  | nil => rfl
  | cons e es ih =>
    obtain ⟨tag, htag⟩ := ht e List.mem_cons_self
    rw [List.length_cons, List.flatMap_cons, List.append_assoc, List.append_assoc, readPalette, htag]
    simp only [List.singleton_append]
    rw [ih fun e he => ht e (List.mem_cons_of_mem _ he)]
    rfl

/-- All that a successful read of entries can be. -/
theorem readPalette_ok {n : Nat} {bs r : List Byte} {p : List RawValue} (h : readPalette n bs = .ok (p, r)) :
    ∃ es : List (List Byte × Byte), es.length = n ∧ bs = es.flatMap (fun e => e.1 ++ [e.2]) ++ r ∧
      (∀ e ∈ es, 1 ≤ e.1.length ∧ ∃ tag, ∀ rest, readVarint (e.1 ++ rest) = .ok (tag, rest)) ∧
      p = es.map (fun e => e.2.setWidth 14) := by
  induction n generalizing bs p with
  | zero =>
    simp only [readPalette, Except.ok.injEq, Prod.mk.injEq] at h
    exact ⟨[], rfl, by simp [h.2], by simp, by simp [h.1]⟩
  | succ n ih =>
    rw [readPalette] at h
    split at h
    · cases h
    · cases h
    · rename_i tag v bs' hv
      split at h
      · cases h
      · rename_i p' r' hp
        simp only [Except.ok.injEq, Prod.mk.injEq] at h
        obtain ⟨es, h1, h2, h3, h4⟩ := ih (h.2 ▸ hp)
        obtain ⟨pre, g1, g2, -, g4⟩ := readVarint_ok hv
        refine ⟨(pre, v) :: es, by simp [h1], ?_, ?_, ?_⟩
        · rw [g1, h2, List.flatMap_cons]
          simp
        · intro e he
          rcases List.mem_cons.mp he with rfl | he
          · exact ⟨g2, tag, g4⟩
          · exact h3 e he
        · rw [← h.1, h4]
          rfl

/-! ## DECODE and ENCODE -/

/-- All that a successful decode is: the values read at each step and the checks they passed (42_stream_codec.md R215). -/
theorem decodeStream_eq_ok {p : Params} {input : List Byte} {c : Section} :
    decodeStream p input = .ok c ↔
      ∃ b r0 n r1 pal r2 m r3 wc r4,
        input.length ≤ p.inMax ∧ readWidth input = .ok (b, r0) ∧ readVarint r0 = .ok (n, r1) ∧ n ≤ 256 ∧
        readPalette n r1 = .ok (pal, r2) ∧ readVarint r2 = .ok (m, r3) ∧ m = 1 ∧ readVarint r3 = .ok (wc, r4) ∧
        wc = wordCount b.toNat ∧ 8 * wc ≤ r4.length ∧ (readWords wc r4).2.length ≤ p.lightMax ∧
        c = { bpe := b.setWidth 5, words := (readWords wc r4).1, pal := pal, light := (readWords wc r4).2 } := by
  unfold decodeStream
  simp only [bind_eq_ok, require_eq_ok, decide_eq_true_eq, beq_iff_eq, Config.palDecodeMax, Config.wordGroupMarker,
    Prod.exists, pure, Except.pure, Except.ok.injEq]
  constructor
  · rintro ⟨-, h1, b, r0, h2, n, r1, h3, -, h4, pal, r2, h5, m, r3, h6, -, h7, wc, r4, h8, -, h9, -, h10, -, h11, rfl⟩
    exact ⟨b, r0, n, r1, pal, r2, m, r3, wc, r4, h1, h2, h3, h4, h5, h6, h7, h8, h9, h10, h11, rfl⟩
  · rintro ⟨b, r0, n, r1, pal, r2, m, r3, wc, r4, h1, h2, h3, h4, h5, h6, h7, h8, h9, h10, h11, rfl⟩
    exact ⟨(), h1, b, r0, h2, n, r1, h3, (), h4, pal, r2, h5, m, r3, h6, (), h7, wc, r4, h8, (), h9, (), h10, (), h11, rfl⟩

theorem readWidth_eq_ok {bs r : List Byte} {b : Byte} :
    readWidth bs = .ok (b, r) ↔ bs = b :: r ∧ legalBpe b.toNat = true := by
  cases bs with
  | nil => simp [readWidth]
  | cons a bs =>
    rw [readWidth]
    split
    · rename_i h
      simp only [Except.ok.injEq, Prod.mk.injEq, List.cons.injEq]
      constructor
      · rintro ⟨rfl, rfl⟩
        exact ⟨⟨rfl, rfl⟩, h⟩
      · rintro ⟨⟨rfl, rfl⟩, -⟩
        exact ⟨rfl, rfl⟩
    · rename_i h
      simp only [List.cons.injEq, reduceCtorEq, false_iff, not_and]
      rintro ⟨rfl, rfl⟩
      exact h

/-- All that DECODE can do: commit the section, or raise the error (42_stream_codec.md R224, R225). -/
theorem execDecode_cases (s : State) :
    (∃ c, decodeStream s.params (inputBytes s) = .ok c ∧ execDecode s = .next (complete { nextDraw s with sec := c })) ∨
    (∃ e, decodeStream s.params (inputBytes s) = .error e ∧ execDecode s = .next (raiseErr e (nextDraw s))) := by
  unfold execDecode
  cases h : decodeStream s.params (inputBytes s) with
  | ok c => exact .inl ⟨c, rfl, rfl⟩
  | error e => exact .inr ⟨e, rfl, rfl⟩

/-- All that ENCODE can do: write the stream, or raise one of its two errors in their order (42_stream_codec.md R226). -/
theorem execEncode_cases (s : State) :
    (s.params.encWidePalette = .refuse ∧ (∃ e ∈ s.sec.pal, 255 < e.toNat) ∧
      execEncode s = .next (raiseErr .encPalRange { s with outLen := 0 })) ∨
    ((s.params.encWidePalette = .truncate ∨ ∀ e ∈ s.sec.pal, e.toNat ≤ 255) ∧
      s.params.outMax < (encodeSection s.params s.sec).length ∧
      execEncode s = .next (raiseErr .encOverflow { s with outLen := 0 })) ∨
    ((s.params.encWidePalette = .truncate ∨ ∀ e ∈ s.sec.pal, e.toNat ≤ 255) ∧
      (encodeSection s.params s.sec).length ≤ s.params.outMax ∧
      execEncode s = .next (complete { s with
        outBuf := Memory.overlay (encodeSection s.params s.sec) s.outBuf
        outLen := BitVec.ofNat 16 (encodeSection s.params s.sec).length })) := by
  have hcheck : (s.params.encWidePalette == WidePalette.refuse && s.sec.pal.any (fun e => 255 < e.toNat)) = true
      ↔ s.params.encWidePalette = .refuse ∧ ∃ e ∈ s.sec.pal, 255 < e.toNat := by
    simp
  by_cases hw : s.params.encWidePalette = .refuse ∧ ∃ e ∈ s.sec.pal, 255 < e.toNat
  · refine .inl ⟨hw.1, hw.2, ?_⟩
    have h1 : encodeStream s.params s.sec = .error .encPalRange := by
      rw [encodeStream, hcheck.mpr hw]
      rfl
    rw [execEncode, h1]
  · have hw' : s.params.encWidePalette = .truncate ∨ ∀ e ∈ s.sec.pal, e.toNat ≤ 255 := by
      cases h : s.params.encWidePalette with
      | truncate => exact .inl rfl
      | refuse => exact .inr fun e he => not_lt.mp fun hlt => hw ⟨h, e, he, hlt⟩
    have h0 : (s.params.encWidePalette == WidePalette.refuse && s.sec.pal.any (fun e => 255 < e.toNat)) = false := by
      rw [← Bool.not_eq_true]
      exact fun h => hw (hcheck.mp h)
    by_cases hl : (encodeSection s.params s.sec).length ≤ s.params.outMax
    · refine .inr (.inr ⟨hw', hl, ?_⟩)
      have h1 : encodeStream s.params s.sec = .ok (encodeSection s.params s.sec) := by
        rw [encodeStream, h0, decide_eq_true hl]
        rfl
      rw [execEncode, h1]
    · refine .inr (.inl ⟨hw', by omega, ?_⟩)
      have h1 : encodeStream s.params s.sec = .error .encOverflow := by
        rw [encodeStream, h0, decide_eq_false hl]
        rfl
      rw [execEncode, h1]

end Sys2Proof.Machine
end

