-- ==== Sys2Proof/Laws/Decode.lean ====
section
/-! SUPPORT. The command word: the fields of an encoded word, a word from its fields, and what a decoded word is. -/

namespace Sys2Proof

section

variable (v : RawValue) (y z x : Coord) (op : BitVec 4)
theorem fieldOp_encodeFields : fieldOp (encodeFields v y z x op) = op := by
  unfold fieldOp encodeFields; ext n hn
  simp only [BitVec.getElem_extractLsb', BitVec.getLsbD_append]
  simp [hn]
theorem fieldX_encodeFields : fieldX (encodeFields v y z x op) = x := by
  unfold fieldX encodeFields; ext n hn
  simp only [BitVec.getElem_extractLsb', BitVec.getLsbD_append]
  have : ¬ 4 + n < 4 := by omega
  have h2 : 4 + n - 4 = n := by omega
  simp [this, hn, h2]
theorem fieldZ_encodeFields : fieldZ (encodeFields v y z x op) = z := by
  unfold fieldZ encodeFields; ext n hn
  simp only [BitVec.getElem_extractLsb', BitVec.getLsbD_append]
  have : ¬ 8 + n < 4 := by omega
  have h2 : ¬ 8 + n - 4 < 4 := by omega
  have h3 : 8 + n - 4 - 4 = n := by omega
  simp [this, hn, h2, h3]
theorem fieldY_encodeFields : fieldY (encodeFields v y z x op) = y := by
  unfold fieldY encodeFields; ext n hn
  simp only [BitVec.getElem_extractLsb', BitVec.getLsbD_append]
  have : ¬ 12 + n < 4 := by omega
  have h2 : ¬ 12 + n - 4 < 4 := by omega
  have h3 : ¬ 12 + n - 4 - 4 < 4 := by omega
  have h4 : 12 + n - 4 - 4 - 4 = n := by omega
  simp [this, hn, h2, h3, h4]
theorem fieldVal_encodeFields : fieldVal (encodeFields v y z x op) = v := by
  unfold fieldVal encodeFields; ext n hn
  simp only [BitVec.getElem_extractLsb', BitVec.getLsbD_append]
  have : ¬ 16 + n < 4 := by omega
  have h2 : ¬ 16 + n - 4 < 4 := by omega
  have h3 : ¬ 16 + n - 4 - 4 < 4 := by omega
  have h4 : ¬ 16 + n - 4 - 4 - 4 < 4 := by omega
  have h5 : 16 + n - 4 - 4 - 4 - 4 = n := by omega
  simp [this, hn, h2, h3, h4, h5]
theorem fieldRsv_encodeFields : fieldRsv (encodeFields v y z x op) = 0 := by
  unfold fieldRsv encodeFields; ext n hn
  simp only [BitVec.getElem_extractLsb', BitVec.getLsbD_append]
  have : ¬ 30 + n < 4 := by omega
  have h2 : ¬ 30 + n - 4 < 4 := by omega
  have h3 : ¬ 30 + n - 4 - 4 < 4 := by omega
  have h4 : ¬ 30 + n - 4 - 4 - 4 < 4 := by omega
  have h5 : ¬ 30 + n - 4 - 4 - 4 - 4 < 14 := by omega
  simp [this, h2, h3, h4, h5]
end

/-- A word whose RSV is 0 is its fields put together. -/
theorem encodeFields_fields (w : CmdWord) (h : fieldRsv w = 0) :
    encodeFields (fieldVal w) (fieldY w) (fieldZ w) (fieldX w) (fieldOp w) = w := by
  have hr : ∀ n, n < 2 → w.getLsbD (30+n) = false := by
    intro n hn
    have := congrArg (fun b => b.getLsbD n) h
    simpa [fieldRsv, BitVec.getLsbD_extractLsb', hn] using this
  unfold encodeFields fieldVal fieldY fieldZ fieldX fieldOp
  apply BitVec.eq_of_getLsbD_eq
  intro n hn
  simp only [BitVec.getLsbD_append, BitVec.getLsbD_extractLsb']
  by_cases h1 : n < 4
  · simp [h1]
  by_cases h2 : n < 8
  · simp [h1, show n - 4 < 4 by omega, show 4 + (n-4) = n by omega]
  by_cases h3 : n < 12
  · simp [h1, show ¬ n - 4 < 4 by omega, show n - 4 - 4 < 4 by omega, show 8 + (n-4-4) = n by omega]
  by_cases h4 : n < 16
  · simp [h1, show ¬ n - 4 < 4 by omega, show ¬ n - 4 - 4 < 4 by omega, show n - 4 - 4 -4 < 4 by omega, show 12 + (n-4-4-4) = n by omega]
  by_cases h5 : n < 30
  · simp [h1, show ¬ n - 4 < 4 by omega, show ¬ n - 4 - 4 < 4 by omega, show ¬ n - 4 - 4 -4 < 4 by omega, show n - 4 - 4 -4-4 < 14 by omega, show 16 + (n-4-4-4-4) = n by omega]
  · have := hr (n-30) (by omega)
    rw [show 30 + (n-30) = n by omega] at this
    simp [h1, show ¬ n - 4 < 4 by omega, show ¬ n - 4 - 4 < 4 by omega, show ¬ n - 4 - 4 -4 < 4 by omega, show ¬ n - 4 - 4 -4-4 < 14 by omega, this]

/-! ## Fields as numbers -/

theorem fieldOp_toNat (w : CmdWord) : (fieldOp w).toNat = w.toNat % 16 := by
  simp [fieldOp, BitVec.extractLsb'_toNat]

theorem fieldX_toNat (w : CmdWord) : (fieldX w).toNat = w.toNat / 16 % 16 := by
  simp [fieldX, BitVec.extractLsb'_toNat, Nat.shiftRight_eq_div_pow]

theorem fieldZ_toNat (w : CmdWord) : (fieldZ w).toNat = w.toNat / 256 % 16 := by
  simp [fieldZ, BitVec.extractLsb'_toNat, Nat.shiftRight_eq_div_pow]

theorem fieldY_toNat (w : CmdWord) : (fieldY w).toNat = w.toNat / 4096 % 16 := by
  simp [fieldY, BitVec.extractLsb'_toNat, Nat.shiftRight_eq_div_pow]

theorem fieldVal_toNat (w : CmdWord) : (fieldVal w).toNat = w.toNat / 65536 % 16384 := by
  simp [fieldVal, BitVec.extractLsb'_toNat, Nat.shiftRight_eq_div_pow]

theorem fieldRsv_toNat (w : CmdWord) : (fieldRsv w).toNat = w.toNat / 1073741824 % 4 := by
  simp [fieldRsv, BitVec.extractLsb'_toNat, Nat.shiftRight_eq_div_pow]

theorem encodeFields_toNat (v : RawValue) (y z x : Coord) (op : BitVec 4) :
    (encodeFields v y z x op).toNat
      = v.toNat * 65536 + y.toNat * 4096 + z.toNat * 256 + x.toNat * 16 + op.toNat := by
  simp only [encodeFields, BitVec.toNat_append, BitVec.toNat_ofNat, Nat.zero_mod, Nat.zero_shiftLeft, Nat.zero_or]
  have h1 := y.isLt
  have h2 := z.isLt
  have h3 := x.isLt
  have h4 := op.isLt
  rw [← Nat.shiftLeft_add_eq_or_of_lt h4, ← Nat.shiftLeft_add_eq_or_of_lt h3, ← Nat.shiftLeft_add_eq_or_of_lt h2,
    ← Nat.shiftLeft_add_eq_or_of_lt h1]
  simp only [Nat.shiftLeft_eq]
  omega

/-! ## Decoding -/

/-- All that a decoded word can be: the row of 30_encoding.md R94 with its opcode, its operands and its zero fields. -/
theorem decode_ok {w : CmdWord} {i : Instr} (h : decode w = .ok i) : fieldRsv w = 0 ∧ 
   ((i = .init ∧ fieldOp w = 1 ∧ fieldX w = 0 ∧ fieldZ w = 0 ∧ fieldY w = 0 ∧ fieldVal w = 0) ∨
    (i = .get (fieldX w) (fieldY w) (fieldZ w) ∧ fieldOp w = 2 ∧ fieldVal w = 0) ∨
    (i = .set (fieldX w) (fieldY w) (fieldZ w) (fieldVal w) ∧ fieldOp w = 3) ∨
    (i = .peek (fieldX w) (fieldY w) (fieldZ w) ∧ fieldOp w = 4 ∧ fieldVal w = 0) ∨
    (i = .decode ∧ fieldOp w = 5 ∧ fieldX w = 0 ∧ fieldZ w = 0 ∧ fieldY w = 0 ∧ fieldVal w = 0) ∨
    (i = .encode ∧ fieldOp w = 6 ∧ fieldX w = 0 ∧ fieldZ w = 0 ∧ fieldY w = 0 ∧ fieldVal w = 0)) := by
  unfold decode at h
  split at h
  · cases h
  rename_i h0
  split at h
  · cases h
  rename_i hr
  refine ⟨by simpa using hr, ?_⟩
  split at h
  · simp only [decodePlain] at h; split at h <;> simp_all
  split at h
  · simp only [decodeCell] at h; split at h <;> simp_all
  split at h
  · simp_all
  split at h
  · simp only [decodeCell] at h; split at h <;> simp_all
  split at h
  · simp only [decodePlain] at h; split at h <;> simp_all
  · simp only [decodePlain] at h; split at h <;> simp_all
    have : fieldOp w = 6 := by
      have h7 := h0.2
      apply BitVec.eq_of_toNat_eq
      have e1 : (fieldOp w).toNat ≠ 0 := fun h => h0.1 (BitVec.eq_of_toNat_eq h)
      rename_i a1 a2 a3 a4 a5 a6
      have e1' : (fieldOp w).toNat ≠ 1 := fun h => a1 (BitVec.eq_of_toNat_eq h)
      have e2 : (fieldOp w).toNat ≠ 2 := fun h => a2 (BitVec.eq_of_toNat_eq h)
      have e3 : (fieldOp w).toNat ≠ 3 := fun h => a3 (BitVec.eq_of_toNat_eq h)
      have e4 : (fieldOp w).toNat ≠ 4 := fun h => a4 (BitVec.eq_of_toNat_eq h)
      have e5 : (fieldOp w).toNat ≠ 5 := fun h => a5 (BitVec.eq_of_toNat_eq h)
      simp; omega
    tauto


/-- A word is legal exactly when the decoder gives a command. -/
theorem illegal_eq_false {w : CmdWord} : illegal w = false ↔ ∃ i, decode w = .ok i := by
  unfold illegal
  cases decode w <;> simp

end Sys2Proof
end

