-- ==== Sys2Proof/Laws/Memory.lean ====
section
/-! SUPPORT. The byte buffers: what each operation reads as afterwards, and that it keeps the canonical form. -/

namespace Sys2Proof.Machine

theorem Memory.wf_nil : Memory.wf [] := List.Pairwise.nil

/-! ## One byte -/

theorem Memory.mem_write {m : List Host.Cell} {k : Nat} {v : Byte} {c : Host.Cell} (h : c ∈ Memory.write m k v) :
    c = (k, v) ∨ c ∈ m := by
  induction m with
  | nil => simpa [Memory.write] using h
  | cons d m ih =>
    simp only [Memory.write] at h
    split at h
    · rcases List.mem_cons.mp h with h | h
      · exact .inr (h ▸ List.mem_cons_self)
      · exact (ih h).imp id (List.mem_cons_of_mem d)
    · split at h
      · exact (List.mem_cons.mp h).imp id (List.mem_cons_of_mem d)
      · exact List.mem_cons.mp h

/-- A write keeps the canonical form. -/
theorem Memory.wf_write {m : List Host.Cell} (h : Memory.wf m) (k : Nat) (v : Byte) : Memory.wf (Memory.write m k v) := by
  induction m with
  | nil => simp [Memory.write, Memory.wf]
  | cons c m ih =>
    obtain ⟨hc, hm⟩ := List.pairwise_cons.mp h
    simp only [Memory.write]
    split
    · refine List.pairwise_cons.mpr ⟨fun d hd => ?_, ih hm⟩
      rcases Memory.mem_write hd with rfl | hd
      · assumption
      · exact hc d hd
    · split
      · exact List.pairwise_cons.mpr ⟨fun d hd => by have := hc d hd; simp only; omega, hm⟩
      · refine List.pairwise_cons.mpr ⟨fun d hd => ?_, h⟩
        rcases List.mem_cons.mp hd with rfl | hd
        · simp only; omega
        · have := hc d hd; simp only; omega

/-- A byte below every address of the list is unwritten. -/
theorem Memory.read_of_lt {m : List Host.Cell} {k : Nat} (h : ∀ c ∈ m, k < c.1) : Memory.read m k = none := by
  induction m with
  | nil => rfl
  | cons c m ih =>
    have hc := h c List.mem_cons_self
    have hne : c.1 ≠ k := by omega
    simp [Memory.read, hne, ih fun d hd => h d (List.mem_cons_of_mem c hd)]

/-- Read after write. -/
theorem Memory.read_write (m : List Host.Cell) (k : Nat) (v : Byte) (j : Nat) :
    Memory.read (Memory.write m k v) j = if j = k then some v else Memory.read m j := by
  induction m with
  | nil =>
    by_cases hj : j = k
    · simp [Memory.write, Memory.read, hj]
    · simp [Memory.write, Memory.read, hj, Ne.symm hj]
  | cons c m ih =>
    simp only [Memory.write]
    split
    · rename_i hlt
      by_cases hc : c.1 = j
      · have : j ≠ k := by omega
        simp [Memory.read, hc, this]
      · simp [Memory.read, hc, ih]
    · split
      · rename_i heq
        by_cases hj : j = k
        · simp [Memory.read, hj]
        · have hc : c.1 ≠ j := by omega
          simp [Memory.read, hj, hc, Ne.symm hj]
      · by_cases hj : j = k
        · simp [Memory.read, hj]
        · simp [Memory.read, hj, Ne.symm hj]

/-! ## Many bytes -/

theorem Memory.mem_cellsFrom {k : Nat} {bs : List Byte} {c : Host.Cell} (h : c ∈ Memory.cellsFrom k bs) :
    k ≤ c.1 ∧ c.1 < k + bs.length := by
  induction bs generalizing k with
  | nil => simp [Memory.cellsFrom] at h
  | cons b bs ih =>
    rcases List.mem_cons.mp h with rfl | h
    · simp
    · have := ih h
      simp only [List.length_cons]; omega

theorem Memory.wf_cellsFrom (k : Nat) (bs : List Byte) : Memory.wf (Memory.cellsFrom k bs) := by
  induction bs generalizing k with
  | nil => exact Memory.wf_nil
  | cons b bs ih =>
    refine List.pairwise_cons.mpr ⟨fun c hc => ?_, ih (k + 1)⟩
    have := Memory.mem_cellsFrom hc
    simp only; omega

theorem Memory.read_cellsFrom (k : Nat) (bs : List Byte) (j : Nat) :
    Memory.read (Memory.cellsFrom k bs) j = if k ≤ j then bs[j - k]? else none := by
  induction bs generalizing k with
  | nil => simp [Memory.cellsFrom, Memory.read]
  | cons b bs ih =>
    simp only [Memory.cellsFrom, Memory.read, ih]
    by_cases hkj : k = j
    · simp [hkj]
    · by_cases hlt : k ≤ j
      · have h1 : k + 1 ≤ j := by omega
        have h2 : j - k = (j - (k + 1)) + 1 := by omega
        simp [hkj, hlt, h1, h2]
      · have h1 : ¬ k + 1 ≤ j := by omega
        simp [hkj, hlt, h1]

theorem Memory.read_append (m n : List Host.Cell) (j : Nat) :
    Memory.read (m ++ n) j = (Memory.read m j).or (Memory.read n j) := by
  induction m with
  | nil => simp [Memory.read]
  | cons c m ih =>
    by_cases hc : c.1 = j
    · simp [Memory.read, hc]
    · simp [Memory.read, hc, ih]

/-- What is left of a canonical buffer from address `n` on. -/
theorem Memory.dropWhile_spec {m : List Host.Cell} (h : Memory.wf m) (n : Nat) :
    Memory.wf (m.dropWhile (fun c => c.1 < n)) ∧
    (∀ c ∈ m.dropWhile (fun c => c.1 < n), n ≤ c.1 ∧ c ∈ m) ∧
    (∀ j, n ≤ j → Memory.read (m.dropWhile (fun c => c.1 < n)) j = Memory.read m j) := by
  induction m with
  | nil => exact ⟨Memory.wf_nil, by simp, fun _ _ => rfl⟩
  | cons c m ih =>
    obtain ⟨hc, hm⟩ := List.pairwise_cons.mp h
    by_cases hn : c.1 < n
    · obtain ⟨h1, h2, h3⟩ := ih hm
      simp only [List.dropWhile_cons, hn, decide_true, if_true]
      refine ⟨h1, fun d hd => ⟨(h2 d hd).1, List.mem_cons_of_mem c (h2 d hd).2⟩, fun j hj => ?_⟩
      have : c.1 ≠ j := by omega
      simp [h3 j hj, Memory.read, this]
    · rw [List.dropWhile_cons_of_neg (by simpa using hn)]
      refine ⟨h, fun d hd => ⟨?_, hd⟩, fun _ _ => rfl⟩
      rcases List.mem_cons.mp hd with rfl | hd'
      · omega
      · have := hc d hd'; omega

/-- An overlay keeps the canonical form. -/
theorem Memory.wf_overlay {m : List Host.Cell} (h : Memory.wf m) (bs : List Byte) : Memory.wf (Memory.overlay bs m) := by
  obtain ⟨h1, h2, -⟩ := Memory.dropWhile_spec h bs.length
  refine List.pairwise_append.mpr ⟨Memory.wf_cellsFrom 0 bs, h1, fun c hc d hd => ?_⟩
  have hc' := Memory.mem_cellsFrom hc
  have hd' := (h2 d hd).1
  omega

/-- After an overlay the first bytes are the new ones and every other byte is as before. -/
theorem Memory.read_overlay {m : List Host.Cell} (h : Memory.wf m) (bs : List Byte) (j : Nat) :
    Memory.read (Memory.overlay bs m) j = if j < bs.length then bs[j]? else Memory.read m j := by
  obtain ⟨-, h2, h3⟩ := Memory.dropWhile_spec h bs.length
  simp only [Memory.overlay, Memory.read_append, Memory.read_cellsFrom, Nat.zero_le, if_true, Nat.sub_zero]
  by_cases hj : j < bs.length
  · simp [hj]
  · simp [hj, h3 j (by omega)]

/-- Every address of an overlay is one of the new bytes' or was there before. -/
theorem Memory.mem_overlay {m : List Host.Cell} {bs : List Byte} {c : Host.Cell} (h : c ∈ Memory.overlay bs m) :
    c.1 < bs.length ∨ c ∈ m := by
  rcases List.mem_append.mp h with h | h
  · exact .inl (by simpa using (Memory.mem_cellsFrom h).2)
  · exact .inr ((List.dropWhile_sublist _).subset h)

/-! ## The window -/

@[simp] theorem Memory.window_length (free : Nat → Byte) (m : List Host.Cell) (k n : Nat) :
    (Memory.window free m k n).length = n := by
  induction n generalizing m k with
  | zero => rfl
  | succ n ih =>
    simp only [Memory.window]
    split <;> simp [ih]

/-- The window of a canonical buffer holds the written bytes, and a free byte where nothing was written. -/
theorem Memory.window_eq (free : Nat → Byte) {m : List Host.Cell} (h : Memory.wf m) (k n : Nat) :
    Memory.window free m k n = (List.range' k n).map fun j => (Memory.read m j).getD (free j) := by
  induction n generalizing m k with
  | zero => rfl
  | succ n ih =>
    obtain ⟨h1, h2, h3⟩ := Memory.dropWhile_spec h k
    have hmap : (List.range' (k + 1) n).map (fun j => (Memory.read (m.dropWhile (fun c => c.1 < k)) j).getD (free j))
        = (List.range' (k + 1) n).map (fun j => (Memory.read m j).getD (free j)) := by
      refine List.map_congr_left fun j hj => ?_
      have := (List.mem_range'_1.mp hj).1
      rw [h3 j (by omega)]
    simp only [Memory.window, List.range'_succ, List.map_cons]
    rw [← h3 k le_rfl, ← hmap]
    split
    · rename_i he
      rw [he, ih Memory.wf_nil]
      simp [Memory.read]
    · rename_i c r he
      rw [he, ih (he ▸ h1)]
      have hk := (h2 c (he ▸ List.mem_cons_self)).1
      by_cases hc : c.1 = k
      · simp [Memory.read, hc]
      · have : Memory.read r k = none := by
          refine Memory.read_of_lt fun d hd => ?_
          have := (List.pairwise_cons.mp (he ▸ h1)).1 d hd
          omega
        simp [Memory.read, hc, this]

end Sys2Proof.Machine
end

