-- ==== Sys2Proof/Laws/Machine.lean ====
section
/-! SUPPORT. The agents: what a host write, a command, a move and a step can do. -/

namespace Sys2Proof.Machine

/-! ## Host writes -/

/-- All that a write of CMD can do: the four cases of 60_exceptions.md R263. -/
theorem writeCmd_cases (c : CmdWord) (s : State) :
    (s.fault = true ∧ writeCmd c s = s) ∨
    (s.fault = false ∧ s.busy = true ∧ writeCmd c s = { s with fault := true, faultcode := faultBits .overrun }) ∨
    (s.fault = false ∧ s.busy = false ∧ illegal c = true ∧
      writeCmd c s
        = { s with fault := true, faultcode := faultBits .illegalCmd, err := false, errcode := 0, done := true }) ∨
    (s.fault = false ∧ s.busy = false ∧ illegal c = false ∧
      writeCmd c s = { s with err := false, errcode := 0, done := false, pend := some c }) := by
  cases hf : s.fault with
  | true => exact .inl ⟨rfl, by simp [writeCmd, hf]⟩
  | false =>
    cases hb : s.busy with
    | true => exact .inr (.inl ⟨rfl, rfl, by simp [writeCmd, hf, hb, raiseFault_of_clear hf]⟩)
    | false =>
      cases hi : illegal c with
      | true => exact .inr (.inr (.inl ⟨rfl, rfl, rfl, by simp [writeCmd, hf, hb, hi, raiseFault_of_clear hf, clearErr]⟩))
      | false => exact .inr (.inr (.inr ⟨rfl, rfl, rfl, by simp [writeCmd, hf, hb, hi, clearErr]⟩))

/-- All that a host write can do: nothing (unmapped, read-only, or after a fault); OVERRUN while BUSY = 1; ILLEGAL_CMD; an
accepted command; or, while BUSY = 0, a new IN_LEN or one new byte of IN. -/
theorem hostWrite_cases (addr : BitVec 64) (be : BitVec 4) (v : BitVec 32) (s : State) :
    hostWrite addr be v s = s ∨
    (s.fault = false ∧ s.busy = true ∧
      (∃ r, regAt s.params addr = some r ∧ (r = .cmd ∨ r = .inLen ∨ ∃ k, r = .inByte k)) ∧
      hostWrite addr be v s = { s with fault := true, faultcode := faultBits .overrun }) ∨
    (s.fault = false ∧ s.busy = false ∧ regAt s.params addr = some .cmd ∧ illegal v = true ∧
      hostWrite addr be v s
        = { s with fault := true, faultcode := faultBits .illegalCmd, err := false, errcode := 0, done := true }) ∨
    (s.fault = false ∧ s.busy = false ∧ regAt s.params addr = some .cmd ∧ illegal v = false ∧
      hostWrite addr be v s = { s with err := false, errcode := 0, done := false, pend := some v }) ∨
    (s.busy = false ∧ regAt s.params addr = some .inLen ∧ hostWrite addr be v s = { s with inLen := v.setWidth 16 }) ∨
    (∃ k, s.busy = false ∧ regAt s.params addr = some (.inByte k) ∧
      hostWrite addr be v s = { s with inBuf := Memory.write s.inBuf k (v.setWidth 8) }) := by
  unfold hostWrite
  cases hr : regAt s.params addr with
  | none => exact .inl rfl
  | some r =>
    have input : ∀ s' : State, (r = .cmd ∨ r = .inLen ∨ ∃ k, r = .inByte k) →
        (s.busy = true ∧ s.fault = true ∧ writeInput s s' = s) ∨
        (s.fault = false ∧ s.busy = true ∧
          writeInput s s' = { s with fault := true, faultcode := faultBits .overrun }) ∨
        (s.busy = false ∧ writeInput s s' = s') := by
      intro s' _
      cases hb : s.busy with
      | false => exact .inr (.inr ⟨rfl, by simp [writeInput, hb]⟩)
      | true =>
        rcases raiseFault_cases .overrun s with ⟨h1, h2⟩ | ⟨h1, h2⟩
        · exact .inl ⟨rfl, h1, by simp [writeInput, hb, h2]⟩
        · exact .inr (.inl ⟨h1, rfl, by simp [writeInput, hb, h2]⟩)
    cases r with
    | cmd =>
      rcases writeCmd_cases v s with ⟨-, h⟩ | ⟨h1, h2, h⟩ | ⟨h1, h2, h3, h⟩ | ⟨h1, h2, h3, h⟩
      · exact .inl h
      · exact .inr (.inl ⟨h1, h2, ⟨_, rfl, .inl rfl⟩, h⟩)
      · exact .inr (.inr (.inl ⟨h1, h2, rfl, h3, h⟩))
      · exact .inr (.inr (.inr (.inl ⟨h1, h2, rfl, h3, h⟩)))
    | inLen =>
      rcases input { s with inLen := v.setWidth 16 } (.inr (.inl rfl)) with ⟨-, -, h⟩ | ⟨h1, h2, h⟩ | ⟨h1, h⟩
      · exact .inl h
      · exact .inr (.inl ⟨h1, h2, ⟨_, rfl, .inr (.inl rfl)⟩, h⟩)
      · exact .inr (.inr (.inr (.inr (.inl ⟨h1, rfl, h⟩))))
    | inByte k =>
      rcases input { s with inBuf := Memory.write s.inBuf k (v.setWidth 8) } (.inr (.inr ⟨k, rfl⟩)) with
        ⟨-, -, h⟩ | ⟨h1, h2, h⟩ | ⟨h1, h⟩
      · exact .inl h
      · exact .inr (.inl ⟨h1, h2, ⟨_, rfl, .inr (.inr ⟨k, rfl⟩)⟩, h⟩)
      · exact .inr (.inr (.inr (.inr (.inr ⟨k, h1, rfl, h⟩))))
    | status => exact .inl rfl
    | result => exact .inl rfl
    | bpe => exact .inl rfl
    | palLen => exact .inl rfl
    | outLen => exact .inl rfl
    | lightLen => exact .inl rfl
    | pal k => exact .inl rfl
    | outByte k => exact .inl rfl

/-! ## Address decode -/

/-- A single register exists, and its number is that of its word. -/
theorem singleReg_eq_some {n : Nat} {r : HostReg} (h : singleReg n = some r) (p : Params) :
    r.wellFormed p = true ∧ 4 * n = regOffset r := by
  unfold singleReg at h
  split at h <;> cases h <;> exact ⟨rfl, rfl⟩

/-- A window's slot exists, and its number is that of its word. -/
theorem windowReg_eq_some {p : Params} {n : Nat} {r : HostReg} (h : windowReg p n = some r) :
    r.wellFormed p = true ∧ 4 * n = regOffset r := by
  unfold windowReg at h
  split_ifs at h <;> cases h <;> simp only [HostReg.wellFormed, regOffset, decide_eq_true_eq] <;> omega

/-- A register's number is that of its slot, and it exists. -/
theorem regOfNumber_eq_some {p : Params} {n : Nat} {r : HostReg} (h : regOfNumber p n = some r) :
    r.wellFormed p = true ∧ 4 * n = regOffset r := by
  rcases Option.or_eq_some_iff.mp h with h | ⟨-, h⟩
  · exact singleReg_eq_some h p
  · exact windowReg_eq_some h

/-- The registers to write only while BUSY = 0 are those whose write while BUSY = 1 is dropped (20_memory.md R72). -/
theorem idleWrite_iff {r : HostReg} : idleWrite r = true ↔ r = .cmd ∨ r = .inLen ∨ ∃ k, r = .inByte k := by
  cases r <;> simp [idleWrite]

/-! ## Commands -/

/-- All that a command can do, by command. -/
theorem exec_cases {i : Instr} {s t : State} (h : exec i s = .next t) :
    (i = .init ∧ t = complete { s with sec := emptySection s.params }) ∨
    (∃ x y z, i = .get x y z ∧ t = complete { s with result := rawValueOf s.sec (s.sec.cell (cellOf x y z)) }) ∨
    (∃ x y z v, i = .set x y z v ∧ t = complete { s with sec := setValue s.sec (cellOf x y z) v }) ∨
    (∃ x y z, i = .peek x y z ∧ t = complete { s with result := BitVec.ofNat 14 (s.sec.cell (cellOf x y z)) }) ∨
    (∃ c, i = .decode ∧ decodeStream s.params (inputBytes s) = .ok c ∧ t = complete { nextDraw s with sec := c }) ∨
    (∃ e, i = .decode ∧ decodeStream s.params (inputBytes s) = .error e ∧ t = raiseErr e (nextDraw s)) ∨
    (∃ e, i = .encode ∧ (e = .encPalRange ∨ e = .encOverflow) ∧ t = raiseErr e { s with outLen := 0 }) ∨
    (i = .encode ∧ (encodeSection s.params s.sec).length ≤ s.params.outMax ∧
      t = complete { s with
        outBuf := Memory.overlay (encodeSection s.params s.sec) s.outBuf
        outLen := BitVec.ofNat 16 (encodeSection s.params s.sec).length }) := by
  cases i with
  | init => cases h; exact .inl ⟨rfl, rfl⟩
  | get x y z => cases h; exact .inr (.inl ⟨x, y, z, rfl, rfl⟩)
  | set x y z v => cases h; exact .inr (.inr (.inl ⟨x, y, z, v, rfl, rfl⟩))
  | peek x y z => cases h; exact .inr (.inr (.inr (.inl ⟨x, y, z, rfl, rfl⟩)))
  | decode =>
    change execDecode s = .next t at h
    rcases execDecode_cases s with ⟨c, h1, h2⟩ | ⟨e, h1, h2⟩
    · rw [h2] at h; cases h
      exact .inr (.inr (.inr (.inr (.inl ⟨c, rfl, h1, rfl⟩))))
    · rw [h2] at h; cases h
      exact .inr (.inr (.inr (.inr (.inr (.inl ⟨e, rfl, h1, rfl⟩)))))
  | encode =>
    change execEncode s = .next t at h
    rcases execEncode_cases s with ⟨-, -, h2⟩ | ⟨-, -, h2⟩ | ⟨-, h1, h2⟩
    · rw [h2] at h; cases h
      exact .inr (.inr (.inr (.inr (.inr (.inr (.inl ⟨_, rfl, .inl rfl, rfl⟩))))))
    · rw [h2] at h; cases h
      exact .inr (.inr (.inr (.inr (.inr (.inr (.inl ⟨_, rfl, .inr rfl, rfl⟩))))))
    · rw [h2] at h; cases h
      exact .inr (.inr (.inr (.inr (.inr (.inr (.inr ⟨rfl, h1, rfl⟩))))))

/-! ## Moves and steps -/

/-- All that the engine's move can do: nothing, or run the pending command. -/
theorem engineStep_cases {s t : State} (h : engineStep s = .next t) :
    (s.pend = none ∧ t = s) ∨ ∃ w i, s.pend = some w ∧ decode w = .ok i ∧ exec i s = .next t := by
  unfold engineStep at h
  cases hp : s.pend with
  | none => rw [hp] at h; cases h; exact .inl ⟨rfl, rfl⟩
  | some w =>
    rw [hp] at h
    cases hd : decode w with
    | error e => simp only [hd] at h; cases h
    | ok i => simp only [hd] at h; exact .inr ⟨w, i, rfl, hd, h⟩

theorem step_of_nil {s : State} (h : s.agenda = []) : step s = engineStep s := by
  rw [step, nextMove, h]

theorem step_of_cons {s : State} {a : Action} {rest : List Action} (h : s.agenda = a :: rest) :
    step s = perform a { s with agenda := rest } := by
  rw [step, nextMove, h]

/-- All that a step can do: the engine's move, a host read, a host write, or `rst`. -/
theorem step_cases {s t : State} (h : step s = .next t) :
    (s.agenda = [] ∧ engineStep s = .next t) ∨
    (∃ rest, s.agenda = .engine :: rest ∧ engineStep { s with agenda := rest } = .next t) ∨
    (∃ addr be rest, s.agenda = .read addr be :: rest ∧ t = hostRead addr be { s with agenda := rest }) ∨
    (∃ addr be v rest, s.agenda = .write addr be v :: rest ∧ t = hostWrite addr be v { s with agenda := rest }) ∨
    (∃ rest, s.agenda = .rst :: rest ∧ t = hardReset { s with agenda := rest }) := by
  cases ha : s.agenda with
  | nil => exact .inl ⟨rfl, step_of_nil ha ▸ h⟩
  | cons a rest =>
    rw [step_of_cons ha] at h
    cases a with
    | engine => exact .inr (.inl ⟨rest, rfl, h⟩)
    | read addr be => cases h; exact .inr (.inr (.inl ⟨addr, be, rest, rfl, rfl⟩))
    | write addr be v => cases h; exact .inr (.inr (.inr (.inl ⟨addr, be, v, rest, rfl, rfl⟩)))
    | rst => cases h; exact .inr (.inr (.inr (.inr ⟨rest, rfl, rfl⟩)))

end Sys2Proof.Machine
end

