-- ==== Sys2Proof/Laws/Operands.lean ====
section
/-! SUPPORT. The cell a command names. -/

namespace Sys2Proof.Machine

/-- The cell index as a number (41_section.md R160). -/
theorem cellOf_eq_linearIndex (x y z : Coord) : cellOf x y z = linearIndex x y z := by
  have hx := x.isLt
  have hy := y.isLt
  have hz := z.isLt
  simp only [cellOf, cellIndex, linearIndex, BitVec.toNat_or, BitVec.toNat_shiftLeft, BitVec.toNat_setWidth]
  rw [Nat.mod_eq_of_lt (show y.toNat < 2 ^ 12 by omega), Nat.mod_eq_of_lt (show z.toNat < 2 ^ 12 by omega),
    Nat.mod_eq_of_lt (show x.toNat < 2 ^ 12 by omega), Nat.shiftLeft_eq, Nat.shiftLeft_eq,
    Nat.mod_eq_of_lt (show y.toNat * 2 ^ 8 < 2 ^ 12 by omega), Nat.mod_eq_of_lt (show z.toNat * 2 ^ 4 < 2 ^ 12 by omega),
    ← Nat.shiftLeft_eq, ← Nat.shiftLeft_eq,
    ← Nat.shiftLeft_add_eq_or_of_lt (show z.toNat <<< 4 < 2 ^ 8 by rw [Nat.shiftLeft_eq]; omega),
    Nat.shiftLeft_eq, Nat.shiftLeft_eq,
    show y.toNat * 2 ^ 8 + z.toNat * 2 ^ 4 = (y.toNat * 2 ^ 4 + z.toNat) * 2 ^ 4 by omega, ← Nat.shiftLeft_eq,
    ← Nat.shiftLeft_add_eq_or_of_lt (show x.toNat < 2 ^ 4 by omega), Nat.shiftLeft_eq]
  omega

theorem linearIndex_lt (x y z : Coord) : linearIndex x y z < 4096 := by
  have hx := x.isLt
  have hy := y.isLt
  have hz := z.isLt
  unfold linearIndex
  omega

theorem cellOf_lt (x y z : Coord) : cellOf x y z < 4096 := (cellIndex x y z).isLt

/-- Different coordinates name different cells (41_section.md R161). -/
theorem linearIndex_inj {x y z x' y' z' : Coord} (h : linearIndex x y z = linearIndex x' y' z') :
    x = x' ∧ y = y' ∧ z = z' := by
  have h1 := x.isLt
  have h2 := y.isLt
  have h3 := z.isLt
  have h4 := x'.isLt
  have h5 := y'.isLt
  have h6 := z'.isLt
  unfold linearIndex at h
  refine ⟨BitVec.eq_of_toNat_eq ?_, BitVec.eq_of_toNat_eq ?_, BitVec.eq_of_toNat_eq ?_⟩ <;> omega

end Sys2Proof.Machine
end

