-- ==== Sys2Proof/Laws/PackedArray.lean ====
section
/-! SUPPORT. The packed array: the geometry of a width, one cell of a word bit by bit, read after write, the zeroed array, and
the repack, which is the loop of 41_section.md R166. -/

namespace Sys2Proof.Machine

/-! ## Geometry (40_packed_array.md R120 to R122) -/

theorem legalBpe_iff {b : Nat} : legalBpe b = true ↔ (1 ≤ b ∧ b ≤ 8) ∨ b = 14 := by
  unfold legalBpe
  rw [Bool.or_eq_true, Bool.and_eq_true, decide_eq_true_iff, decide_eq_true_iff, beq_iff_eq]

theorem legalBpe_bounds {b : Nat} (h : legalBpe b = true) : 1 ≤ b ∧ b ≤ 14 := by
  rcases legalBpe_iff.mp h with h | h <;> omega

/-- A width whose cells fit a word. -/
abbrev WordWidth (b : Nat) : Prop := 1 ≤ b ∧ b ≤ 64

theorem legalBpe_wordWidth {b : Nat} (h : legalBpe b = true) : WordWidth b := by
  have := legalBpe_bounds h
  exact ⟨this.1, by omega⟩

theorem cellsPerWord_pos {b : Nat} (h : WordWidth b) : 0 < cellsPerWord b :=
  Nat.div_pos h.2 h.1

theorem cellsPerWord_mul_le (b : Nat) : cellsPerWord b * b ≤ 64 := Nat.div_mul_le_self 64 b

/-- The slot of a cell lies inside the word (40_packed_array.md R122). -/
theorem slot_le {b s : Nat} (h : s < cellsPerWord b) : s * b + b ≤ 64 := by
  have h1 : (s + 1) * b ≤ cellsPerWord b * b := Nat.mul_le_mul_right b h
  have h2 := cellsPerWord_mul_le b
  rw [Nat.add_mul] at h1
  omega

theorem cellShift_le {b : Nat} (h : WordWidth b) (i : Nat) : cellShift b i + b ≤ 64 :=
  slot_le (Nat.mod_lt i (cellsPerWord_pos h))

/-- Cell `i` lies in word `k` exactly below this bound. -/
theorem wordIndex_lt {b i : Nat} (h : WordWidth b) (hi : i < 4096) : wordIndex b i < wordCount b := by
  have hc := cellsPerWord_pos h
  unfold wordIndex wordCount Config.nCells
  have : i / cellsPerWord b ≤ 4095 / cellsPerWord b := Nat.div_le_div_right (by omega)
  have h2 : (4096 + cellsPerWord b - 1) / cellsPerWord b = 4095 / cellsPerWord b + 1 := by
    rw [show 4096 + cellsPerWord b - 1 = 4095 + cellsPerWord b by omega, Nat.add_div_right _ hc]
  omega

/-! ## One cell of a word -/

theorem cellMask_getLsbD (b t : Nat) : (cellMask b).getLsbD t = (decide (t < 64) && decide (t < b)) := by
  simp [cellMask, BitVec.getLsbD_ofNat, Nat.testBit_two_pow_sub_one]

theorem cellMask_toNat {b : Nat} (h : b ≤ 64) : (cellMask b).toNat = 2 ^ b - 1 := by
  have : 2 ^ b ≤ 2 ^ 64 := Nat.pow_le_pow_right (by omega) h
  simp only [cellMask, BitVec.toNat_ofNat]
  exact Nat.mod_eq_of_lt (by have := Nat.two_pow_pos b; omega)

/-- The bits of a cell value are the bits of the word at the cell. -/
theorem wordCell_testBit {b : Nat} (w : Word) (sh t : Nat) :
    (wordCell b w sh).testBit t = (decide (t < b) && w.getLsbD (sh + t)) := by
  by_cases h64 : sh + t < 64
  · have ht : t < 64 := by omega
    rw [wordCell, BitVec.testBit_toNat, BitVec.getLsbD_and, BitVec.getLsbD_ushiftRight, cellMask_getLsbD]
    simp [ht, Bool.and_comm]
  · have hz : w.getLsbD (sh + t) = false := BitVec.getLsbD_of_ge w (sh + t) (by omega)
    rw [wordCell, BitVec.testBit_toNat, BitVec.getLsbD_and, BitVec.getLsbD_ushiftRight]
    simp [hz]

theorem wordCell_lt {b : Nat} (h : b ≤ 64) (w : Word) (sh : Nat) : wordCell b w sh < 2 ^ b := by
  have h1 : wordCell b w sh ≤ (cellMask b).toNat := by
    rw [wordCell, BitVec.toNat_and]
    exact Nat.and_le_right
  rw [cellMask_toNat h] at h1
  have := Nat.two_pow_pos b
  omega

/-- Writing slot `s` changes the bits of slot `s` and no other bit of the word (40_packed_array.md R125). -/
theorem wordWithCell_getLsbD {b s : Nat} (hb : 0 < b) (hs : s * b + b ≤ 64) (w : Word) (v p : Nat) (hp : p < 64) :
    (wordWithCell b w (s * b) v).getLsbD p = if p / b = s then v.testBit (p % b) else w.getLsbD p := by
  have hdiv : p / b = s ↔ s * b ≤ p ∧ p < s * b + b := by
    rw [Nat.div_eq_iff hb]
    constructor <;> intro h <;> constructor <;> omega
  simp only [wordWithCell, BitVec.getLsbD_or, BitVec.getLsbD_and, BitVec.getLsbD_not, BitVec.getLsbD_shiftLeft,
    cellMask_getLsbD, BitVec.getLsbD_ofNat, hp, decide_true, Bool.true_and]
  by_cases hin : p / b = s
  · obtain ⟨h1, h2⟩ := hdiv.mp hin
    have h3 : p - s * b = p % b := by
      have h4 := Nat.div_add_mod p b
      rw [hin, Nat.mul_comm] at h4
      omega
    have h5 : ¬ p < s * b := by omega
    have h6 : p % b < b := Nat.mod_lt p hb
    have h7 : p % b < 64 := by omega
    simp [hin, h5, h3, h6, h7]
  · rcases Nat.lt_or_ge p (s * b) with h1 | h1
    · simp [hin, h1]
    · have h2 : ¬ p - s * b < b := fun h => hin (hdiv.mpr ⟨h1, by omega⟩)
      simp [hin, h2]

/-- Reading a slot after writing it gives the value masked. -/
theorem wordCell_wordWithCell_same {b s : Nat} (hb : 0 < b) (hs : s * b + b ≤ 64) (w : Word) (v : Nat) :
    wordCell b (wordWithCell b w (s * b) v) (s * b) = v % 2 ^ b := by
  refine Nat.eq_of_testBit_eq fun t => ?_
  rw [wordCell_testBit, Nat.testBit_mod_two_pow]
  by_cases ht : t < b
  · have h1 : (s * b + t) / b = s := by
      rw [Nat.add_comm, Nat.add_mul_div_right _ _ hb, Nat.div_eq_of_lt ht, Nat.zero_add]
    have h2 : (s * b + t) % b = t := by
      rw [Nat.add_comm, Nat.add_mul_mod_self_right, Nat.mod_eq_of_lt ht]
    rw [wordWithCell_getLsbD hb hs w v _ (by omega)]
    simp [h1, h2, ht]
  · simp [ht]

/-- Writing a slot leaves every other slot as it was. -/
theorem wordCell_wordWithCell_other {b s r : Nat} (hb : 0 < b) (hs : s * b + b ≤ 64) (hr : r * b + b ≤ 64) (hne : r ≠ s)
    (w : Word) (v : Nat) : wordCell b (wordWithCell b w (s * b) v) (r * b) = wordCell b w (r * b) := by
  refine Nat.eq_of_testBit_eq fun t => ?_
  rw [wordCell_testBit, wordCell_testBit]
  by_cases ht : t < b
  · have h1 : (r * b + t) / b = r := by
      rw [Nat.add_comm, Nat.add_mul_div_right _ _ hb, Nat.div_eq_of_lt ht, Nat.zero_add]
    rw [wordWithCell_getLsbD hb hs w v _ (by omega)]
    simp [h1, hne]
  · simp [ht]

/-! ## PA_get, PA_set, PA_alloc -/

/-- A cell's bits are its word's bits at `[s(i)*b + b - 1 : s(i)*b]` (40_packed_array.md R122). -/
theorem paGet_testBit (a : PackedArray) (i t : Nat) :
    (paGet a i).testBit t
      = (decide (t < a.b) && (a.words.getD (wordIndex a.b i) 0).getLsbD (cellShift a.b i + t)) :=
  wordCell_testBit _ _ _

theorem paGet_lt {a : PackedArray} (h : WordWidth a.b) (i : Nat) : paGet a i < 2 ^ a.b := wordCell_lt h.2 _ _

@[simp] theorem paSet_b (a : PackedArray) (i v : Nat) : (paSet a i v).b = a.b := rfl

@[simp] theorem paSet_words_length (a : PackedArray) (i v : Nat) : (paSet a i v).words.length = a.words.length := by
  simp [paSet]

theorem paSet_getD_other (a : PackedArray) (i v k : Nat) (h : k ≠ wordIndex a.b i) :
    (paSet a i v).words.getD k 0 = a.words.getD k 0 := by
  rw [List.getD_eq_getElem?_getD, List.getD_eq_getElem?_getD, paSet, List.getElem?_set_ne (Ne.symm h)]

theorem paSet_getD_same {a : PackedArray} (i v : Nat) (h : wordIndex a.b i < a.words.length) :
    (paSet a i v).words.getD (wordIndex a.b i) 0
      = wordWithCell a.b (a.words.getD (wordIndex a.b i) 0) (cellShift a.b i) v := by
  rw [List.getD_eq_getElem?_getD, paSet, List.getElem?_set_self h]
  rfl

/-- Read after write: the written cell holds the value masked, every other cell what it held. -/
theorem paGet_paSet {a : PackedArray} (hb : WordWidth a.b) (hlen : a.words.length = wordCount a.b) {i : Nat} (hi : i < 4096)
    (v j : Nat) : paGet (paSet a i v) j = if j = i then v % 2 ^ a.b else paGet a j := by
  have hin : wordIndex a.b i < a.words.length := hlen ▸ wordIndex_lt hb hi
  have hread : paGet (paSet a i v) j
      = wordCell a.b ((paSet a i v).words.getD (wordIndex a.b j) 0) (cellShift a.b j) := rfl
  rw [hread]
  by_cases hw : wordIndex a.b j = wordIndex a.b i
  · rw [hw, paSet_getD_same i v hin]
    by_cases hij : j = i
    · rw [if_pos hij, hij]
      exact wordCell_wordWithCell_same hb.1 (cellShift_le hb i) _ v
    · have hslot : j % cellsPerWord a.b ≠ i % cellsPerWord a.b := by
        intro h
        apply hij
        unfold wordIndex at hw
        rw [← Nat.div_add_mod j (cellsPerWord a.b), ← Nat.div_add_mod i (cellsPerWord a.b), hw, h]
      rw [if_neg hij, paGet, hw]
      exact wordCell_wordWithCell_other hb.1 (cellShift_le hb i) (cellShift_le hb j) hslot _ v
  · have hij : j ≠ i := fun h => hw (h ▸ rfl)
    rw [if_neg hij, paSet_getD_other a i v _ hw, paGet]

@[simp] theorem paAlloc_b (b : Nat) : (paAlloc b).b = b := rfl

@[simp] theorem paAlloc_words_length (b : Nat) : (paAlloc b).words.length = wordCount b := by simp [paAlloc]

/-- Every cell of a new array reads 0 (40_packed_array.md R126). -/
@[simp] theorem paGet_paAlloc (b i : Nat) : paGet (paAlloc b) i = 0 := by
  have : (List.replicate (wordCount b) (0 : Word)).getD (wordIndex b i) 0 = 0 := by
    rw [List.getD_eq_getElem?_getD, List.getElem?_replicate]
    split <;> rfl
  refine Nat.eq_of_testBit_eq fun t => ?_
  rw [paGet_testBit]
  simp only [paAlloc, this]
  simp

/-! ## The repack -/

@[simp] theorem paRepack_b (b : Nat) (f : Nat → Nat) : (paRepack b f).b = b := rfl

@[simp] theorem paRepack_words_length (b : Nat) (f : Nat → Nat) : (paRepack b f).words.length = wordCount b := by
  simp [paRepack]

/-- The bits of a packed word after its first `n` slots. -/
theorem packWord_loop_getLsbD {b : Nat} (hb : WordWidth b) (f : Nat → Nat) (k n : Nat) (hn : n ≤ cellsPerWord b) (p : Nat)
    (hp : p < 64) :
    ((List.range n).foldl
      (fun w s => if k * cellsPerWord b + s < Config.nCells then wordWithCell b w (s * b) (f (k * cellsPerWord b + s)) else w)
      (0 : Word)).getLsbD p
      = (decide (p / b < n ∧ k * cellsPerWord b + p / b < 4096) && (f (k * cellsPerWord b + p / b)).testBit (p % b)) := by
  induction n with
  | zero => simp
  | succ n ih =>
    rw [List.range_succ, List.foldl_append]
    have ih' := ih (by omega)
    simp only [List.foldl_cons, List.foldl_nil]
    by_cases hlt : k * cellsPerWord b + n < 4096
    · rw [if_pos (show _ < Config.nCells from hlt), wordWithCell_getLsbD hb.1 (slot_le (by omega)) _ _ _ hp]
      by_cases hpn : p / b = n
      · simp [hpn, hlt]
      · have hlast : p / b < n + 1 ↔ p / b < n := by omega
        rw [if_neg hpn, ih']
        simp only [hlast]
    · have hlast : (p / b < n + 1 ∧ k * cellsPerWord b + p / b < 4096) ↔ (p / b < n ∧ k * cellsPerWord b + p / b < 4096) := by
        omega
      rw [if_neg (show ¬ _ < Config.nCells from hlt), ih']
      simp only [hlast]

/-- The bits of word `k` of a repacked array. -/
theorem packWord_getLsbD {b : Nat} (hb : WordWidth b) (f : Nat → Nat) (k p : Nat) (hp : p < 64) :
    (packWord b f k).getLsbD p
      = (decide (p / b < cellsPerWord b ∧ k * cellsPerWord b + p / b < 4096)
          && (f (k * cellsPerWord b + p / b)).testBit (p % b)) :=
  packWord_loop_getLsbD hb f k _ le_rfl p hp

/-- Every cell of a repacked array holds its value masked (41_section.md R170, R172). -/
theorem paGet_paRepack {b : Nat} (hb : WordWidth b) (f : Nat → Nat) {j : Nat} (hj : j < 4096) :
    paGet (paRepack b f) j = f j % 2 ^ b := by
  have hc := cellsPerWord_pos hb
  have hw : (paRepack b f).words.getD (wordIndex b j) 0 = packWord b f (wordIndex b j) := by
    simp [paRepack, wordIndex_lt hb hj]
  refine Nat.eq_of_testBit_eq fun t => ?_
  rw [paGet_testBit, Nat.testBit_mod_two_pow, paRepack_b, hw]
  by_cases ht : t < b
  · have hs := Nat.mod_lt j hc
    have hle := cellShift_le hb j
    have h1 : (cellShift b j + t) / b = j % cellsPerWord b := by
      rw [cellShift, Nat.add_comm, Nat.add_mul_div_right _ _ hb.1, Nat.div_eq_of_lt ht, Nat.zero_add]
    have h2 : (cellShift b j + t) % b = t := by
      rw [cellShift, Nat.add_comm, Nat.add_mul_mod_self_right, Nat.mod_eq_of_lt ht]
    have h3 : wordIndex b j * cellsPerWord b + j % cellsPerWord b = j := by
      rw [wordIndex, Nat.mul_comm, Nat.div_add_mod]
    rw [packWord_getLsbD hb f _ _ (by omega), h1, h2, h3]
    simp [ht, hs, hj]
  · simp [ht]

/-- The loop of 41_section.md R166 steps 2c and 2d, after `n` cells. -/
def repackLoop (b : Nat) (f : Nat → Nat) (n : Nat) : PackedArray :=
  (List.range n).foldl (fun a j => paSet a j (f j)) (paAlloc b)

theorem repackLoop_succ (b : Nat) (f : Nat → Nat) (n : Nat) :
    repackLoop b f (n + 1) = paSet (repackLoop b f n) n (f n) := by
  simp [repackLoop, List.range_succ]

@[simp] theorem repackLoop_b (b : Nat) (f : Nat → Nat) (n : Nat) : (repackLoop b f n).b = b := by
  induction n with
  | zero => rfl
  | succ n ih => rw [repackLoop_succ, paSet_b, ih]

@[simp] theorem repackLoop_words_length (b : Nat) (f : Nat → Nat) (n : Nat) :
    (repackLoop b f n).words.length = wordCount b := by
  induction n with
  | zero => simp [repackLoop]
  | succ n ih => rw [repackLoop_succ, paSet_words_length, ih]

theorem repackLoop_getLsbD {b : Nat} (hb : WordWidth b) (f : Nat → Nat) (n : Nat) (hn : n ≤ 4096) (k p : Nat) (hp : p < 64) :
    ((repackLoop b f n).words.getD k 0).getLsbD p
      = (decide (p / b < cellsPerWord b ∧ k * cellsPerWord b + p / b < n)
          && (f (k * cellsPerWord b + p / b)).testBit (p % b)) := by
  have hc := cellsPerWord_pos hb
  induction n with
  | zero =>
    have : (repackLoop b f 0).words.getD k 0 = 0 := by
      simp only [repackLoop, List.range_zero, List.foldl_nil, paAlloc, List.getD_eq_getElem?_getD, List.getElem?_replicate]
      split <;> rfl
    rw [this]
    simp
  | succ n ih =>
    have ih' := ih (by omega)
    rw [repackLoop_succ]
    by_cases hk : k = wordIndex b n
    · have hget : (paSet (repackLoop b f n) n (f n)).words.getD k 0
          = wordWithCell b ((repackLoop b f n).words.getD k 0) (cellShift b n) (f n) := by
        have := paSet_getD_same (a := repackLoop b f n) n (f n)
          (by rw [repackLoop_b, repackLoop_words_length]; exact wordIndex_lt hb (by omega))
        rw [repackLoop_b] at this
        rw [hk, this]
      rw [hget, cellShift, wordWithCell_getLsbD hb.1 (slot_le (Nat.mod_lt n hc)) _ _ _ hp, ih']
      have hkn : k * cellsPerWord b + n % cellsPerWord b = n := by
        rw [hk, wordIndex, Nat.mul_comm, Nat.div_add_mod]
      by_cases hpn : p / b = n % cellsPerWord b
      · have hlt := Nat.mod_lt n hc
        simp [hpn, hkn, hlt]
      · rw [if_neg hpn]
        have hlast : (p / b < cellsPerWord b ∧ k * cellsPerWord b + p / b < n)
            ↔ (p / b < cellsPerWord b ∧ k * cellsPerWord b + p / b < n + 1) := by omega
        simp only [hlast]
    · rw [paSet_getD_other _ _ _ _ (by rw [repackLoop_b]; exact hk), ih']
      have hlast : (p / b < cellsPerWord b ∧ k * cellsPerWord b + p / b < n)
          ↔ (p / b < cellsPerWord b ∧ k * cellsPerWord b + p / b < n + 1) := by
        refine ⟨fun h => ⟨h.1, by omega⟩, fun h => ⟨h.1, ?_⟩⟩
        rcases Nat.lt_or_ge (k * cellsPerWord b + p / b) n with h1 | h1
        · exact h1
        · exfalso
          apply hk
          have h2 : n = p / b + cellsPerWord b * k := by
            rw [Nat.mul_comm (cellsPerWord b)]
            omega
          rw [wordIndex, h2, Nat.add_mul_div_left _ _ hc, Nat.div_eq_of_lt h.1, Nat.zero_add]
      simp only [hlast]

theorem packedArray_ext {a a' : PackedArray} (hb : a.b = a'.b) (hw : a.words = a'.words) : a = a' := by
  cases a; cases a'; simp_all

/-- The repack computed word by word is the loop `PA_alloc(b)`, then `PA_set(NEW, j, f j)` for j in 0 to 4095. -/
theorem paRepack_eq_loop {b : Nat} (hb : WordWidth b) (f : Nat → Nat) : paRepack b f = repackLoop b f 4096 := by
  obtain ⟨n, hn⟩ : ∃ n, n = 4096 := ⟨_, rfl⟩
  rw [← hn]
  refine packedArray_ext (repackLoop_b b f n).symm (List.ext_getElem ?_ fun k h1 h2 => ?_)
  · rw [paRepack_words_length, repackLoop_words_length]
  · have e1 : (paRepack b f).words[k] = packWord b f k := by simp [paRepack]
    have e2 : (repackLoop b f n).words[k] = (repackLoop b f n).words.getD k 0 := by
      rw [List.getD_eq_getElem?_getD, List.getElem?_eq_getElem h2, Option.getD_some]
    rw [e1, e2]
    refine BitVec.eq_of_getLsbD_eq fun p hp => ?_
    rw [packWord_getLsbD hb f k p hp, repackLoop_getLsbD hb f n (by omega) k p hp, hn]

end Sys2Proof.Machine
end

