-- ==== Sys2Proof/Laws/PerInstr.lean ====
section
/-! SUPPORT. A family of statements with one lemma per command: the command's word lies in the command's own row of the table
of 30_encoding.md R94. -/

namespace Sys2Proof.Laws

/-- The word of a command has the match value of its row under the mask of its row (30_encoding.md R94). -/
def TableRow.Statement (i : Instr) : Prop := Sys2Proof.encode i &&& tableMask i = tableMatch i

/-- A full mask keeps every bit. -/
theorem mask_full (w : CmdWord) : w &&& 0xFFFFFFFF = w := BitVec.and_allOnes

theorem TableRow.init : TableRow.Statement .init := mask_full _

theorem TableRow.get (x y z : Coord) : TableRow.Statement (.get x y z) := by
  refine BitVec.eq_of_getLsbD_eq fun n hn => ?_
  simp only [encode, tableMask, tableMatch, encodeFields, BitVec.getLsbD_and, BitVec.getLsbD_append]
  interval_cases n <;> simp

theorem TableRow.set (x y z : Coord) (v : RawValue) : TableRow.Statement (.set x y z v) := by
  refine BitVec.eq_of_getLsbD_eq fun n hn => ?_
  simp only [encode, tableMask, tableMatch, encodeFields, BitVec.getLsbD_and, BitVec.getLsbD_append]
  interval_cases n <;> simp

theorem TableRow.peek (x y z : Coord) : TableRow.Statement (.peek x y z) := by
  refine BitVec.eq_of_getLsbD_eq fun n hn => ?_
  simp only [encode, tableMask, tableMatch, encodeFields, BitVec.getLsbD_and, BitVec.getLsbD_append]
  interval_cases n <;> simp

theorem TableRow.decode : TableRow.Statement .decode := mask_full _

theorem TableRow.encode : TableRow.Statement .encode := mask_full _

end Sys2Proof.Laws
end

