-- ==== Sys2Proof/Laws/Section.lean ====
section
/-! SUPPORT. The section: palette lookup, cells and their bits, and what each part of SET can do. -/

namespace Sys2Proof.Machine

/-! ## Modes and palette lookup -/

theorem direct_iff {c : Section} : c.direct = true ↔ 8 < c.bpe.toNat := by
  unfold Section.direct
  rw [decide_eq_true_iff]

theorem direct_eq_false_iff {c : Section} : c.direct = false ↔ c.bpe.toNat ≤ 8 := by
  rw [← Bool.not_eq_true, direct_iff]
  omega

/-- The lookup finds the lowest index (41_section.md R163). -/
theorem lookup_eq_some_iff {pal : List RawValue} {v : RawValue} {k : Nat} :
    lookup pal v = some k ↔ firstIndex pal v k := by
  unfold lookup firstIndex
  rw [List.findIdx?_eq_some_iff_getElem]
  constructor
  · rintro ⟨hk, he, hj⟩
    refine ⟨by simpa [List.getElem?_eq_getElem hk] using he, fun j hjk => ?_⟩
    have := hj j hjk
    rw [List.getElem?_eq_getElem (by omega)]
    simpa using this
  · rintro ⟨he, hj⟩
    obtain ⟨hk, he⟩ := List.getElem?_eq_some_iff.mp he
    refine ⟨hk, by simpa using he, fun j hjk => ?_⟩
    have := hj j hjk
    rw [List.getElem?_eq_getElem (by omega)] at this
    simpa using this

/-- The lookup finds nothing exactly when no entry is the value (41_section.md R163). -/
theorem lookup_eq_none_iff {pal : List RawValue} {v : RawValue} : lookup pal v = none ↔ v ∉ pal := by
  unfold lookup
  rw [List.findIdx?_eq_none_iff]
  simp only [beq_eq_false_iff_ne]
  exact ⟨fun h hv => h v hv rfl, fun h x hx he => h (he ▸ hx)⟩

/-- A value just appended is found at the end (41_section.md R173). -/
theorem lookup_append_new {pal : List RawValue} {v : RawValue} (h : v ∉ pal) : lookup (pal ++ [v]) v = some pal.length := by
  rw [lookup_eq_some_iff]
  refine ⟨by simp, fun j hj he => h ?_⟩
  rw [List.getElem?_append_left hj] at he
  exact List.mem_of_getElem? he

theorem firstIndex_lt {pal : List RawValue} {v : RawValue} {k : Nat} (h : firstIndex pal v k) : k < pal.length :=
  (List.getElem?_eq_some_iff.mp h.1).1

/-! ## Cells and their bits -/

/-- A section whose array has a width that fits a word and all its words. -/
def Section.Sound (c : Section) : Prop := WordWidth c.bpe.toNat ∧ c.words.length = wordCount c.bpe.toNat

theorem Section.Ok.sound {p : Params} {c : Section} (h : c.Ok p) : c.Sound :=
  ⟨legalBpe_wordWidth h.bpe_legal, h.words_length⟩

theorem cell_lt {c : Section} (h : c.Sound) (i : Nat) : c.cell i < 2 ^ c.bpe.toNat := paGet_lt h.1 i

theorem cell_testBit (c : Section) (i n : Nat) :
    (c.cell i).testBit n
      = (decide (n < c.bpe.toNat) && c.bit (i / (64 / c.bpe.toNat)) ((i % (64 / c.bpe.toNat)) * c.bpe.toNat + n)) :=
  paGet_testBit c.array i n

/-- The number a cell holds is the one PA_get reads. -/
theorem holds_iff {c : Section} (h : c.Sound) (i v : Nat) : c.holds i v ↔ c.cell i = v := by
  constructor
  · rintro ⟨hv, hb⟩
    refine Nat.eq_of_testBit_eq fun n => ?_
    rw [cell_testBit]
    by_cases hn : n < c.bpe.toNat
    · simp [hn, hb n hn]
    · have : v.testBit n = false :=
        Nat.testBit_lt_two_pow (lt_of_lt_of_le hv (Nat.pow_le_pow_right (by omega) (by omega)))
      simp [hn, this]
  · rintro rfl
    refine ⟨cell_lt h i, fun n hn => ?_⟩
    rw [cell_testBit]
    simp [hn]

theorem storeCell_cell {c : Section} (h : c.Sound) {i : Nat} (hi : i < 4096) (id j : Nat) :
    (storeCell c i id).cell j = if j = i then id % 2 ^ c.bpe.toNat else c.cell j :=
  paGet_paSet (a := c.array) h.1 h.2 hi id j

theorem storeCell_words_length (c : Section) (i id : Nat) : (storeCell c i id).words.length = c.words.length :=
  paSet_words_length c.array i id

theorem storeCell_sound {c : Section} (h : c.Sound) (i id : Nat) : (storeCell c i id).Sound :=
  ⟨h.1, (storeCell_words_length c i id).trans h.2⟩

/-- A store changes no bit outside its cell (40_packed_array.md R125). -/
theorem storeCell_bit_other {c : Section} (h : c.Sound) {i : Nat} (hi : i < 4096) (id k p : Nat)
    (hn : ¬ bitInCell c.bpe.toNat i k p) : (storeCell c i id).bit k p = c.bit k p := by
  have hc := cellsPerWord_pos h.1
  by_cases hp : p < 64
  · by_cases hk : k = wordIndex c.bpe.toNat i
    · have hlt : wordIndex c.array.b i < c.array.words.length := by
        show wordIndex c.bpe.toNat i < c.words.length
        rw [h.2]
        exact wordIndex_lt h.1 hi
      have hw : (storeCell c i id).words.getD k 0
          = wordWithCell c.bpe.toNat (c.words.getD k 0) (cellShift c.bpe.toNat i) id := by
        rw [hk]
        exact paSet_getD_same (a := c.array) i id hlt
      unfold Section.bit
      rw [hw, cellShift, wordWithCell_getLsbD h.1.1 (slot_le (Nat.mod_lt i hc)) _ _ _ hp, if_neg]
      intro hd
      rw [Nat.div_eq_iff h.1.1] at hd
      have h1 := hd.1
      have h2 := hd.2
      have h3 := h.1.1
      exact hn ⟨hk, h1, by simp only [cellsPerWord] at h2; omega⟩
    · unfold Section.bit
      rw [show (storeCell c i id).words.getD k 0 = c.words.getD k 0 from paSet_getD_other c.array i id k hk]
  · unfold Section.bit
    rw [BitVec.getLsbD_of_ge _ _ (by omega), BitVec.getLsbD_of_ge _ _ (by omega)]

/-! ## The raw value of a cell -/

theorem rawValueOf_direct {c : Section} (h : 8 < c.bpe.toNat) (v : Nat) : rawValueOf c v = BitVec.ofNat 14 v := by
  rw [rawValueOf, if_pos (direct_iff.mpr h)]

theorem rawValueOf_palette {c : Section} (h : c.bpe.toNat ≤ 8) (v : Nat) : rawValueOf c v = c.pal.getD v 0 := by
  rw [rawValueOf, direct_eq_false_iff.mpr h]
  rfl

/-! ## The parts of SET -/

/-- An expansion below 8 bits (41_section.md R170). -/
theorem expand_palette {c : Section} (h : c.bpe.toNat < 8) :
    (expand c).bpe.toNat = c.bpe.toNat + 1 ∧ (expand c).pal = c.pal ∧ (expand c).light = c.light ∧
    (expand c).words = (paRepack (c.bpe.toNat + 1) (fun j => c.cell j)).words := by
  have h2 : ¬ Config.palModeMaxBpe < c.bpe.toNat + 1 := by unfold Config.palModeMaxBpe; omega
  rw [expand, if_neg h2]
  exact ⟨by simp only [BitVec.toNat_ofNat]; omega, rfl, rfl, rfl⟩

/-- The switch to direct mode (41_section.md R171, R172). -/
theorem expand_direct {c : Section} (h : 8 ≤ c.bpe.toNat) :
    (expand c).bpe.toNat = 14 ∧ (expand c).pal = [] ∧ (expand c).light = c.light ∧
    (expand c).words = (paRepack 14 (fun j => (c.pal.getD (c.cell j) 0).toNat)).words := by
  have h2 : Config.palModeMaxBpe < c.bpe.toNat + 1 := by unfold Config.palModeMaxBpe; omega
  rw [expand, if_pos h2]
  refine ⟨rfl, rfl, rfl, ?_⟩
  simp only [Config.directBpe]

theorem expand_palette_sound {c : Section} (h : c.bpe.toNat < 8) : (expand c).Sound := by
  obtain ⟨hb, -, -, hw⟩ := expand_palette h
  refine ⟨by rw [hb]; exact ⟨by omega, by omega⟩, ?_⟩
  rw [hb, hw, paRepack_words_length]

theorem expand_direct_sound {c : Section} (h : 8 ≤ c.bpe.toNat) : (expand c).Sound := by
  obtain ⟨hb, -, -, hw⟩ := expand_direct h
  refine ⟨by rw [hb]; exact ⟨by omega, by omega⟩, ?_⟩
  rw [hb, hw, paRepack_words_length]

/-- An expansion below 8 bits copies every cell (41_section.md R170). -/
theorem expand_palette_cell {c : Section} (hs : c.Sound) (h : c.bpe.toNat < 8) {j : Nat} (hj : j < 4096) :
    (expand c).cell j = c.cell j := by
  obtain ⟨hb, -, -, hw⟩ := expand_palette h
  have harr : (expand c).array = paRepack (c.bpe.toNat + 1) (fun j => c.cell j) :=
    packedArray_ext hb hw
  have hlt := cell_lt hs j
  unfold Section.cell at hlt ⊢
  rw [harr, paGet_paRepack ⟨by omega, by omega⟩ _ hj]
  have : 2 ^ c.bpe.toNat ≤ 2 ^ (c.bpe.toNat + 1) := Nat.pow_le_pow_right (by omega) (by omega)
  exact Nat.mod_eq_of_lt (by unfold Section.cell; omega)

/-- The switch replaces every cell by its entry (41_section.md R172). -/
theorem expand_direct_cell {c : Section} (h : 8 ≤ c.bpe.toNat) {j : Nat} (hj : j < 4096) :
    (expand c).cell j = (c.pal.getD (c.cell j) 0).toNat := by
  obtain ⟨hb, -, -, hw⟩ := expand_direct h
  have harr : (expand c).array = paRepack 14 (fun j => (c.pal.getD (c.cell j) 0).toNat) :=
    packedArray_ext hb hw
  show paGet (expand c).array j = _
  rw [harr, paGet_paRepack ⟨by omega, by omega⟩ _ hj]
  exact Nat.mod_eq_of_lt (c.pal.getD (c.cell j) 0).isLt

/-- A section with the value appended to its palette. -/
def withAppended (c : Section) (v : RawValue) : Section := { c with pal := c.pal ++ [v] }

@[simp] theorem withAppended_bpe (c : Section) (v : RawValue) : (withAppended c v).bpe = c.bpe := rfl
@[simp] theorem withAppended_pal (c : Section) (v : RawValue) : (withAppended c v).pal = c.pal ++ [v] := rfl
@[simp] theorem withAppended_words (c : Section) (v : RawValue) : (withAppended c v).words = c.words := rfl
@[simp] theorem withAppended_light (c : Section) (v : RawValue) : (withAppended c v).light = c.light := rfl
@[simp] theorem withAppended_cell (c : Section) (v : RawValue) (i : Nat) : (withAppended c v).cell i = c.cell i := rfl

theorem withAppended_sound {c : Section} (h : c.Sound) (v : RawValue) : (withAppended c v).Sound := h

/-- All that SET can do to the section: a known id is stored; or the value is appended and its index stored; or the value is
appended, the width grows within palette mode and the index is stored; or the value is appended, the section switches to
direct mode and the value is stored (41_section.md R166 to R174). -/
theorem setValue_cases (c : Section) (i : Nat) (v : RawValue) :
    (8 < c.bpe.toNat ∧ setValue c i v = storeCell c i v.toNat) ∨
    (c.bpe.toNat ≤ 8 ∧ v = 0 ∧ setValue c i v = storeCell c i 0) ∨
    (c.bpe.toNat ≤ 8 ∧ v ≠ 0 ∧ ∃ k, firstIndex c.pal v k ∧ setValue c i v = storeCell c i k) ∨
    (c.bpe.toNat ≤ 8 ∧ v ≠ 0 ∧ v ∉ c.pal ∧ c.pal.length + 1 ≤ 2 ^ c.bpe.toNat ∧
      setValue c i v = storeCell (withAppended c v) i c.pal.length) ∨
    (c.bpe.toNat < 8 ∧ v ≠ 0 ∧ v ∉ c.pal ∧ 2 ^ c.bpe.toNat < c.pal.length + 1 ∧
      setValue c i v = storeCell (expand (withAppended c v)) i c.pal.length) ∨
    (c.bpe.toNat = 8 ∧ v ≠ 0 ∧ v ∉ c.pal ∧ 256 < c.pal.length + 1 ∧
      setValue c i v = storeCell (expand (withAppended c v)) i v.toNat) := by
  rcases Nat.lt_or_ge 8 c.bpe.toNat with hd | hd
  · refine .inl ⟨hd, ?_⟩
    rw [setValue, setId, if_pos (direct_iff.mpr hd)]
  · have hf := direct_eq_false_iff.mpr hd
    by_cases hv : v = 0
    · refine .inr (.inl ⟨hd, hv, ?_⟩)
      rw [setValue, setId, hf, hv]
      simp
    · have hid : setId c v = lookup c.pal v := by
        rw [setId, hf, if_neg Bool.false_ne_true, if_neg hv]
      cases hl : lookup c.pal v with
      | some k =>
        refine .inr (.inr (.inl ⟨hd, hv, k, lookup_eq_some_iff.mp hl, ?_⟩))
        rw [setValue, hid, hl]
      | none =>
        have hnew := lookup_eq_none_iff.mp hl
        have hset : setValue c i v = storeCell (appendValue c v) i (recomputeId (appendValue c v) v) := by
          rw [setValue, hid, hl]
        have hlen : (withAppended c v).pal.length = c.pal.length + 1 := by simp
        have happ : appendValue c v
            = if 2 ^ c.bpe.toNat < c.pal.length + 1 then expand (withAppended c v) else withAppended c v := by
          rw [← hlen]
          rfl
        by_cases hg : 2 ^ c.bpe.toNat < c.pal.length + 1
        · rw [if_pos hg] at happ
          rcases Nat.lt_or_ge c.bpe.toNat 8 with h8 | h8
          · refine .inr (.inr (.inr (.inr (.inl ⟨h8, hv, hnew, hg, ?_⟩))))
            obtain ⟨hb, hp, -, -⟩ := expand_palette (c := withAppended c v) h8
            have hnd : (expand (withAppended c v)).direct = false := by
              rw [direct_eq_false_iff, hb]
              simp only [withAppended_bpe]
              omega
            rw [hset, happ, recomputeId, hnd, hp, withAppended_pal, lookup_append_new hnew]
            simp
          · have h8' : c.bpe.toNat = 8 := by omega
            refine .inr (.inr (.inr (.inr (.inr ⟨h8', hv, hnew, ?_, ?_⟩))))
            · rw [h8'] at hg
              omega
            · obtain ⟨hb, -, -, -⟩ := expand_direct (c := withAppended c v) h8
              have hdir : (expand (withAppended c v)).direct = true := by
                rw [direct_iff, hb]
                omega
              rw [hset, happ, recomputeId, hdir]
              simp
        · rw [if_neg hg] at happ
          refine .inr (.inr (.inr (.inl ⟨hd, hv, hnew, by omega, ?_⟩)))
          have hnd : (withAppended c v).direct = false := hf
          rw [hset, happ, recomputeId, hnd, withAppended_pal, lookup_append_new hnew]
          simp

/-! ## Unused bits -/

/-- A repacked array has every bit that belongs to no cell 0 (10_state.md R38). -/
theorem cleanUnused_of_repack {c : Section} {b : Nat} {f : Nat → Nat} (hb : WordWidth b) (hbpe : c.bpe.toNat = b)
    (hw : c.words = (paRepack b f).words) : c.cleanUnused := by
  intro k hk p hp hno
  have hc := cellsPerWord_pos hb
  have hk' : k < wordCount b := by rw [hw, paRepack_words_length] at hk; exact hk
  have hget : c.words.getD k 0 = packWord b f k := by
    rw [hw]
    simp [paRepack, hk']
  unfold Section.bit
  rw [hget, packWord_getLsbD hb f k p hp]
  have : ¬ (p / b < cellsPerWord b ∧ k * cellsPerWord b + p / b < 4096) := by
    rintro ⟨h1, h2⟩
    refine hno _ h2 ⟨?_, ?_, ?_⟩
    · rw [hbpe]
      show k = _ / cellsPerWord b
      rw [Nat.mul_comm, Nat.mul_add_div hc, Nat.div_eq_of_lt h1, Nat.add_zero]
    · rw [hbpe]
      show (_ % cellsPerWord b) * b ≤ p
      rw [Nat.mul_comm k, Nat.mul_add_mod, Nat.mod_eq_of_lt h1]
      exact Nat.div_mul_le_self p b
    · rw [hbpe]
      show p < (_ % cellsPerWord b) * b + b
      rw [Nat.mul_comm k, Nat.mul_add_mod, Nat.mod_eq_of_lt h1]
      have := Nat.lt_div_mul_add (a := p) hb.1
      omega
  simp [this]

/-- A store keeps the unused bits as they are. -/
theorem cleanUnused_storeCell {c : Section} (hs : c.Sound) (h : c.cleanUnused) {i : Nat} (hi : i < 4096) (id : Nat) :
    (storeCell c i id).cleanUnused := by
  intro k hk p hp hno
  rw [storeCell_words_length] at hk
  rw [storeCell_bit_other hs hi id k p (hno i hi)]
  exact h k hk p hp hno

end Sys2Proof.Machine
end

