-- ==== Sys2Proof/Tests/Slice0.lean ====
section
/-! SUPPORT. Tests and witnesses. Every expected value of a test is one of spec/95_test_vectors.md (its id is in the name) or is
worked out by hand from the cited rule. A `test_witness_<Name>` shows values that meet the hypotheses of the statement
`Obligations.<Name>`, one set for each of its clauses, at boundary values where the clauses have ranges. -/

namespace Sys2Proof.Tests

open Sys2Proof Sys2Proof.Machine

-- The kernel evaluates many small facts here: one at a time, so that the compiler opens few threads.
set_option Elab.async false

/-! ## States -/

/-- The state after reset with another section. -/
def withSec (c : Section) : State := { State.reset with sec := c }

/-- A section of width 4 with cell 0 = `w`'s low digit and so on. -/
def sec4 (w : Word) (pal : List RawValue) : Section :=
  { bpe := 4, words := w :: List.replicate 255 0, pal := pal, light := [0xAB] }

/-- An idle state with data in every field: the tests' and witnesses' common start. -/
def base : State :=
  { withSec (sec4 2 [0, 7]) with
    inBuf := [(0, 0x04)], inLen := 1, outBuf := [(0, 0x09)], outLen := 1, result := 7, done := true }

/-- The next state of a command, the state itself where there is none. -/
def after (o : Host.Outcome State Fault Refusal) (s : State) : State :=
  match o with
  | .next t => t
  | .fault _ => s
  | .refused _ => s

/-- The state after `INIT` or `rst` and then some SETs. -/
def afterSets (s : State) (l : List (Coord × Coord × Coord × RawValue)) : State :=
  l.foldl (fun s c => after (exec (.set c.1 c.2.1 c.2.2.1 c.2.2.2) s) s) s

/-- The state whose input is `bs`. -/
def withInput (s : State) (bs : List Byte) : State :=
  { s with inBuf := Memory.cellsFrom 0 bs, inLen := BitVec.ofNat 16 bs.length }

/-! ## WellFormed: an ill-formed term for each check (30_encoding.md R99, R100; 10_state.md R35) -/

theorem test_wf_coordinates :
    (AsmLine.get 16 0 0).wellFormed = false ∧ (AsmLine.get 0 16 0).wellFormed = false ∧
    (AsmLine.get 0 0 16).wellFormed = false ∧ (AsmLine.peek 16 0 0).wellFormed = false ∧
    (AsmLine.peek 0 16 0).wellFormed = false ∧ (AsmLine.peek 0 0 16).wellFormed = false ∧
    (AsmLine.set 16 0 0 1).wellFormed = false ∧ (AsmLine.set 0 16 0 1).wellFormed = false ∧
    (AsmLine.set 0 0 16 1).wellFormed = false := by decide

theorem test_wf_value_and_index :
    (AsmLine.set 0 0 0 16384).wellFormed = false ∧ (AsmLine.setI 0 16384).wellFormed = false ∧
    (AsmLine.getI 4096).wellFormed = false ∧ (AsmLine.setI 4096 0).wellFormed = false ∧
    (AsmLine.peekI 4096).wellFormed = false := by decide

theorem test_wf_accepts_the_largest :
    (AsmLine.set 15 15 15 16383).wellFormed = true ∧ (AsmLine.setI 4095 16383).wellFormed = true := by decide

theorem test_wf_windows :
    (HostReg.pal 264).wellFormed Params.default = false ∧ (HostReg.inByte 16384).wellFormed Params.default = false ∧
    (HostReg.outByte 16384).wellFormed Params.default = false ∧ (HostReg.pal 263).wellFormed Params.default = true := by decide

/-! ## Decode: words written out from 30_encoding.md R94 (V-ENC) -/

theorem test_decode_init : decode 0b0000_0000_0000_0000_0000_0000_0000_0001#32 = .ok .init := by decide
theorem test_decode_get : decode 0b0000_0000_0000_0000_0000_0001_0000_0010#32 = .ok (.get 0 0 1) := by decide
theorem test_decode_get_last : decode 0x0000FFF2 = .ok (.get 15 15 15) := by decide
theorem test_decode_set : decode 0b0000_0001_0010_1100_0010_0101_0011_0011#32 = .ok (.set 3 2 5 300) := by decide
theorem test_decode_set_last : decode 0x3FFFFFF3 = .ok (.set 15 15 15 16383) := by decide
theorem test_decode_peek : decode 0b0000_0000_0000_0000_0000_0001_0000_0100#32 = .ok (.peek 0 0 1) := by decide
theorem test_decode_decode : decode 0b0000_0000_0000_0000_0000_0000_0000_0101#32 = .ok .decode := by decide
theorem test_decode_encode : decode 0b0000_0000_0000_0000_0000_0000_0000_0110#32 = .ok .encode := by decide

theorem test_encode_words :
    encode (.set 0 0 1 12) = 0x000C0103 ∧ encode (.set 1 0 0 7) = 0x00070013 ∧ encode (.get 15 15 15) = 0x0000FFF2 ∧
    encode (.peek 0 0 1) = 0x00000104 := by decide

theorem test_decode_reserved_opcode :
    decode 0x00000000 = .error (.reservedOpcode 0) ∧ decode 0x00000007 = .error (.reservedOpcode 7) ∧
    decode 0x0000000F = .error (.reservedOpcode 15) := by decide

theorem test_decode_reserved_bits :
    decode 0x40000003 = .error .reservedBits ∧ decode 0x80000005 = .error .reservedBits := by decide

theorem test_decode_unused_fields :
    decode 0x00010002 = .error .unusedField ∧ decode 0x00000011 = .error .unusedField ∧
    decode 0x00010004 = .error .unusedField ∧ decode 0x00001005 = .error .unusedField ∧
    decode 0x00000106 = .error .unusedField := by decide

theorem test_assemble_setI : (assemble (.setI 4095 1)).map encode = some 0x0001FFF3 := by decide

theorem test_decodeTableWord :
    decodeTableWord 32 0x012C2533 = some (.set 3 2 5 300) ∧ decodeTableWord 32 0x00010002 = none := by decide

theorem test_fetch_runs_the_word :
    step (State.reset.withFetchWord 32 0x00000102) = exec (.get 0 0 1) { State.reset with pend := some 0x00000102 } := rfl

/-! ## Packed array (V-PA) -/

theorem test_paSet_width5 :
    (paSet (paAlloc 5) 13 31).words.getD 1 0 = 0x00000000000003E0 ∧ paGet (paSet (paAlloc 5) 13 31) 13 = 31 ∧
    paGet (paSet (paAlloc 5) 13 31) 12 = 0 ∧ paGet (paSet (paAlloc 5) 13 31) 14 = 0 := by decide +kernel

theorem test_paSet_width3 :
    (paSet (paAlloc 3) 20 7).words.getD 0 0 = 0x7000000000000000 ∧ paGet (paSet (paAlloc 3) 20 7) 21 = 0 := by decide +kernel

theorem test_paSet_width14 : (paSet (paAlloc 14) 3 0x3FFF).words.getD 0 0 = 0x00FFFC0000000000 := by decide +kernel

theorem test_paSet_masks : (paSet (paAlloc 4) 0 0x13).words.getD 0 0 = 0x0000000000000003 := by decide +kernel

theorem test_paSet_last_cell :
    (paSet (paAlloc 7) 4095 0x55).words.getD 455 0 = 0x0000000000000055 ∧
    (paSet (paAlloc 6) 4095 63).words.getD 409 0 = 0x0000000FC0000000 := by decide +kernel

theorem test_paFromWords_checks_the_count :
    paFromWords 4 (List.replicate 255 0) = none ∧ paFromWords 4 (List.replicate 257 0) = none ∧
    paFromWords 4 (List.replicate 256 0) = some (paAlloc 4) := by decide +kernel

/-! ## INIT, GET, SET, PEEK (V-SRC, V-SEC) -/

theorem test_init_is_the_empty_section :
    (after (exec .init base) base).sec.pal = [0] ∧ (after (exec .init base) base).sec.bpe = 4 ∧
    (after (exec .init base) base).result = 7 := by decide +kernel

theorem test_V_SRC_1_set :
    let s := after (exec (.set 0 0 1 12) (withSec (sec4 0 [0, 7, 12]))) State.reset
    s.sec.words.getD 1 0 = 0x0000000000000002 ∧ s.sec.pal = [0, 7, 12] := by decide +kernel

theorem test_V_SEC_5_set_appends :
    let s := after (exec (.set 0 0 0 16383) State.reset) State.reset
    s.sec.pal = [0, 16383] ∧ s.sec.bpe = 4 ∧ s.sec.words.getD 0 0 = 1 := by decide +kernel

theorem test_get_through_the_palette :
    (after (exec (.get 0 0 0) (withSec (sec4 2 [0, 7, 12]))) State.reset).result = 12 := by decide +kernel

theorem test_V_SEC_8_get_fallback :
    (after (exec (.get 0 0 0) (withSec (sec4 5 [0]))) State.reset).result = 0 ∧
    statusWord (after (exec (.get 0 0 0) State.reset) State.reset) = 0x00000002 := by decide +kernel

theorem test_V_SEC_7_peek : (after (exec (.peek 1 0 0) (withSec (sec4 0x50 [0]))) State.reset).result = 5 := by decide +kernel

/-! ## DECODE and ENCODE (V-VAR, V-COD) -/

theorem test_varint_forms :
    varint 0 = [0x00] ∧ varint 127 = [0x7F] ∧ varint 128 = [0x80, 0x01] ∧ varint 263 = [0x87, 0x02] ∧ varint 300 = [0xAC, 0x02] ∧
    varint 4294967295 = [0xFF, 0xFF, 0xFF, 0xFF, 0x0F] := by decide

theorem test_readVarint_forms :
    readVarint [0x81, 0x00] = .ok (1, []) ∧ readVarint [0xFF, 0xFF, 0xFF, 0xFF, 0x0F] = .ok (0xFFFFFFFF, []) ∧
    readVarint [0x80, 0x80, 0x80, 0x80, 0x10] = .ok (0, []) ∧
    readVarint [0x80, 0x80, 0x80, 0x80, 0x80] = .error .decVarintLong ∧ readVarint [0x80] = .error .decShort := by decide

/-- The stream of V-COD-11: width 4, palette [0], 256 zero words, light data `AB CD`. -/
def stream11 : List Byte := [0x04, 0x01, 0x00, 0x00, 0x01, 0x80, 0x02] ++ List.replicate 2048 0 ++ [0xAB, 0xCD]

/-- Its section. -/
def section11 : Section := { bpe := 4, words := List.replicate 256 0, pal := [0], light := [0xAB, 0xCD] }

/-- The shortest stream DECODE accepts: width 1, no palette, 64 zero words (42_stream_codec.md R230). -/
def tinyStream : List Byte := [0x01, 0x00, 0x01, 0x40] ++ List.replicate 512 0

/-- Its section. -/
def tinySection : Section := { bpe := 1, words := List.replicate 64 0, pal := [], light := [] }

theorem test_tiny_decode : decodeStream Params.default tinyStream = .ok tinySection := by decide +kernel

theorem test_V_COD_11_decode : decodeStream Params.default stream11 = .ok section11 := by decide +kernel

theorem test_V_COD_11_encode : encodeSection Params.default section11 = stream11 := by decide +kernel

theorem test_decode_errors :
    decodeStream Params.default [] = .error .decShort ∧ decodeStream Params.default [0x09] = .error .decBadBpe ∧
    decodeStream Params.default [0x04, 0x81, 0x02] = .error .decPalLong ∧
    decodeStream Params.default [0x04, 0x00, 0x02] = .error .decBadMarker ∧
    decodeStream Params.default [0x04, 0x00, 0x01, 0x00] = .error .decBadWordcount ∧
    decodeStream Params.default [0x04, 0x01, 0x80, 0x80, 0x80, 0x80, 0x80] = .error .decVarintLong := by decide +kernel

theorem test_P5_decode_status :
    statusWord (after (exec .decode (withInput State.reset [0x04, 0x00, 0x02])) State.reset) = 0x00000056 := by decide +kernel

theorem test_V_COD_20_encode_status :
    let s := after (exec .encode (withSec (sec4 1 [0, 300]))) State.reset
    statusWord s = 0x00000096 ∧ s.outLen = 0 := by decide +kernel

theorem test_V_COD_21_encode_truncates :
    (encodeSection { Params.default with encWidePalette := .truncate } (sec4 1 [0, 300])).take 9
      = [0x04, 0x02, 0x00, 0x00, 0x00, 0x2C, 0x01, 0x80, 0x02] := by decide +kernel

/-! ## Commands, errors and faults (V-ERR) -/

theorem test_V_ERR_1_illegal : statusWord (hostWrite 0x0 0xF 0x00000000 State.reset) = 0x0000010A := by decide +kernel

theorem test_V_ERR_4_overrun :
    let s := hostWrite 0x14 0xF 5 { State.reset with pend := some 0x00000001 }
    s.inLen = 0 ∧ s.faultcode = 2 ∧ s.pend = some 0x00000001 := by decide +kernel

theorem test_unmapped_reads_zero_while_busy :
    (hostRead 0x20 0xF { State.reset with pend := some 0x00000001 }).rdata = 0 := by decide +kernel

/-! ## Witnesses: the invariant and the sections -/

/-- The section of `base` is one the block can hold. -/
theorem test_base_section_ok : base.sec.Ok base.params :=
  ⟨by decide, by decide +kernel, by rw [Section.palBound, if_neg (by decide)]; decide, by decide⟩

/-- `base` with another section, IN and control state meets the invariant when they do. -/
theorem test_base_inv (c : Section) (m : List Host.Cell) (n : BitVec 16) (p : Option CmdWord) (a : List Action)
    (d e f : Bool) (ec fc : BitVec 4) (hc : c.Ok base.params) (hm : bufferOk base.params.inMax m)
    (hp : ∀ w, p = some w → illegal w = false)
    (h1 : e = true ↔ ec ≠ 0) (h2 : ec.toNat ≤ 10) (h3 : f = true ↔ fc ≠ 0) (h4 : fc.toNat ≤ 2)
    (h5 : p.isSome = true → d = false ∧ e = false) :
    State.Inv { base with
      sec := c, inBuf := m, inLen := n, pend := p, agenda := a, done := d, err := e, fault := f, errcode := ec
      faultcode := fc } where
  params_legal := show base.params.Legal by decide
  section_ok := hc
  in_ok := hm
  out_ok := show Memory.wf base.outBuf ∧ ∀ c ∈ base.outBuf, c.1 < base.params.outMax by decide
  out_len := show base.outLen.toNat ≤ base.params.outMax by decide
  out_written := show ∀ k < base.outLen.toNat, (Memory.read base.outBuf k).isSome by decide
  status_ok := ⟨h1, h2, h3, h4, h5⟩
  pend_legal := hp

/-- IN of `base` is well formed. -/
theorem test_base_in_ok : bufferOk base.params.inMax base.inBuf :=
  show Memory.wf base.inBuf ∧ ∀ c ∈ base.inBuf, c.1 < base.params.inMax by decide

/-- The idle base state, with any agenda. -/
theorem test_idle_inv (a : List Action) : State.Inv { base with agenda := a } :=
  test_base_inv _ _ _ none a true false false 0 0 test_base_section_ok test_base_in_ok (by simp) (by decide) (by decide)
    (by decide) (by decide) (by decide)

/-- The base state with GET 0, 0, 0 pending, with any agenda. -/
theorem test_busy_inv (a : List Action) : State.Inv { base with pend := some 0x00000002, done := false, agenda := a } :=
  test_base_inv _ _ _ (some 0x00000002) a false false false 0 0 test_base_section_ok test_base_in_ok
    (by intro w hw; cases hw; decide) (by decide) (by decide) (by decide) (by decide) (by decide)

/-- A section of each width and palette the block can hold. -/
theorem test_section_ok (b : BitVec 5) (pal : List RawValue) (hb : legalBpe b.toNat = true)
    (h : (8 < b.toNat ∧ pal.length ≤ 256) ∨ (b.toNat ≤ 8 ∧ (pal.length ≤ 2 ^ b.toNat ∨ pal.length ≤ 255 + b.toNat))) :
    Section.Ok Params.default { bpe := b, words := (paAlloc b.toNat).words, pal := pal, light := [] } where
  bpe_legal := hb
  words_length := paAlloc_words_length _
  pal_bound := by
    unfold Section.palBound
    rcases h with ⟨h1, h2⟩ | ⟨h1, h2⟩
    · rw [if_pos (direct_iff.mpr h1)]
      exact h2
    · rw [if_neg (by rw [direct_iff]; exact not_lt.mpr h1)]
      exact h2
  light_bound := Nat.zero_le _

/-- The state with a zero array of width `b` and palette `pal`. -/
def flat (b : BitVec 5) (pal : List RawValue) : State :=
  withSec { bpe := b, words := (paAlloc b.toNat).words, pal := pal, light := [] }

/-- Its cells are 0. -/
theorem flat_cell (b : BitVec 5) (pal : List RawValue) (i : Nat) : (flat b pal).sec.cell i = 0 := paGet_paAlloc b.toNat i

/-! ## Witnesses: encoding -/

theorem test_witness_LegalWordsMatchTheTable : ∃ i, decode 0x012C2533 = .ok i := ⟨_, test_decode_set⟩

theorem test_witness_OperandsAreTheWordsFields :
    decode 0x0000FFF2 = .ok (.get 15 15 15) ∧ decode 0x00000104 = .ok (.peek 0 0 1) ∧
    decode 0x3FFFFFF3 = .ok (.set 15 15 15 16383) := by decide

theorem test_witness_AssemblerGivesTheWords :
    15 < 16 ∧ 16383 < 16384 ∧ 4095 < 4096 ∧ ¬ (16 < 16 ∧ 0 < 16 ∧ 0 < 16) ∧ 16384 ≤ 16384 ∧ 4096 ≤ 4096 := by decide

/-! ## Witnesses: the bus -/

theorem test_witness_OnlyAddressBits17To2Matter :
    ∀ n, 2 ≤ n → n < 18 → ((0xABC0000000010007 : BitVec 64) - base.params.base).getLsbD n
      = ((0x0000000000010004 : BitVec 64) - base.params.base).getLsbD n := by
  intro n h1 h2
  interval_cases n <;> decide

theorem test_witness_AddressDecodeIsTheRegisterMap :
    Params.default.Legal ∧ (HostReg.pal 263).wellFormed Params.default = true ∧
    (HostReg.inByte 16383).wellFormed Params.default = true ∧ (HostReg.outByte 16383).wellFormed Params.default = true ∧
    regAt Params.default 0x1FFFC = some (.inByte 16383) := by decide

/-- A block with short windows. -/
def shortWindows : State := State.resetWith { Params.default with inMax := 100, outMax := 100 }

/-- The first and the last offset of each gap of the address map. -/
theorem test_unmapped_offsets :
    ∀ addr ∈ [0x20, 0xFFC, 0x1420, 0xFFFC, 0x10190, 0x1FFFC, 0x20190, 0x3FFFC],
      unmappedOffset shortWindows.params (4 * regNumber shortWindows.params addr) := by
  intro addr h
  unfold unmappedOffset
  simp only [List.mem_cons, List.not_mem_nil, or_false] at h
  rcases h with rfl | rfl | rfl | rfl | rfl | rfl | rfl | rfl <;> decide

theorem test_witness_UnmappedAddressReadsZeroAndIgnoresWrites :
    shortWindows.params.Legal ∧ shortWindows.busy = false ∧
    unmappedOffset shortWindows.params (4 * regNumber shortWindows.params 0x20) :=
  ⟨by decide, rfl, test_unmapped_offsets _ (by simp)⟩

theorem test_witness_IdleReadsShowTheRegisters :
    base.Inv ∧ base.busy = false ∧ base.sec.pal[1]? = some 7 ∧ base.sec.pal.length ≤ 2 ∧ base.sec.pal.length ≤ 263 ∧
    Memory.read base.inBuf 0 = some 0x04 ∧ 0 < base.outLen.toNat ∧ Memory.read base.outBuf 0 = some 0x09 :=
  ⟨test_idle_inv [], by decide⟩

/-- `s` with one move to come. -/
def doing (s : State) (a : Action) : State := { s with agenda := [a] }

/-- `base` with GET 0, 0, 0 pending. -/
def busyBase : State := { base with pend := some 0x00000002, done := false }

theorem test_witness_HostReadChangesNothing :
    (doing busyBase (.read 0x4 0xF)).agenda = .read 0x4 0xF :: [] ∧ regAt busyBase.params 0x4 = some .status := by decide

/-- `shortWindows` with GET 0, 0, 0 pending and one move to come. -/
def busyShort (a : Action) : State := { shortWindows with pend := some 0x00000002, agenda := [a] }

theorem test_witness_BusyReadsShowStatusOnly :
    (busyShort (.read 0x4 0xF)).params.Legal ∧ (busyShort (.read 0x4 0xF)).busy = true ∧
    (busyShort (.read 0x4 0xF)).agenda = .read 0x4 0xF :: [] ∧ regAt shortWindows.params 0x4 = some .status ∧
    regAt shortWindows.params 0x8 = some .result ∧
    unmappedOffset shortWindows.params (4 * regNumber shortWindows.params 0x10190) ∧
    (busyShort (.write 0x10190 0xF 1)).agenda = .write 0x10190 0xF 1 :: [] :=
  ⟨by decide, rfl, rfl, by decide, by decide, test_unmapped_offsets _ (by simp), rfl⟩

theorem test_witness_WriteWhileBusyFaultsOverrun :
    busyBase.busy = true ∧ (doing busyBase (.write 0x0 0xF 1)).agenda = .write 0x0 0xF 1 :: [] ∧
    regAt busyBase.params 0x0 = some .cmd ∧ regAt busyBase.params 0x14 = some .inLen ∧
    regAt busyBase.params 0x10000 = some (.inByte 0) ∧ regAt busyBase.params 0x1FFFC = some (.inByte 16383) ∧
    busyBase.fault = false ∧ (raiseFault .overrun busyBase).fault = true := by decide

theorem test_witness_HostWritesStoreInputOnly :
    (doing base (.write 0x8 0xF 1)).agenda = .write 0x8 0xF 1 :: [] ∧ regAt base.params 0x8 = some .result ∧
    regAt base.params 0x1000 = some (.pal 0) ∧ regAt base.params 0x20000 = some (.outByte 0) ∧
    base.params.Legal ∧ base.busy = false ∧ 16383 < base.params.inMax := by decide

theorem test_witness_StepDoesNotDependOnBase :
    step (doing base (.read 0x4 0xF)) = .next (hostRead 0x4 0xF base) := rfl

/-! ## Witnesses: commands, errors and faults -/

theorem test_witness_CommandAcceptanceCases :
    regAt base.params 0x0 = some .cmd ∧ (raiseFault .overrun base).fault = true ∧ base.fault = false ∧
    busyBase.busy = true ∧ base.busy = false ∧ illegal 0x00000000 = true ∧ illegal 0x00000001 = false := by decide

theorem test_witness_StepRunsThePendingCommand :
    busyBase.pend = some 0x00000002 ∧ decode 0x00000002 = .ok (.get 0 0 0) ∧ busyBase.agenda = [] ∧
    (doing busyBase .engine).agenda = .engine :: [] ∧ base.pend = none ∧ base.agenda = [] ∧
    (doing base .engine).agenda = .engine :: [] := by decide

theorem test_witness_PendingCommandCompletes :
    State.Inv (doing busyBase (.write 0x14 0xF 5)) ∧ (doing busyBase (.write 0x14 0xF 5)).pend = some 0x00000002 ∧
    decode 0x00000002 = .ok (.get 0 0 0) ∧ .rst ∉ (doing busyBase (.write 0x14 0xF 5)).agenda :=
  ⟨test_busy_inv _, rfl, by decide, by decide⟩

theorem test_witness_FaultIsStickyUntilReset :
    let s := raiseFault .overrun base
    s.fault = true ∧ step (doing s .rst) = .next (hardReset s) ∧ step s = .next s ∧
    step (doing s (.write 0x0 0xF 1)) = .next s ∧ regAt s.params 0x0 = some .cmd := ⟨rfl, rfl, rfl, rfl, by decide⟩

theorem test_witness_OnlyHostWritesRaiseFaults :
    (∃ t, step (doing base (.write 0x0 0xF 0)) = .next t ∧ base.fault = false ∧ t.fault = true) ∧
    ∃ t, step (doing busyBase (.write 0x14 0xF 5)) = .next t ∧ busyBase.fault = false ∧ t.fault = true :=
  ⟨⟨_, rfl, rfl, by decide +kernel⟩, ⟨_, rfl, rfl, by decide +kernel⟩⟩

theorem test_witness_ErrorStaysUntilTheNextCommand (a : List Action) :
    State.Inv { base with agenda := a, err := true, errcode := 5 } ∧
    ({ base with agenda := a, err := true, errcode := 5 } : State).err = true ∧ regAt base.params 0x0 = some .cmd ∧
    base.fault = false :=
  ⟨test_base_inv _ _ _ none a true true false 5 0 test_base_section_ok test_base_in_ok (by simp) (by decide) (by decide)
    (by decide) (by decide) (by decide), rfl, by decide, rfl⟩

/-- The states a failing DECODE and a failing ENCODE leave. -/
def failedDecode : State := after (exec .decode State.reset) State.reset

@[inherit_doc failedDecode] def failedEncode : State := after (exec .encode (flat 4 [0, 300])) State.reset

theorem test_witness_ErrorsArePrecise :
    (exec .decode State.reset = .next failedDecode ∧ State.reset.err = false ∧ failedDecode.err = true) ∧
    exec .encode (flat 4 [0, 300]) = .next failedEncode ∧ (flat 4 [0, 300]).err = false ∧ failedEncode.err = true :=
  ⟨⟨rfl, rfl, by decide +kernel⟩, rfl, rfl, by decide +kernel⟩

theorem test_witness_AgentsWriteTheirOwnState :
    step (doing base (.write 0x10000 0xF 5)) = .next (hostWrite 0x10000 0xF 5 base) ∧
    exec .init base = .next (complete { base with sec := emptySection base.params }) := ⟨rfl, rfl⟩

theorem test_witness_HandshakeAvoidsOverrun :
    State.Inv (doing busyBase (.read 0x4 0xF)) ∧ keepsHandshake (doing busyBase (.read 0x4 0xF)) (.read 0x4 0xF) = true ∧
    State.Inv (doing base (.write 0x0 0xF 1)) ∧ keepsHandshake (doing base (.write 0x0 0xF 1)) (.write 0x0 0xF 1) = true ∧
    keepsHandshake busyBase (.write 0x8 0xF 1) = true ∧ keepsHandshake busyBase (.write 0x0 0xF 1) = false ∧
    keepsHandshake busyBase (.read 0x14 0xF) = true ∧ keepsHandshake busyBase (.read 0x8 0xF) = false :=
  ⟨test_busy_inv _, by decide, test_idle_inv _, by decide, by decide, by decide, by decide, by decide⟩

/-! ## Witnesses: reset and the invariant -/

theorem test_witness_ResetMeetsTheInvariant :
    Params.default.Legal ∧ Params.Legal ⟨8, .empty, 127, .truncate, 16384, 16384, 16384, 0⟩ ∧
    Params.Legal ⟨1, .sentinel, 0, .refuse, 1, 1, 0, 0⟩ := by decide

theorem test_witness_ResetLeavesTheTableOfR290 :
    (doing busyBase .rst).params.Legal ∧ (doing busyBase .rst).agenda = .rst :: [] ∧
    busyBase.params.resetPalette = .sentinel ∧
    ({ Params.default with resetPalette := .empty, resetBpe := 8 } : Params).Legal := by decide

theorem test_witness_StepNeverStops : State.Inv (doing busyBase .engine) := test_busy_inv _

theorem test_witness_RstGivesTheResetState : (doing busyBase .rst).agenda = .rst :: [] := rfl

theorem test_witness_StepKeepsTheInvariant :
    State.Inv (doing base (.write 0x10000 0xF 5)) ∧
    ∃ t, step (doing base (.write 0x10000 0xF 5)) = .next t := ⟨test_idle_inv _, _, rfl⟩

theorem test_witness_ReachableStatesSatisfyR37 :
    Params.default.Legal ∧ Reachable Params.default (hostWrite 0x14 0xF 5 State.reset) ∧
    (hostWrite 0x14 0xF 5 State.reset).busy = false :=
  ⟨by decide, .move (.start [.write 0x14 0xF 5] 0 0) rfl, by decide +kernel⟩

/-! ## Witnesses: INIT, GET, PEEK, SET -/

theorem test_witness_GetReturnsTheRawValue :
    legalBpe (sec4 5 [0]).bpe.toNat = true ∧ (sec4 5 [0]).words.length = wordCount (sec4 5 [0]).bpe.toNat ∧
    (sec4 5 [0]).bpe.toNat ≤ 8 ∧ (sec4 5 [0]).cell 0 = 5 ∧ (sec4 5 [0]).pal.length ≤ 5 ∧ (sec4 5 [0]).cell 1 = 0 ∧
    0 < (sec4 5 [0]).pal.length ∧ legalBpe (flat 14 []).sec.bpe.toNat = true ∧
    (flat 14 []).sec.words.length = wordCount 14 ∧ 8 < (flat 14 []).sec.bpe.toNat := by decide +kernel

theorem test_witness_InitAllocatesTheEmptySection :
    base.params.Legal ∧ base.params.resetPalette = .sentinel ∧
    ({ Params.default with resetPalette := .empty, resetBpe := 1 } : Params).Legal := by decide

theorem test_witness_PeekReturnsTheRawCell :
    legalBpe (flat 14 []).sec.bpe.toNat = true ∧ (flat 14 []).sec.words.length = wordCount (flat 14 []).sec.bpe.toNat := by
  decide +kernel

/-- Two sections of width 3 that differ in bit 63 of word 0, which belongs to no cell. -/
def clean3 : Section := { bpe := 3, words := 0 :: List.replicate 195 0, pal := [0], light := [] }

@[inherit_doc clean3] def dirty3 : Section :=
  { bpe := 3, words := 0x8000000000000000 :: List.replicate 195 0, pal := [0], light := [] }

theorem test_witness_OnlyEncodeReadsUnusedBits : clean3.Ok Params.default ∧ clean3.sameCells dirty3 := by
  refine ⟨⟨by decide, by decide +kernel, by rw [Section.palBound, if_neg (by decide)]; decide, by decide⟩, rfl, rfl, rfl,
    by decide +kernel, ?_⟩
  intro i _ k p h
  have hb : clean3.bpe.toNat = 3 := rfl
  rw [hb] at h
  obtain ⟨hk, -, hp⟩ := h
  have h63 : p < 63 := by omega
  cases k with
  | zero =>
    have : (0x8000000000000000 : Word).getLsbD p = false := by
      interval_cases p <;> rfl
    change (0 : Word).getLsbD p = (0x8000000000000000 : Word).getLsbD p
    rw [this]
    interval_cases p <;> rfl
  | succ k => rfl

theorem test_witness_SetOfKnownValueStoresItsIndex :
    (flat 4 [0, 7]).sec.Ok (flat 4 [0, 7]).params ∧ (flat 4 [0, 7]).sec.bpe.toNat ≤ 8 ∧
    (7 : RawValue) ≠ 0 ∧ firstIndex (flat 4 [0, 7]).sec.pal 7 1 := by
  refine ⟨test_section_ok 4 [0, 7] (by decide) (by decide), by decide, by decide, rfl, ?_⟩
  intro j hj
  interval_cases j
  decide

theorem test_witness_SetInDirectModeStoresTheValue :
    (flat 14 []).sec.Ok (flat 14 []).params ∧ 8 < (flat 14 []).sec.bpe.toNat :=
  ⟨test_section_ok 14 [] (by decide) (by decide), by decide⟩

theorem test_witness_SetAppendsWithinTheWidth :
    (flat 1 [0]).sec.Ok (flat 1 [0]).params ∧ (flat 1 [0]).sec.bpe.toNat ≤ 8 ∧ (7 : RawValue) ≠ 0 ∧
    7 ∉ (flat 1 [0]).sec.pal ∧ (flat 1 [0]).sec.pal.length + 1 = 2 ^ (flat 1 [0]).sec.bpe.toNat :=
  ⟨test_section_ok 1 [0] (by decide) (by decide), by decide⟩

theorem test_witness_SetGrowsByOneBit :
    (flat 1 [0, 5]).sec.Ok (flat 1 [0, 5]).params ∧ (flat 1 [0, 5]).sec.bpe.toNat < 8 ∧ (7 : RawValue) ≠ 0 ∧
    7 ∉ (flat 1 [0, 5]).sec.pal ∧ 2 ^ (flat 1 [0, 5]).sec.bpe.toNat < (flat 1 [0, 5]).sec.pal.length + 1 :=
  ⟨test_section_ok 1 [0, 5] (by decide) (by decide), by decide⟩

/-- A full palette of width 8: 0 to 255. -/
def fullPalette : List RawValue := (List.range 256).map (BitVec.ofNat 14)

theorem test_witness_SetSwitchesToDirectMode :
    (flat 8 fullPalette).sec.Ok (flat 8 fullPalette).params ∧ (flat 8 fullPalette).sec.bpe.toNat = 8 ∧
    (256 : RawValue) ≠ 0 ∧ 256 ∉ (flat 8 fullPalette).sec.pal ∧ 256 < (flat 8 fullPalette).sec.pal.length + 1 :=
  ⟨test_section_ok 8 fullPalette (by decide) (by decide +kernel), by decide +kernel⟩

theorem test_witness_SetNeverLowersTheWidth :
    (∃ t, exec (.set 0 0 0 5) (flat 4 [0]) = .next t) ∧ (∃ t, exec (.set 0 0 0 5) (flat 14 []) = .next t) ∧
    8 < (flat 14 []).sec.bpe.toNat := ⟨⟨_, rfl⟩, ⟨_, rfl⟩, by decide⟩

theorem test_witness_UnusedBitsStayZero :
    Params.default.Legal ∧ (flat 3 [0]).sec.Ok Params.default ∧ (flat 3 [0]).sec.cleanUnused ∧
    (∃ t, exec .init (flat 3 [0]) = .next t) ∧ ∃ t, exec (.set 0 0 0 5) (flat 3 [0]) = .next t := by
  refine ⟨by decide, test_section_ok 3 [0] (by decide) (by decide), ?_, ⟨_, rfl⟩, ⟨_, rfl⟩⟩
  intro k hk p _ _
  have h : (flat 3 [0]).sec.words.getD k 0 = 0 := by
    simp [flat, withSec, paAlloc, List.getD_eq_getElem?_getD, List.getElem?_replicate]
    split <;> rfl
  rw [Section.bit, h]
  simp

theorem test_witness_GetAfterSetReturnsTheValue :
    (∃ t, (flat 14 []).sec.Ok (flat 14 []).params ∧ exec (.set 0 0 0 5) (flat 14 []) = .next t ∧ 8 < t.sec.bpe.toNat) ∧
    (∃ t, (flat 4 [0, 7]).sec.Ok (flat 4 [0, 7]).params ∧ exec (.set 0 0 0 7) (flat 4 [0, 7]) = .next t ∧
      t.sec.bpe.toNat ≤ 8 ∧ firstIndex t.sec.pal 7 1 ∧ 1 < 2 ^ t.sec.bpe.toNat) ∧
    (∃ t, exec (.set 0 0 0 0) (flat 4 [0, 7]) = .next t ∧ t.sec.bpe.toNat ≤ 8 ∧ t.sec.pal[0]? = some 0) ∧
    (∃ t, (flat 4 []).sec.Ok (flat 4 []).params ∧ exec (.set 0 0 0 0) (flat 4 []) = .next t ∧ t.sec.bpe.toNat ≤ 8 ∧
      t.sec.pal = []) ∧
    Params.default.Legal ∧ Params.default.resetPalette = .sentinel ∧ SetReachable Params.default State.reset := by
  refine ⟨⟨_, test_section_ok 14 [] (by decide) (by decide), rfl, by decide +kernel⟩,
    ⟨_, test_section_ok 4 [0, 7] (by decide) (by decide), rfl, by decide +kernel, ⟨by decide +kernel, ?_⟩, by decide +kernel⟩,
    ⟨_, rfl, by decide +kernel, by decide +kernel⟩,
    ⟨_, test_section_ok 4 [] (by decide) (by decide), rfl, by decide +kernel, by decide +kernel⟩, by decide, rfl, .start⟩
  intro j hj
  interval_cases j
  decide +kernel

theorem test_witness_SetPreservesEveryOtherCell :
    ((flat 1 [0, 5]).sec.Ok (flat 1 [0, 5]).params ∧ (flat 1 [0, 5]).sec.bpe.toNat ≤ 8 ∧
      (∀ j < 4096, (flat 1 [0, 5]).sec.cell j < (flat 1 [0, 5]).sec.pal.length) ∧
      ((1, 0, 0) : Coord × Coord × Coord) ≠ (0, 0, 0) ∧ ∃ t, exec (.set 0 0 0 9) (flat 1 [0, 5]) = .next t) ∧
    (base.sec.Ok base.params ∧ base.sec.bpe.toNat ≤ 8 ∧ base.sec.cell (linearIndex 0 0 0) = base.sec.pal.length ∧
      (9 : RawValue) ≠ 0 ∧ 9 ∉ base.sec.pal ∧ ∃ t, exec (.set 1 0 0 9) base = .next t) := by
  refine ⟨⟨test_section_ok 1 [0, 5] (by decide) (by decide), by decide, ?_, by decide, _, rfl⟩,
    test_base_section_ok, by decide, by decide +kernel, by decide, by decide, _, rfl⟩
  intro j _
  rw [flat_cell]
  decide

/-- SETs of the values 1 to `k`. -/
def setsTo (k : Nat) : List Instr := (List.range k).map fun j => .set 0 0 0 (BitVec.ofNat 14 (j + 1))

/-- They set `k` distinct nonzero values. -/
theorem test_setsTo {k : Nat} (hk : k < 16383) :
    (∀ i ∈ setsTo k, ∃ x y z v, i = .set x y z v ∧ v ≠ 0) ∧ ((setsTo k).filterMap setValueOf).toFinset.card = k := by
  have value : ∀ j < k, (BitVec.ofNat 14 (j + 1)).toNat = j + 1 := fun j hj => Nat.mod_eq_of_lt (by omega)
  constructor
  · intro i hi
    obtain ⟨j, hj, rfl⟩ := List.mem_map.mp hi
    refine ⟨_, _, _, _, rfl, fun h => ?_⟩
    have := value j (List.mem_range.mp hj)
    rw [h] at this
    simp at this
  · have hv : (setsTo k).filterMap setValueOf = (List.range k).map fun j => BitVec.ofNat 14 (j + 1) := by
      rw [setsTo, List.filterMap_map, ← List.filterMap_eq_map]
      rfl
    rw [hv, List.toFinset_card_of_nodup, List.length_map, List.length_range]
    refine List.Nodup.map_on (fun a ha b hb h => ?_) List.nodup_range
    have := congrArg BitVec.toNat h
    rw [value a (List.mem_range.mp ha), value b (List.mem_range.mp hb)] at this
    omega

/-- Palette lengths 256 and 257 with the sentinel: 255 and 256 distinct values. -/
theorem test_witness_GrowthFollowsTheSchedule :
    State.reset.params.Legal ∧ State.reset.sec = emptySection State.reset.params ∧
    State.reset.params.resetPalette = .sentinel ∧
    ((∀ i ∈ setsTo 255, ∃ x y z v, i = .set x y z v ∧ v ≠ 0) ∧ ((setsTo 255).filterMap setValueOf).toFinset.card = 255) ∧
    (∀ i ∈ setsTo 256, ∃ x y z v, i = .set x y z v ∧ v ≠ 0) ∧ ((setsTo 256).filterMap setValueOf).toFinset.card = 256 :=
  ⟨by decide, rfl, rfl, test_setsTo (by decide), test_setsTo (by decide)⟩

/-! ## Witnesses: streams -/

theorem test_witness_ReadVarintFollowsItsRule :
    (∀ b ∈ List.replicate 5 (0x80 : Byte), 128 ≤ b.toNat) ∧ (List.replicate 5 (0x80 : Byte)).length = 5 ∧
    (∀ b ∈ List.replicate 4 (0xFF : Byte), 128 ≤ b.toNat) ∧ (List.replicate 4 (0xFF : Byte)).length < 5 ∧
    (0x7F : Byte).toNat < 128 ∧ ([] : List Byte).length < 5 := by decide

theorem test_witness_VarintIsTheShortestForm :
    (127 : Nat) < 128 ∧ 128 ≤ 16383 ∧ 16383 < 16384 ∧ 4294967295 < 2 ^ 32 ∧ readVarint [0x81, 0x00] = .ok (1, []) := by
  decide

/-- A varint of the writer reads back. -/
theorem test_varintBytes {v : Nat} (hv : v < 2 ^ 32) : VarintBytes (varint v) v := fun r => readVarint_varint hv r

/-- The four places where a stream of width 1 with one palette entry has a varint. -/
theorem test_beforeVarint :
    ∀ pre ∈ [[0x01], [0x01, 0x01], [0x01, 0x01, 0x00, 0x05], [0x01, 0x01, 0x00, 0x05, 0x01]], BeforeVarint pre := by
  have one : VarintBytes [0x01] 1 := test_varintBytes (v := 1) (by decide)
  have entry : TagsOk [([0x00], 0x05)] := by
    intro e he
    rw [List.mem_singleton.mp he]
    exact ⟨0, test_varintBytes (v := 0) (by decide)⟩
  intro pre h
  simp only [List.mem_cons, List.not_mem_nil, or_false] at h
  rcases h with rfl | rfl | rfl | rfl
  · exact ⟨0x01, _, _, [], 1, by decide, one, by decide, by simp [TagsOk], one, .inl rfl⟩
  · exact ⟨0x01, _, _, [], 1, by decide, one, by decide, by simp [TagsOk], one, .inr (.inl ⟨by decide, rfl⟩)⟩
  · exact ⟨0x01, _, _, _, 1, by decide, one, by decide, entry, one, .inr (.inl ⟨by decide, rfl⟩)⟩
  · exact ⟨0x01, _, _, _, 1, by decide, one, by decide, entry, one, .inr (.inr ⟨rfl, rfl⟩)⟩

/-- Varint bytes that do not end: five, and four before the end of the input. -/
theorem test_witness_MalformedStreamsGiveTheirErrors :
    let p : Params := { Params.default with lightMax := 4 }
    p.inMax < (List.replicate 16385 (0 : Byte)).length ∧ legalBpe (0x0F : Byte).toNat = false ∧
    BeforeVarint [0x01, 0x01] ∧ (∀ c ∈ List.replicate 5 (0x80 : Byte), 128 ≤ c.toNat) ∧
    ([0x01, 0x01] ++ List.replicate 4 (0xFF : Byte)).length ≤ p.inMax ∧
    legalBpe (0x01 : Byte).toNat = true ∧ VarintBytes (varint 257) 257 ∧ VarintBytes (varint 256) 256 ∧ TagsOk [] ∧
    VarintBytes (varint 2) 2 ∧ VarintBytes (varint 1) 1 ∧ VarintBytes (varint 63) 63 ∧ VarintBytes (varint 64) 64 ∧
    64 = wordCount (0x01 : Byte).toNat ∧ (List.replicate 511 (0 : Byte)).length < 8 * 64 ∧
    (List.replicate 516 (0 : Byte)).length = 8 * 64 + p.lightMax ∧
    8 * 64 + p.lightMax < (List.replicate 517 (0 : Byte)).length ∧
    (0x01 :: varint 0 ++ entryBytes [] ++ varint 1 ++ varint 64 ++ List.replicate 517 0 : List Byte).length ≤ p.inMax :=
  ⟨by rw [List.length_replicate]; decide, by decide, test_beforeVarint _ (by simp), by decide, by decide, by decide,
    test_varintBytes (by decide), test_varintBytes (by decide), by simp [TagsOk], test_varintBytes (by decide),
    test_varintBytes (by decide), test_varintBytes (by decide), test_varintBytes (by decide), by decide +kernel⟩

theorem test_witness_TruncatedStreamsAreRefused :
    decodeStream Params.default tinyStream = .ok tinySection ∧ 515 + tinySection.light.length < tinyStream.length :=
  ⟨test_tiny_decode, by decide +kernel⟩

/-- The base state with `tinyStream` in IN. -/
def loaded : State := withInput base tinyStream

/-- `withInput` gives DECODE its bytes. -/
theorem test_loaded_input : inputBytes loaded = tinyStream := by
  have h : Memory.wf loaded.inBuf := Memory.wf_cellsFrom 0 tinyStream
  have hl : loaded.inLen.toNat = tinyStream.length := by decide +kernel
  rw [inputBytes, Memory.window_eq _ h, hl]
  refine List.ext_getElem? fun k => ?_
  by_cases hk : k < tinyStream.length
  · have hr : Memory.read loaded.inBuf k = tinyStream[k]? := by
      change Memory.read (Memory.cellsFrom 0 tinyStream) k = _
      rw [Memory.read_cellsFrom]
      simp
    simp [hk, hr]
  · simp [hk]

theorem test_witness_DecodeCommitsOrFails :
    decodeStream loaded.params (inputBytes loaded) = .ok tinySection ∧
    decodeStream State.reset.params (inputBytes State.reset) = .error .decShort :=
  ⟨by rw [test_loaded_input]; exact test_tiny_decode, rfl⟩

theorem test_witness_DecodeReadsTheWrittenInput :
    Memory.wf loaded.inBuf ∧ 0 < loaded.inLen.toNat ∧ Memory.read loaded.inBuf 0 = some 0x01 :=
  ⟨Memory.wf_cellsFrom 0 tinyStream, by decide +kernel, rfl⟩

/-- A block with TRUNCATE that holds the longest palette of palette mode, 263 entries, some above 255. -/
def truncating : State :=
  { State.resetWith { Params.default with encWidePalette := .truncate } with
    sec := (flat 8 ((List.range 263).map (BitVec.ofNat 14))).sec }

theorem test_truncating_inv : truncating.Inv where
  params_legal := by decide
  section_ok :=
    have h := test_section_ok 8 ((List.range 263).map (BitVec.ofNat 14)) (by decide) (by rw [List.length_map, List.length_range]; decide)
    ⟨h.bpe_legal, h.words_length, h.pal_bound, h.light_bound⟩
  in_ok := ⟨List.Pairwise.nil, by simp [truncating, State.resetWith]⟩
  out_ok := ⟨List.Pairwise.nil, by simp [truncating, State.resetWith]⟩
  out_len := by decide
  out_written := fun k hk => absurd hk (Nat.not_lt_zero k)
  status_ok := ⟨by decide, by decide, by decide, by decide, by decide⟩
  pend_legal := fun _ h => by cases h

theorem test_witness_EncodeWritesTheStream :
    (base.Inv ∧ (∀ e ∈ base.sec.pal, e.toNat ≤ 255) ∧ (base.sec.fields base.params).length ≤ base.params.outMax) ∧
    truncating.Inv ∧ truncating.params.encWidePalette = .truncate ∧
    (truncating.sec.fields truncating.params).length ≤ truncating.params.outMax :=
  ⟨⟨test_idle_inv [], show ∀ e ∈ ([0, 7] : List RawValue), e.toNat ≤ 255 by simp, by decide +kernel⟩, test_truncating_inv, rfl,
    by decide +kernel⟩

theorem test_witness_EncodeFailsWithoutOutput :
    (base.params.encWidePalette = .refuse ∧ ∃ e ∈ (flat 4 [0, 300]).sec.pal, 255 < e.toNat) ∧
    (∀ e ∈ shortWindows.sec.pal, e.toNat ≤ 255) ∧
    shortWindows.params.outMax < (encodeSection shortWindows.params shortWindows.sec).length :=
  ⟨⟨rfl, 300, by decide, by decide⟩,
    show ∀ e ∈ ([0] : List RawValue), e.toNat ≤ 255 by simp, by decide +kernel⟩

theorem test_witness_EncodedLength :
    (flat 14 []).sec.Ok Params.default ∧ (flat 8 fullPalette).sec.Ok Params.default ∧
    (flat 8 fullPalette).sec.bpe.toNat ≤ 8 ∧ 8710 + Params.default.lightMax ≤ Params.default.outMax :=
  ⟨test_section_ok 14 [] (by decide) (by decide), test_section_ok 8 fullPalette (by decide) (by decide +kernel), by decide,
    by decide⟩

/-- A small state, the state after its ENCODE, and a state whose input is the output of that ENCODE. -/
def small : State := { base with sec := (flat 1 [0, 5]).sec }

@[inherit_doc small] def encoded : State := after (exec .encode small) small

@[inherit_doc small] def handedOver : State := { small with inBuf := encoded.outBuf, inLen := encoded.outLen }

theorem test_small_section_ok : small.sec.Ok small.params := test_section_ok 1 [0, 5] (by decide) (by decide)

theorem test_witness_DecodeOfEncodeIsTheSection :
    small.Inv ∧ small.sec.pal.length ≤ 256 ∧ (∀ e ∈ small.sec.pal, e.toNat ≤ 255) ∧
    (encodeSection small.params small.sec).length ≤ small.params.inMax ∧ small.err = false ∧
    exec .encode small = .next encoded ∧ encoded.err = false ∧ handedOver.Inv ∧ handedOver.params = small.params ∧
    handedOver.inLen = encoded.outLen ∧
    ∀ k < encoded.outLen.toNat, Memory.read handedOver.inBuf k = Memory.read encoded.outBuf k := by
  have hl : (encodeSection small.params small.sec).length ≤ 16384 := by decide +kernel
  have hw : bufferOk base.params.inMax (Memory.overlay (encodeSection small.params small.sec) small.outBuf) := by
    refine ⟨Memory.wf_overlay (show Memory.wf small.outBuf by decide) _, fun c hc => ?_⟩
    rcases Memory.mem_overlay hc with h | h
    · exact Nat.lt_of_lt_of_le h hl
    · exact (show ∀ c ∈ small.outBuf, c.1 < base.params.inMax by decide) c h
  have hx : exec .encode small = .next encoded := by
    change execEncode small = .next (after (execEncode small) small)
    rcases execEncode_cases small with ⟨-, -, h⟩ | ⟨-, -, h⟩ | ⟨-, -, h⟩ <;> rw [h, after]
  have he : encoded.outBuf = Memory.overlay (encodeSection small.params small.sec) small.outBuf := by decide +kernel
  exact ⟨test_base_inv _ _ _ none [] true false false 0 0 test_small_section_ok test_base_in_ok (by simp) (by decide) (by decide)
      (by decide) (by decide) (by decide),
    by decide, show ∀ e ∈ ([0, 5] : List RawValue), e.toNat ≤ 255 by simp, hl, rfl, hx, by decide +kernel,
    test_base_inv _ _ _ none [] true false false 0 0 test_small_section_ok (by rw [he]; exact hw) (by simp) (by decide) (by decide)
      (by decide) (by decide) (by decide),
    by rw [handedOver, small], by rw [handedOver], fun _ _ => by rw [handedOver]⟩

theorem test_witness_ReencodeIsByteExact :
    decodeStream Params.default tinyStream = .ok tinySection ∧
    tinyStream = [tinySection.bpe.setWidth 8] ++ varint ([] : List Byte).length
      ++ ([] : List Byte).flatMap (fun v => varint Params.default.encTag.toNat ++ [v]) ++ varint 1 ++ varint 64
      ++ List.replicate 512 0 := ⟨test_tiny_decode, by decide +kernel⟩

theorem test_witness_BootSequenceLoadsTheStream :
    let s : State := { base with agenda := bootMoves base.params tinyStream }
    s.Inv ∧ s.busy = false ∧ s.fault = false ∧ decodeStream s.params tinyStream = .ok tinySection ∧
    s.agenda = bootMoves s.params tinyStream := ⟨test_idle_inv _, rfl, rfl, test_tiny_decode, rfl⟩

end Sys2Proof.Tests
end

section
/-! PROOFS. The sticky fault (10_state.md R31), and the invariant of every reachable state (10_state.md R37). -/

/-! ## What the engine and the host leave unchanged -/

namespace Sys2Proof.Machine

variable {s t : State}

/-- The engine's frame: a command touches no parameter, no input, no fault and none of the host's own fields. -/
theorem exec_frame {i : Instr} (h : exec i s = .next t) :
    t.params = s.params ∧ t.inBuf = s.inBuf ∧ t.inLen = s.inLen ∧ t.fault = s.fault ∧ t.faultcode = s.faultcode ∧
      t.agenda = s.agenda ∧ t.rdata = s.rdata := by
  rcases exec_cases h with ⟨-, rfl⟩ | ⟨_, _, _, -, rfl⟩ | ⟨_, _, _, _, -, rfl⟩ | ⟨_, _, _, -, rfl⟩ | ⟨_, -, -, rfl⟩ |
    ⟨_, -, -, rfl⟩ | ⟨_, -, -, rfl⟩ | ⟨-, -, rfl⟩ <;> exact ⟨rfl, rfl, rfl, rfl, rfl, rfl, rfl⟩

@[inherit_doc exec_frame] theorem engineStep_frame (h : engineStep s = .next t) :
    t.params = s.params ∧ t.inBuf = s.inBuf ∧ t.inLen = s.inLen ∧ t.fault = s.fault ∧ t.faultcode = s.faultcode ∧
      t.agenda = s.agenda ∧ t.rdata = s.rdata := by
  rcases engineStep_cases h with ⟨-, rfl⟩ | ⟨_, _, -, -, hx⟩
  · exact ⟨rfl, rfl, rfl, rfl, rfl, rfl, rfl⟩
  · exact exec_frame hx

@[simp] theorem hostWrite_params (addr : BitVec 64) (be : BitVec 4) (v : BitVec 32) (s : State) :
    (hostWrite addr be v s).params = s.params := by
  rcases hostWrite_cases addr be v s with h | ⟨-, -, -, h⟩ | ⟨-, -, -, -, h⟩ | ⟨-, -, -, -, h⟩ | ⟨-, -, h⟩ | ⟨_, -, -, h⟩ <;>
    rw [h]

/-- The parameters are fixed for a run (00_scope.md R7). -/
theorem step_params (h : step s = .next t) : t.params = s.params := by
  rcases step_cases h with ⟨-, he⟩ | ⟨_, -, he⟩ | ⟨_, _, _, -, rfl⟩ | ⟨_, _, _, _, -, rfl⟩ | ⟨_, -, rfl⟩
  · exact (engineStep_frame he).1
  · exact (engineStep_frame he).1
  · rfl
  · exact hostWrite_params ..
  · rfl

end Sys2Proof.Machine

/-! ## The sticky fault (10_state.md R31; 60_exceptions.md R266, R267) -/

namespace Sys2Proof.Machine

/-- After the first fault a host write records no other one (60_exceptions.md R267). -/
theorem hostWrite_fault_of_fault (addr : BitVec 64) (be : BitVec 4) (v : BitVec 32) {s : State} (hf : s.fault = true) :
    (hostWrite addr be v s).fault = true ∧ (hostWrite addr be v s).faultcode = s.faultcode := by
  rcases hostWrite_cases addr be v s with h | ⟨hc, -⟩ | ⟨hc, -⟩ | ⟨hc, -⟩ | ⟨-, -, h⟩ | ⟨_, -, -, h⟩
  · rw [h]; exact ⟨hf, rfl⟩
  · simp [hf] at hc
  · simp [hf] at hc
  · simp [hf] at hc
  · rw [h]; exact ⟨hf, rfl⟩
  · rw [h]; exact ⟨hf, rfl⟩

/-- A faulted block ignores a write of CMD, busy or not (10_state.md R31). -/
theorem hostWrite_cmd_of_fault {addr : BitVec 64} (be : BitVec 4) (v : BitVec 32) {s : State} (hf : s.fault = true)
    (hr : regAt s.params addr = some .cmd) : hostWrite addr be v s = s := by
  simp [hostWrite, hr, writeReg, writeCmd, hf]

/-- Only `rst` moves a recorded fault. -/
theorem step_fault_of_fault {s t : State} (hf : s.fault = true) (h : step s = .next t) (hr : s.agenda.head? ≠ some .rst) :
    t.fault = true ∧ t.faultcode = s.faultcode := by
  rcases step_cases h with ⟨-, he⟩ | ⟨_, -, he⟩ | ⟨_, _, _, -, rfl⟩ | ⟨addr, be, v, rest, -, rfl⟩ | ⟨rest, ha, -⟩
  · obtain ⟨-, -, -, hfault, hcode, -⟩ := engineStep_frame he
    exact ⟨hfault.trans hf, hcode⟩
  · obtain ⟨-, -, -, hfault, hcode, -⟩ := engineStep_frame he
    exact ⟨hfault.trans hf, hcode⟩
  · exact ⟨hf, rfl⟩
  · exact hostWrite_fault_of_fault addr be v (s := { s with agenda := rest }) hf
  · simp [ha] at hr

/-- Settles O19: of the two agents' moves only `rst` moves a recorded fault, and a CMD write then falls in the first case of
60_exceptions.md R263. -/
theorem faultIsStickyUntilReset : Obligations.FaultIsStickyUntilReset := by
  intro s t hf h
  refine ⟨step_fault_of_fault hf h, fun hr => ?rst, fun addr be v rest ha hr => ?cmd⟩
  case rst =>
    obtain ⟨rest, ha⟩ : ∃ rest, s.agenda = .rst :: rest := ⟨_, List.eq_cons_of_mem_head? hr⟩
    rw [step_of_cons ha] at h
    cases h
    exact ⟨rfl, rfl⟩
  case cmd =>
    rw [step_of_cons ha] at h
    cases h
    exact hostWrite_cmd_of_fault be v (s := { s with agenda := rest }) hf hr

end Sys2Proof.Machine

/-! ## Every operation keeps a section the block can hold (10_state.md R37; 41_section.md R178) -/

namespace Sys2Proof.Machine

/-- The palette bound in the two modes. -/
theorem palBound_iff {c : Section} :
    c.palBound ↔ (8 < c.bpe.toNat ∧ c.pal.length ≤ 256) ∨
      (c.bpe.toNat ≤ 8 ∧ (c.pal.length ≤ 2 ^ c.bpe.toNat ∨ c.pal.length ≤ 255 + c.bpe.toNat)) := by
  unfold Section.palBound
  split
  case isTrue hd =>
    have := direct_iff.mp hd
    simp only [Config.palDecodeMax]; omega
  case isFalse hd =>
    have := direct_eq_false_iff.mp (Bool.not_eq_true _ ▸ hd)
    omega

/-- The bound is at most 263 in either mode (41_section.md R178). -/
theorem palBound_le {c : Section} (h : c.palBound) : c.pal.length ≤ 263 := by
  rcases palBound_iff.mp h with ⟨-, h⟩ | ⟨h8, h | h⟩
  · omega
  · have : 2 ^ c.bpe.toNat ≤ 2 ^ 8 := Nat.pow_le_pow_right (by decide) h8
    omega
  · omega

theorem emptySection_ok {p : Params} (hp : p.Legal) : (emptySection p).Ok p := by
  obtain ⟨h1, h8, -⟩ := hp
  have hb : (emptySection p).bpe.toNat = p.resetBpe := by
    rw [emptySection_bpe, BitVec.toNat_ofNat]; omega
  have hpal : (emptySection p).pal.length ≤ 1 := by
    rw [emptySection_pal]
    cases p.resetPalette <;> decide
  exact ⟨legalBpe_iff.mpr (.inl (by omega)), by rw [hb]; exact List.length_replicate,
    palBound_iff.mpr (.inr ⟨by omega, .inr (by omega)⟩), Nat.zero_le _⟩

variable {p : Params} {c : Section}

theorem storeCell_ok (h : c.Ok p) (i id : Nat) : (storeCell c i id).Ok p :=
  ⟨h.bpe_legal, (storeCell_words_length c i id).trans h.words_length, h.pal_bound, h.light_bound⟩

/-- An append that the width still indexes. -/
theorem withAppended_ok (h : c.Ok p) (h8 : c.bpe.toNat ≤ 8) (hl : c.pal.length + 1 ≤ 2 ^ c.bpe.toNat) (v : RawValue) :
    (withAppended c v).Ok p :=
  ⟨h.bpe_legal, h.words_length, palBound_iff.mpr (.inr ⟨h8, .inl (by simpa using hl)⟩), h.light_bound⟩

/-- An append with a growth within palette mode: the width's growth makes up for the entry in either half of the bound of
41_section.md R178. -/
theorem expand_palette_ok (h : c.Ok p) (h8 : c.bpe.toNat < 8) (v : RawValue) : (expand (withAppended c v)).Ok p := by
  obtain ⟨hb, hpal, hlight, -⟩ := expand_palette (c := withAppended c v) h8
  rw [withAppended_bpe] at hb
  rw [withAppended_pal] at hpal
  refine ⟨legalBpe_iff.mpr (.inl (by omega)), (expand_palette_sound (c := withAppended c v) h8).2,
    palBound_iff.mpr (.inr ⟨by omega, ?_⟩), by rw [hlight]; exact h.light_bound⟩
  have hpow : 2 ^ (c.bpe.toNat + 1) = 2 * 2 ^ c.bpe.toNat := Nat.pow_succ'
  have hpos : 0 < 2 ^ c.bpe.toNat := Nat.two_pow_pos _
  have hbound := palBound_iff.mp h.pal_bound
  rw [hb, hpal, List.length_append, List.length_singleton, hpow]
  omega

/-- An append with the switch to direct mode, which drops the palette (41_section.md R172). -/
theorem expand_direct_ok (h : c.Ok p) (h8 : 8 ≤ c.bpe.toNat) (v : RawValue) : (expand (withAppended c v)).Ok p := by
  obtain ⟨hb, hpal, hlight, -⟩ := expand_direct (c := withAppended c v) h8
  refine ⟨by rw [hb]; decide, (expand_direct_sound (c := withAppended c v) h8).2, palBound_iff.mpr (.inl ?_),
    by rw [hlight]; exact h.light_bound⟩
  rw [hb, hpal]
  decide

/-- SET keeps the section one the block can hold, in each of its cases. -/
theorem setValue_ok (h : c.Ok p) (i : Nat) (v : RawValue) : (setValue c i v).Ok p := by
  rcases setValue_cases c i v with ⟨-, he⟩ | ⟨-, -, he⟩ | ⟨-, -, _, -, he⟩ | ⟨h8, -, -, hl, he⟩ | ⟨h8, -, -, -, he⟩ |
    ⟨h8, -, -, -, he⟩ <;> rw [he]
  · exact storeCell_ok h i _
  · exact storeCell_ok h i _
  · exact storeCell_ok h i _
  · exact storeCell_ok (withAppended_ok h h8 hl v) i _
  · exact storeCell_ok (expand_palette_ok h h8 v) i _
  · exact storeCell_ok (expand_direct_ok h h8.ge v) i _

/-- DECODE accepts only sections the block can hold: its checks are the clauses (42_stream_codec.md R216 to R223). -/
theorem decodeStream_ok {input : List Byte} (h : decodeStream p input = .ok c) : c.Ok p := by
  obtain ⟨b, _, n, _, pal, _, _, _, wc, r, -, hwidth, -, hn, hpal, -, -, -, hwc, hlen, hlight, rfl⟩ := decodeStream_eq_ok.mp h
  have hlegal := (readWidth_eq_ok.mp hwidth).2
  obtain ⟨es, hes, -, -, hmap⟩ := readPalette_ok hpal
  have hpalLen : pal.length = n := by rw [hmap, List.length_map, hes]
  have hb : (b.setWidth 5).toNat = b.toNat := by
    have := legalBpe_bounds hlegal
    rw [BitVec.toNat_setWidth]; omega
  refine ⟨by rw [hb]; exact hlegal, by rw [hb, ← hwc]; exact (readWords_spec wc hlen).1, palBound_iff.mpr ?_, hlight⟩
  have := legalBpe_bounds hlegal
  simp only [hb, hpalLen]
  omega

end Sys2Proof.Machine

/-! ## Every move keeps the invariant -/

namespace Sys2Proof.Machine

/-! ### The buffers -/

theorem bufferOk_nil (max : Nat) : bufferOk max [] := ⟨Memory.wf_nil, by simp⟩

theorem bufferOk_write {max : Nat} {m : List Host.Cell} (h : bufferOk max m) {k : Nat} (hk : k < max) (v : Byte) :
    bufferOk max (Memory.write m k v) := by
  refine ⟨Memory.wf_write h.1 k v, fun c hc => ?_⟩
  rcases Memory.mem_write hc with rfl | hc
  · exact hk
  · exact h.2 c hc

theorem bufferOk_overlay {max : Nat} {m : List Host.Cell} (h : bufferOk max m) {bs : List Byte} (hl : bs.length ≤ max) :
    bufferOk max (Memory.overlay bs m) := by
  refine ⟨Memory.wf_overlay h.1 bs, fun c hc => ?_⟩
  rcases Memory.mem_overlay hc with hc | hc
  · omega
  · exact h.2 c hc

/-! ### The updates of a state, one at a time -/

theorem faultBits_range (f : FaultCode) : faultBits f ≠ 0 ∧ (faultBits f).toNat ≤ 2 := by
  cases f <;> decide

variable {s t : State}

/-- The model's own fields are not in the invariant. -/
theorem State.Inv.withModelFields (h : s.Inv) (agenda : List Action) (rdata : BitVec 32) (draws : Nat) :
    State.Inv { s with agenda := agenda, rdata := rdata, draws := draws } :=
  { h with status_ok := { h.status_ok with } }

theorem State.Inv.nextDraw (h : s.Inv) : (nextDraw s).Inv := h.withModelFields s.agenda s.rdata (s.draws + 1)

theorem State.Inv.hostRead (h : s.Inv) (addr : BitVec 64) (be : BitVec 4) : (hostRead addr be s).Inv :=
  h.withModelFields s.agenda (readValue s addr) (s.draws + 1)

theorem State.Inv.withSection (h : s.Inv) {c : Section} (hc : c.Ok s.params) : State.Inv { s with sec := c } :=
  { h with section_ok := hc, status_ok := { h.status_ok with } }

theorem State.Inv.withResult (h : s.Inv) (v : RawValue) : State.Inv { s with result := v } :=
  { h with status_ok := { h.status_ok with } }

theorem State.Inv.withInLen (h : s.Inv) (n : BitVec 16) : State.Inv { s with inLen := n } :=
  { h with status_ok := { h.status_ok with } }

theorem State.Inv.withInByte (h : s.Inv) {k : Nat} (hk : k < s.params.inMax) (v : Byte) :
    State.Inv { s with inBuf := Memory.write s.inBuf k v } :=
  { h with in_ok := bufferOk_write h.in_ok hk v, status_ok := { h.status_ok with } }

/-- What an ENCODE that fails leaves of the output (42_stream_codec.md R226). -/
theorem State.Inv.withoutOutput (h : s.Inv) : State.Inv { s with outLen := 0 } :=
  { h with
    out_len := Nat.zero_le _
    out_written := fun k hk => absurd hk (Nat.not_lt_zero k)
    status_ok := { h.status_ok with } }

/-- What a successful ENCODE leaves of the output: OUT_LEN holds every length up to OUT_MAX. -/
theorem State.Inv.withOutput (h : s.Inv) {bs : List Byte} (hl : bs.length ≤ s.params.outMax) :
    State.Inv { s with outBuf := Memory.overlay bs s.outBuf, outLen := BitVec.ofNat 16 bs.length } := by
  obtain ⟨-, -, -, -, -, hmax, -⟩ := h.params_legal
  have hlen : (BitVec.ofNat 16 bs.length).toNat = bs.length := by rw [BitVec.toNat_ofNat]; omega
  refine { h with
    out_ok := bufferOk_overlay h.out_ok hl
    out_len := hlen.trans_le hl
    out_written := fun k hk => ?_
    status_ok := { h.status_ok with } }
  have hk' : k < bs.length := hlen ▸ hk
  rw [Memory.read_overlay h.out_ok.1, if_pos hk', List.getElem?_eq_getElem hk']
  rfl

/-- A completion ends BUSY, so nothing is asked of DONE and ERR any more. -/
theorem State.Inv.complete (h : s.Inv) : (complete s).Inv :=
  { h with
    status_ok := { h.status_ok with busy_clear := fun hb => by simp at hb }
    pend_legal := fun _ hw => by simp at hw }

theorem State.Inv.raiseErr (h : s.Inv) (e : ErrCode) : (raiseErr e s).Inv :=
  { h with
    status_ok :=
      { h.status_ok with
        err_code := iff_of_true rfl (errBits_range e).1
        err_known := (errBits_range e).2.2
        busy_clear := fun hb => by simp at hb }
    pend_legal := fun _ hw => by simp at hw }

theorem State.Inv.withFault (h : s.Inv) (f : FaultCode) : State.Inv { s with fault := true, faultcode := faultBits f } :=
  { h with
    status_ok :=
      { h.status_ok with
        fault_code := iff_of_true rfl (faultBits_range f).1
        fault_known := (faultBits_range f).2 } }

/-- The error bits may be cleared with DONE, whatever DONE becomes, while no command is pending. -/
theorem State.Inv.withErrCleared (h : s.Inv) (hb : s.busy = false) (d : Bool) :
    State.Inv { s with err := false, errcode := 0, done := d } :=
  { h with
    status_ok :=
      { h.status_ok with
        err_code := by simp
        err_known := Nat.zero_le _
        busy_clear := fun hb' => absurd (hb.symm.trans hb') Bool.false_ne_true } }

/-- An accepted command (60_exceptions.md R263). -/
theorem State.Inv.withAccepted (h : s.Inv) {w : CmdWord} (hw : illegal w = false) :
    State.Inv { s with err := false, errcode := 0, done := false, pend := some w } :=
  { h with
    status_ok :=
      { h.status_ok with
        err_code := by simp
        err_known := Nat.zero_le _
        busy_clear := fun _ => ⟨rfl, rfl⟩ }
    pend_legal := fun _ he => Option.some.inj he ▸ hw }

theorem resetWith_inv {p : Params} (hp : p.Legal) : (State.resetWith p).Inv where
  params_legal := hp
  section_ok := emptySection_ok hp
  in_ok := bufferOk_nil _
  out_ok := bufferOk_nil _
  out_len := Nat.zero_le _
  out_written := fun k hk => absurd hk (Nat.not_lt_zero k)
  status_ok :=
    { err_code := by simp [State.resetWith]
      err_known := Nat.zero_le _
      fault_code := by simp [State.resetWith]
      fault_known := Nat.zero_le _
      busy_clear := fun hb => by simp at hb }
  pend_legal := fun _ hw => by cases hw

theorem State.Inv.hardReset (h : s.Inv) : (hardReset s).Inv :=
  (resetWith_inv h.params_legal).withModelFields s.agenda s.rdata s.draws

/-! ### The two agents -/

theorem exec_inv {i : Instr} (h : s.Inv) (hx : exec i s = .next t) : t.Inv := by
  rcases exec_cases hx with ⟨-, rfl⟩ | ⟨_, _, _, -, rfl⟩ | ⟨_, _, _, _, -, rfl⟩ | ⟨_, _, _, -, rfl⟩ | ⟨c, -, hc, rfl⟩ |
    ⟨e, -, -, rfl⟩ | ⟨e, -, -, rfl⟩ | ⟨-, hl, rfl⟩
  · exact (h.withSection (emptySection_ok h.params_legal)).complete
  · exact (h.withResult _).complete
  · exact (h.withSection (setValue_ok h.section_ok _ _)).complete
  · exact (h.withResult _).complete
  · exact (h.nextDraw.withSection (decodeStream_ok hc)).complete
  · exact h.nextDraw.raiseErr e
  · exact h.withoutOutput.raiseErr e
  · exact (h.withOutput hl).complete

theorem engineStep_inv (h : s.Inv) (he : engineStep s = .next t) : t.Inv := by
  rcases engineStep_cases he with ⟨-, rfl⟩ | ⟨_, _, -, -, hx⟩
  · exact h
  · exact exec_inv h hx

/-- A slot of the IN window that answers is inside the buffer. -/
theorem inByte_lt_of_regAt {p : Params} {addr : BitVec 64} {k : Nat} (h : regAt p addr = some (.inByte k)) : k < p.inMax :=
  of_decide_eq_true (regOfNumber_eq_some h).1

theorem hostWrite_inv (h : s.Inv) (addr : BitVec 64) (be : BitVec 4) (v : BitVec 32) : (hostWrite addr be v s).Inv := by
  rcases hostWrite_cases addr be v s with he | ⟨-, -, -, he⟩ | ⟨-, hb, -, -, he⟩ | ⟨-, -, -, hv, he⟩ | ⟨-, -, he⟩ |
    ⟨k, -, hr, he⟩ <;> rw [he]
  · exact h
  · exact h.withFault .overrun
  · exact (h.withFault .illegalCmd).withErrCleared hb true
  · exact h.withAccepted hv
  · exact h.withInLen _
  · exact h.withInByte (inByte_lt_of_regAt hr) _

/-- The invariant is inductive. -/
theorem step_inv (h : s.Inv) (hs : step s = .next t) : t.Inv := by
  have hrest (rest : List Action) : State.Inv { s with agenda := rest } := h.withModelFields rest s.rdata s.draws
  rcases step_cases hs with ⟨-, he⟩ | ⟨rest, -, he⟩ | ⟨addr, be, rest, -, rfl⟩ | ⟨addr, be, v, rest, -, rfl⟩ | ⟨rest, -, rfl⟩
  · exact engineStep_inv h he
  · exact engineStep_inv (hrest rest) he
  · exact (hrest rest).hostRead addr be
  · exact hostWrite_inv (hrest rest) addr be v
  · exact (hrest rest).hardReset

/-! ### Reachable states -/

theorem reachable_params {p : Params} (h : Reachable p s) : s.params = p := by
  induction h with
  | start => rfl
  | move _ hs ih => rw [step_params hs, ih]

theorem reachable_inv {p : Params} (hp : p.Legal) (h : Reachable p s) : s.Inv := by
  induction h with
  | start agenda rdata draws => exact (resetWith_inv hp).withModelFields agenda rdata draws
  | move _ hs ih => exact step_inv ih hs

/-- A code is 0 exactly when its flag is clear: the form of (e) and (f) of 10_state.md R37. -/
theorem code_eq_zero_iff {flag : Bool} {code : BitVec 4} (h : flag = true ↔ code ≠ 0) : code = 0 ↔ flag = false := by
  rw [← Bool.not_eq_true, h, not_not]

end Sys2Proof.Machine

/-! ## The invariant of the spec, 10_state.md R37 -/

namespace Sys2Proof.Machine

/-- Settles O30: (a) to (f) are clauses of the invariant, which every reachable state meets, BUSY or not. -/
theorem reachableStatesSatisfyR37 : Obligations.ReachableStatesSatisfyR37 := by
  intro p s hp hr _
  have inv := reachable_inv hp hr
  have sec := inv.section_ok
  exact ⟨sec.bpe_legal, sec.words_length, palBound_le sec.pal_bound, reachable_params hr ▸ sec.light_bound,
    code_eq_zero_iff inv.status_ok.fault_code, code_eq_zero_iff inv.status_ok.err_code⟩

end Sys2Proof.Machine
end

section
/-! PROOFS. Unmapped addresses (20_memory.md R62). -/

namespace Sys2Proof.Machine

variable {p : Params} {s : State} {addr : BitVec 64}

/-- The register map has no slot in the gaps of the address map. Only the IN window needs the legal parameters: `IN_MAX` at
most 16384 keeps it below the OUT window. -/
theorem not_unmappedOffset_regOffset (hp : p.Legal) {r : HostReg} (hr : r.wellFormed p = true) :
    ¬ unmappedOffset p (regOffset r) := by
  obtain ⟨-, -, -, hin, -⟩ := hp
  unfold unmappedOffset
  cases r with
  | pal k =>
    have hk : k < 264 := of_decide_eq_true hr
    simp only [regOffset]; omega
  | inByte k =>
    have hk : k < p.inMax := of_decide_eq_true hr
    simp only [regOffset]; omega
  | outByte k =>
    have hk : k < p.outMax := of_decide_eq_true hr
    simp only [regOffset]; omega
  | cmd | status | result | bpe | palLen | inLen | outLen | lightLen => simp only [regOffset]; omega

/-- No register answers an access in a gap. -/
theorem regAt_eq_none_of_unmapped (hp : p.Legal) (hu : unmappedOffset p (4 * regNumber p addr)) : regAt p addr = none := by
  refine Option.eq_none_iff_forall_ne_some.mpr fun r hr => ?_
  obtain ⟨hwf, hoff⟩ := regOfNumber_eq_some hr
  exact not_unmappedOffset_regOffset hp hwf (hoff ▸ hu)

theorem readValue_of_regAt_none (h : regAt s.params addr = none) : readValue s addr = 0 := by
  rw [readValue, h]

theorem hostWrite_of_regAt_none (h : regAt s.params addr = none) (be : BitVec 4) (v : BitVec 32) :
    hostWrite addr be v s = s := by
  rw [hostWrite, h]

/-- Settles O9: no register answers there, so the read returns 0 and the write is dropped; a read never touches the error and
fault bits. None of it rests on BUSY = 0. -/
theorem unmappedAddressReadsZeroAndIgnoresWrites : Obligations.UnmappedAddressReadsZeroAndIgnoresWrites := by
  intro s addr be v hp _ hu
  have hnone : regAt s.params addr = none := regAt_eq_none_of_unmapped hp hu
  exact ⟨hostWrite_of_regAt_none hnone be v, readValue_of_regAt_none hnone, hostRead_err addr be s, hostRead_fault addr be s⟩

end Sys2Proof.Machine
end

section
/-! PROOFS. The operands of a decoded word (30_encoding.md R92, R93; 41_section.md R160). -/

namespace Sys2Proof

variable {w : CmdWord} {x y z : Coord} {v : RawValue}

/-- The only row of 30_encoding.md R94 that gives a GET takes its coordinates from X, Y and Z. -/
theorem operands_of_decode_get (h : decode w = .ok (.get x y z)) : x = fieldX w ∧ y = fieldY w ∧ z = fieldZ w := by
  obtain ⟨-, row⟩ := decode_ok h
  simp only [reduceCtorEq, false_and, false_or, or_false, Instr.get.injEq] at row
  exact row.1

@[inherit_doc operands_of_decode_get]
theorem operands_of_decode_peek (h : decode w = .ok (.peek x y z)) : x = fieldX w ∧ y = fieldY w ∧ z = fieldZ w := by
  obtain ⟨-, row⟩ := decode_ok h
  simp only [reduceCtorEq, false_and, false_or, or_false, Instr.peek.injEq] at row
  exact row.1

/-- The row of SET also takes its value, from VAL. -/
theorem operands_of_decode_set (h : decode w = .ok (.set x y z v)) :
    x = fieldX w ∧ y = fieldY w ∧ z = fieldZ w ∧ v = fieldVal w := by
  obtain ⟨-, row⟩ := decode_ok h
  simp only [reduceCtorEq, false_and, false_or, or_false, Instr.set.injEq] at row
  exact row.1

end Sys2Proof

namespace Sys2Proof.Machine

/-- No bit is lost in the 12-bit index: the shifts of 41_section.md R160 may be read over the numbers. -/
theorem cellOf_eq_shiftLeft_or (x y z : Coord) : cellOf x y z = y.toNat <<< 8 ||| z.toNat <<< 4 ||| x.toNat := by
  have hy : y.toNat <<< 8 < 2 ^ 12 := Nat.shiftLeft_lt y.isLt
  have hz : z.toNat <<< 4 < 2 ^ 12 := (Nat.shiftLeft_lt z.isLt).trans (by decide)
  simp only [cellOf, cellIndex, BitVec.toNat_or, BitVec.toNat_shiftLeft,
    BitVec.toNat_setWidth_of_le (show 4 ≤ 12 by decide), Nat.mod_eq_of_lt hy, Nat.mod_eq_of_lt hz]

/-- The three coordinate fields lie side by side, so the cell they name is IDX, bits [15:4] (30_encoding.md R92). -/
theorem cellOf_fields (w : CmdWord) : cellOf (fieldX w) (fieldY w) (fieldZ w) = w.toNat / 16 % 4096 := by
  rw [cellOf_eq_linearIndex, linearIndex, fieldX_toNat, fieldY_toNat, fieldZ_toNat]
  omega

/-- Settles O3: the rows of GET, PEEK and SET give the word's own fields as operands, and the cell the coordinate fields name
is IDX. -/
theorem operandsAreTheWordsFields : Obligations.OperandsAreTheWordsFields := by
  intro w x y z
  refine ⟨cellOf_eq_shiftLeft_or x y z, fun hget => ?_, fun hpeek => ?_, fun v hset => ?_⟩
  · obtain ⟨rfl, rfl, rfl⟩ := operands_of_decode_get hget
    exact cellOf_fields w
  · obtain ⟨rfl, rfl, rfl⟩ := operands_of_decode_peek hpeek
    exact cellOf_fields w
  · obtain ⟨rfl, rfl, rfl, rfl⟩ := operands_of_decode_set hset
    exact ⟨cellOf_fields w, fieldVal_toNat w⟩

end Sys2Proof.Machine
end

section
/-! PROOFS. PEEK returns the raw cell (40_packed_array.md R131). -/

namespace Sys2Proof

/-- Opcode 4 and RSV zero choose PEEK's row (30_encoding.md R94), and VAL is zero as the row wants it. -/
theorem decode_encodeFields_peek (y z x : Coord) : decode (encodeFields 0 y z x 4) = .ok (.peek x y z) := by
  have hrow : decode (encodeFields 0 y z x 4) = decodeCell (encodeFields 0 y z x 4) .peek := by
    simp [decode, fieldOp_encodeFields, fieldRsv_encodeFields]
  rw [hrow, decodeCell, if_pos (fieldVal_encodeFields ..), fieldX_encodeFields, fieldY_encodeFields, fieldZ_encodeFields]

end Sys2Proof

namespace Sys2Proof.Machine

variable {s t : State}

/-- A command that completes without a store to IN or OUT leaves both buffers' bytes as they were. -/
theorem completed_complete (hin : t.inBuf = s.inBuf) (hout : t.outBuf = s.outBuf) : Completed s (complete t) where
  not_busy := complete_busy t
  done := complete_done t
  in_bytes a := by rw [complete_inBuf, hin]
  out_bytes a := by rw [complete_outBuf, hout]

theorem exec_get_eq (x y z : Coord) (s : State) :
    exec (.get x y z) s = .next (complete { s with result := rawValueOf s.sec (s.sec.cell (cellOf x y z)) }) := rfl

theorem exec_peek_eq (x y z : Coord) (s : State) :
    exec (.peek x y z) s = .next (complete { s with result := BitVec.ofNat 14 (s.sec.cell (cellOf x y z)) }) := rfl

/-- In direct mode the raw value is the cell itself, so GET and PEEK are one command (40_packed_array.md R131). -/
theorem exec_get_eq_exec_peek (h : 8 < s.sec.bpe.toNat) (x y z : Coord) : exec (.get x y z) s = exec (.peek x y z) s := by
  rw [exec_get_eq, exec_peek_eq, rawValueOf_direct h]

/-- No legal width is above the 14 bits of RESULT, so a cell is not cut on its way there. -/
theorem ofNat_cell_toNat {c : Section} (hb : legalBpe c.bpe.toNat = true) (hs : c.Sound) (i : Nat) :
    (BitVec.ofNat 14 (c.cell i)).toNat = c.cell i := by
  have hlt : c.cell i < 2 ^ 14 := (cell_lt hs i).trans_le (Nat.pow_le_pow_right (by decide) (legalBpe_bounds hb).2)
  rw [BitVec.toNat_ofNat, Nat.mod_eq_of_lt hlt]

/-- Settles O34: RESULT takes the number PA_get reads, which is the one the cell's bits spell and fits RESULT; the rest is the
completion. -/
theorem peekReturnsTheRawCell : Obligations.PeekReturnsTheRawCell := by
  intro x y z s hb hlen
  have hs : s.sec.Sound := ⟨legalBpe_wordWidth hb, hlen⟩
  have hcell : s.sec.holds (linearIndex x y z) (BitVec.ofNat 14 (s.sec.cell (cellOf x y z))).toNat := by
    rw [ofNat_cell_toNat hb hs, holds_iff hs, cellOf_eq_linearIndex]
  exact ⟨_, exec_peek_eq x y z s, hcell, completed_complete rfl rfl, rfl, fun h => exec_get_eq_exec_peek h x y z,
    decode_encodeFields_peek y z x⟩

end Sys2Proof.Machine
end

section
/-! PROOFS. The coordinate map is a bijection (41_section.md R160, R161). -/

namespace Sys2Proof.Machine

variable {x y z x' y' z' : Coord}

/-- The inverse of 41_section.md R161: an index's three nibbles are the coordinates of its cell. -/
theorem cellIndex_nibbles (i : BitVec 12) :
    cellIndex (i.extractLsb' 0 4) (i.extractLsb' 8 4) (i.extractLsb' 4 4) = i := by
  refine BitVec.eq_of_toNat_eq ?_
  change cellOf _ _ _ = i.toNat
  rw [cellOf_eq_linearIndex, linearIndex]
  simp only [BitVec.extractLsb'_toNat, Nat.shiftRight_eq_div_pow]
  omega

/-- Different coordinates name different cells. -/
theorem cellIndex_inj (h : cellIndex x y z = cellIndex x' y' z') : x = x' ∧ y = y' ∧ z = z' :=
  linearIndex_inj (by rw [← cellOf_eq_linearIndex, ← cellOf_eq_linearIndex, cellOf, cellOf, h])

@[inherit_doc cellIndex_inj]
theorem cellOf_ne (h : (x', y', z') ≠ (x, y, z)) : cellOf x' y' z' ≠ cellOf x y z := by
  intro he
  obtain ⟨rfl, rfl, rfl⟩ := cellIndex_inj (BitVec.eq_of_toNat_eq he)
  exact h rfl

/-- Settles O5: the nibbles give a preimage of every index, and no other coordinates name the same cell. -/
theorem coordinateMapIsBijective : Obligations.CoordinateMapIsBijective := by
  refine ⟨fun i => ⟨(i.extractLsb' 0 4, i.extractLsb' 8 4, i.extractLsb' 4 4), cellIndex_nibbles i, fun c hc => ?_⟩,
    cellIndex_nibbles⟩
  obtain ⟨hx, hy, hz⟩ := cellIndex_inj (hc.trans (cellIndex_nibbles i).symm)
  exact Prod.ext hx (Prod.ext hy hz)

end Sys2Proof.Machine
end

section
/-! PROOFS. GET returns the raw value of a cell (41_section.md R165). -/

namespace Sys2Proof

/-- Opcode 2 and RSV zero choose GET's row (30_encoding.md R94), and VAL is zero as the row wants it. -/
theorem decode_encodeFields_get (y z x : Coord) : decode (encodeFields 0 y z x 2) = .ok (.get x y z) := by
  have hrow : decode (encodeFields 0 y z x 2) = decodeCell (encodeFields 0 y z x 2) .get := by
    simp [decode, fieldOp_encodeFields, fieldRsv_encodeFields]
  rw [hrow, decodeCell, if_pos (fieldVal_encodeFields ..), fieldX_encodeFields, fieldY_encodeFields, fieldZ_encodeFields]

end Sys2Proof

namespace Sys2Proof.Machine

/-- The raw value of cell `i`, which GET returns (41_section.md R165). -/
def Section.raw (c : Section) (i : Nat) : RawValue := rawValueOf c (c.cell i)

theorem exec_get_eq_raw (x y z : Coord) (s : State) :
    exec (.get x y z) s = .next (complete { s with result := s.sec.raw (cellOf x y z) }) := rfl

theorem get_returns_raw {x y z : Coord} {s : State} {v : RawValue} (h : s.sec.raw (cellOf x y z) = v) :
    ∃ u, exec (.get x y z) s = .next u ∧ u.result = v := ⟨_, exec_get_eq_raw x y z s, h⟩

variable {c : Section}

theorem raw_palette (h : c.bpe.toNat ≤ 8) (i : Nat) : c.raw i = c.pal.getD (c.cell i) 0 := rawValueOf_palette h _

theorem raw_direct (h : 8 < c.bpe.toNat) (i : Nat) : c.raw i = BitVec.ofNat 14 (c.cell i) := rawValueOf_direct h _

/-- Settles O33: RESULT takes the raw value of the number PA_get reads, which is the one the cell's bits spell; the rest is the
completion. -/
theorem getReturnsTheRawValue : Obligations.GetReturnsTheRawValue := by
  intro x y z s hb hlen
  have hs : s.sec.Sound := ⟨legalBpe_wordWidth hb, hlen⟩
  refine ⟨_, s.sec.cell (cellOf x y z), exec_get_eq_raw x y z s, ?cell, fun h8 hv => ?entry, fun h8 hv => ?fallback,
    fun h8 => ?direct, completed_complete rfl rfl, rfl, decode_encodeFields_get y z x⟩
  case cell => rw [holds_iff hs, cellOf_eq_linearIndex]
  case entry => rw [complete_result, raw_palette h8, List.getD_eq_getElem _ _ hv, List.getElem?_eq_getElem hv]
  case fallback => rw [complete_result, raw_palette h8, List.getD_eq_default _ _ hv]
  case direct => rw [complete_result, raw_direct h8, ofNat_cell_toNat hb hs]

end Sys2Proof.Machine
end

section
/-! PROOFS. INIT allocates the empty section (41_section.md R164). -/

namespace Sys2Proof.Machine

variable {p : Params}

theorem exec_init_eq (s : State) : exec .init s = .next (complete { s with sec := emptySection s.params }) := rfl

/-- A legal `RESET_BPE` fits the 5 bits of BPE. -/
theorem emptySection_bpe_toNat (hp : p.Legal) : (emptySection p).bpe.toNat = p.resetBpe := by
  obtain ⟨-, h8, -⟩ := hp
  rw [emptySection_bpe, BitVec.toNat_ofNat]
  omega

theorem emptySection_cell (hp : p.Legal) (i : Nat) : (emptySection p).cell i = 0 := by
  have harray : (emptySection p).array = paAlloc p.resetBpe := packedArray_ext (emptySection_bpe_toNat hp) rfl
  rw [Section.cell, harray, paGet_paAlloc]

/-- Every bit of the new array is 0, used or not. -/
theorem emptySection_bit (p : Params) (k n : Nat) : (emptySection p).bit k n = false := by
  have hword : (emptySection p).words.getD k 0 = 0 := by
    rw [emptySection_words]
    rcases Nat.lt_or_ge k (wordCount p.resetBpe) with hk | hk
    · exact List.getD_replicate _ hk
    · exact List.getD_eq_default _ _ (by simpa using hk)
  rw [Section.bit, hword]
  exact BitVec.getLsbD_zero

/-- Entry 0 of either reset palette reads 0: it is 0, or missing. -/
theorem emptySection_raw (hp : p.Legal) (i : Nat) : (emptySection p).raw i = 0 := by
  obtain ⟨-, h8, -⟩ := id hp
  rw [raw_palette ((emptySection_bpe_toNat hp).trans_le h8), emptySection_cell hp, emptySection_pal]
  cases p.resetPalette <;> rfl

/-- Settles O32: the section is `emptySection`, whose cells and unused bits are 0, and the rest is the completion. -/
theorem initAllocatesTheEmptySection : Obligations.InitAllocatesTheEmptySection := by
  intro s hp
  have hs : (emptySection s.params).Sound := (emptySection_ok hp).sound
  refine ⟨_, exec_init_eq s, emptySection_bpe_toNat hp, ?_, fun i _ => (holds_iff hs i 0).mpr (emptySection_cell hp i),
    fun k _ n _ _ => emptySection_bit s.params k n, fun h => ?_, fun h => ?_, rfl, completed_complete rfl rfl, rfl,
    by decide, fun x y z => get_returns_raw (emptySection_raw hp _)⟩
  · exact hs.2.trans (congrArg wordCount (emptySection_bpe_toNat hp))
  · rw [complete_sec, emptySection_pal, h]; rfl
  · rw [complete_sec, emptySection_pal, h]; rfl

end Sys2Proof.Machine
end

section
/-! PROOFS. SET and the width: the growth by one bit, the switch to direct mode, and no way back (41_section.md R169 to R173,
R176, R177, R179). -/

namespace Sys2Proof.Machine

theorem exec_set_eq (x y z : Coord) (v : RawValue) (s : State) :
    exec (.set x y z v) s = .next (complete { s with sec := setValue s.sec (cellOf x y z) v }) := rfl

/-- What a SET leaves of the section. -/
theorem exec_set_sec {x y z : Coord} {v : RawValue} {s t : State} (h : exec (.set x y z v) s = .next t) :
    t.sec = setValue s.sec (cellOf x y z) v := by
  rw [exec_set_eq] at h
  cases h
  rfl

theorem mem_of_firstIndex {pal : List RawValue} {v : RawValue} {k : Nat} (h : firstIndex pal v k) : v ∈ pal :=
  List.mem_of_getElem? h.1

variable {c : Section} {v : RawValue} {i : Nat}

/-! ## A value that SET knows, and a new one -/

/-- A value that palette mode has an id for: one store and nothing else (41_section.md R167, R174). -/
theorem setValue_of_known (h8 : c.bpe.toNat ≤ 8) (hknown : v = 0 ∨ v ∈ c.pal) : ∃ id, setValue c i v = storeCell c i id := by
  rcases setValue_cases c i v with ⟨hd, -⟩ | ⟨-, -, he⟩ | ⟨-, -, k, -, he⟩ | ⟨-, hv, hnew, -⟩ | ⟨-, hv, hnew, -⟩ |
    ⟨-, hv, hnew, -⟩
  · omega
  · exact ⟨0, he⟩
  · exact ⟨k, he⟩
  · exact (hknown.elim hv hnew).elim
  · exact (hknown.elim hv hnew).elim
  · exact (hknown.elim hv hnew).elim

/-- A new value is appended, and the width has room for it, grows by one bit or jumps to direct mode (41_section.md R168 to
R172). -/
theorem setValue_of_new (h8 : c.bpe.toNat ≤ 8) (hv : v ≠ 0) (hnew : v ∉ c.pal) :
    (c.pal.length + 1 ≤ 2 ^ c.bpe.toNat ∧ setValue c i v = storeCell (withAppended c v) i c.pal.length) ∨
    (c.bpe.toNat < 8 ∧ 2 ^ c.bpe.toNat < c.pal.length + 1 ∧
      setValue c i v = storeCell (expand (withAppended c v)) i c.pal.length) ∨
    (c.bpe.toNat = 8 ∧ 256 < c.pal.length + 1 ∧ setValue c i v = storeCell (expand (withAppended c v)) i v.toNat) := by
  rcases setValue_cases c i v with ⟨hd, -⟩ | ⟨-, h0, -⟩ | ⟨-, -, _, hk, -⟩ | ⟨-, -, -, hroom, he⟩ | ⟨hb, -, -, hfull, he⟩ |
    ⟨hb, -, -, hfull, he⟩
  · omega
  · exact absurd h0 hv
  · exact absurd (mem_of_firstIndex hk) hnew
  · exact .inl ⟨hroom, he⟩
  · exact .inr (.inl ⟨hb, hfull, he⟩)
  · exact .inr (.inr ⟨hb, hfull, he⟩)

/-- A new value that widens the array within palette mode (41_section.md R170). -/
theorem setValue_grow (h8 : c.bpe.toNat < 8) (hv : v ≠ 0) (hnew : v ∉ c.pal) (hfull : 2 ^ c.bpe.toNat < c.pal.length + 1) :
    setValue c i v = storeCell (expand (withAppended c v)) i c.pal.length := by
  rcases setValue_of_new (i := i) h8.le hv hnew with ⟨hroom, -⟩ | ⟨-, -, he⟩ | ⟨hb, -⟩
  · omega
  · exact he
  · omega

/-- A new value that no width of palette mode has room for (41_section.md R171, R172). -/
theorem setValue_switch (h8 : c.bpe.toNat = 8) (hv : v ≠ 0) (hnew : v ∉ c.pal) (hfull : 256 < c.pal.length + 1) :
    setValue c i v = storeCell (expand (withAppended c v)) i v.toNat := by
  rcases setValue_of_new (i := i) h8.le hv hnew with ⟨hroom, -⟩ | ⟨hb, -⟩ | ⟨-, -, he⟩
  · rw [h8] at hroom; omega
  · omega
  · exact he

/-! ## The expansions -/

/-- The new array of a growth has its unused bits 0 (10_state.md R38). -/
theorem expand_palette_cleanUnused (h : c.bpe.toNat < 8) : (expand c).cleanUnused := by
  obtain ⟨hb, -, -, hw⟩ := expand_palette h
  exact cleanUnused_of_repack ⟨by omega, by omega⟩ hb hw

@[inherit_doc expand_palette_cleanUnused]
theorem expand_direct_cleanUnused (h : 8 ≤ c.bpe.toNat) : (expand c).cleanUnused := by
  obtain ⟨hb, -, -, hw⟩ := expand_direct h
  exact cleanUnused_of_repack ⟨by omega, by omega⟩ hb hw

/-- A raw value fits a cell of direct mode. -/
theorem toNat_mod_direct {b : Nat} (hb : b = 14) (v : RawValue) : v.toNat % 2 ^ b = v.toNat := by
  rw [hb, Nat.mod_eq_of_lt v.isLt]

/-- The cell of a store holds the number stored, masked (40_packed_array.md R125). -/
theorem holds_storeCell_same (hs : c.Sound) (hi : i < 4096) (id : Nat) : (storeCell c i id).holds i (id % 2 ^ c.bpe.toNat) := by
  rw [holds_iff (storeCell_sound hs i id), storeCell_cell hs hi, if_pos rfl]

theorem holds_storeCell_other (hs : c.Sound) (hi : i < 4096) (id : Nat) {j : Nat} (hne : j ≠ i) :
    (storeCell c i id).holds j (c.cell j) := by
  rw [holds_iff (storeCell_sound hs i id), storeCell_cell hs hi, if_neg hne]

/-- Settles O39: the array is repacked one bit wider with every cell copied, and the store of the new index masks it. -/
theorem setGrowsByOneBit : Obligations.SetGrowsByOneBit := by
  intro x y z v s hok h8 hv hnew hfull
  have hset := setValue_grow (i := cellOf x y z) h8 hv hnew hfull
  have h8' : (withAppended s.sec v).bpe.toNat < 8 := h8
  obtain ⟨hb, hpal, hlight, -⟩ := expand_palette h8'
  have hs : (expand (withAppended s.sec v)).Sound := expand_palette_sound h8'
  have hsame := holds_storeCell_same hs (cellOf_lt x y z) s.sec.pal.length
  rw [← cellOf_eq_linearIndex]
  refine ⟨_, exec_set_eq x y z v s, ?_⟩
  rw [complete_sec, hset]
  refine ⟨hb, hpal, hlight, ?words, ?same, fun j hj hne n hn => ?other,
    cleanUnused_storeCell hs (expand_palette_cleanUnused h8') (cellOf_lt x y z) _, completed_complete rfl rfl, rfl⟩
  case words => exact (storeCell_words_length ..).trans (hs.2.trans (congrArg wordCount hb))
  case same => rwa [hb, withAppended_bpe] at hsame
  case other =>
    obtain rfl := (holds_iff hok.sound j n).mp hn
    have hcopied := expand_palette_cell (withAppended_sound hok.sound v) h8' hj
    exact hcopied ▸ holds_storeCell_other hs (cellOf_lt x y z) _ hne

/-- At the switch the palette has an entry for every 8-bit cell, so no cell falls outside the snapshot (41_section.md R179). -/
theorem snapshot_entry (hs : c.Sound) (h8 : c.bpe.toNat = 8) (hfull : 256 < c.pal.length + 1) (j : Nat) (v : RawValue) :
    (c.pal ++ [v])[c.cell j]? = some ((c.pal ++ [v]).getD (c.cell j) 0) := by
  have hlt := cell_lt hs j
  have hin : c.cell j < (c.pal ++ [v]).length := by
    rw [h8] at hlt
    rw [List.length_append]
    omega
  rw [List.getD_eq_getElem _ _ hin, List.getElem?_eq_getElem hin]

/-- Settles O40: the array is repacked with every cell's snapshot entry, and the cell named takes the value itself. -/
theorem setSwitchesToDirectMode : Obligations.SetSwitchesToDirectMode := by
  intro x y z v s hok h8 hv hnew hfull
  have hset := setValue_switch (i := cellOf x y z) h8 hv hnew hfull
  have h8' : 8 ≤ (withAppended s.sec v).bpe.toNat := h8.ge
  obtain ⟨hb, hpal, hlight, -⟩ := expand_direct h8'
  have hs : (expand (withAppended s.sec v)).Sound := expand_direct_sound h8'
  have hsame := holds_storeCell_same hs (cellOf_lt x y z) v.toNat
  rw [← cellOf_eq_linearIndex]
  refine ⟨_, exec_set_eq x y z v s, ?_⟩
  rw [complete_sec, hset]
  refine ⟨hb, hpal, hlight, ?words, ?same, fun j hj n hn => ?other,
    cleanUnused_storeCell hs (expand_direct_cleanUnused h8') (cellOf_lt x y z) _, completed_complete rfl rfl, rfl⟩
  case words => exact (storeCell_words_length ..).trans (hs.2.trans (congrArg wordCount hb))
  case same => rwa [toNat_mod_direct hb] at hsame
  case other =>
    obtain rfl := (holds_iff hok.sound j n).mp hn
    refine ⟨_, snapshot_entry hok.sound h8 hfull j v, fun hne => ?_⟩
    exact expand_direct_cell h8' hj ▸ holds_storeCell_other hs (cellOf_lt x y z) _ hne

/-- Settles O41: of the cases of SET only the two expansions move the width, and in direct mode neither is one. -/
theorem setNeverLowersTheWidth : Obligations.SetNeverLowersTheWidth := by
  intro x y z v s t h
  rw [exec_set_sec h]
  rcases setValue_cases s.sec (cellOf x y z) v with ⟨-, he⟩ | ⟨h8, -, he⟩ | ⟨h8, -, _, -, he⟩ | ⟨h8, -, -, -, he⟩ |
    ⟨h8, -, -, -, he⟩ | ⟨h8, -, -, -, he⟩ <;> rw [he]
  · exact ⟨.inl rfl, fun _ => ⟨rfl, rfl⟩⟩
  · exact ⟨.inl rfl, fun _ => ⟨rfl, rfl⟩⟩
  · exact ⟨.inl rfl, fun _ => ⟨rfl, rfl⟩⟩
  · exact ⟨.inl rfl, fun hd => by omega⟩
  · exact ⟨.inr (.inl ⟨h8, (expand_palette (c := withAppended s.sec v) h8).1⟩), fun hd => by omega⟩
  · exact ⟨.inr (.inr ⟨h8, (expand_direct (c := withAppended s.sec v) h8.ge).1⟩), fun hd => by omega⟩

end Sys2Proof.Machine
end

section
/-! PROOFS. The raw values after a SET: the cell named (41_section.md R180) and every other one (R181). -/

namespace Sys2Proof.Machine

variable {p : Params} {c : Section} {v : RawValue} {i j : Nat}

/-! ## Raw values under the parts of SET -/

theorem raw_storeCell_same (hs : c.Sound) (hi : i < 4096) (id : Nat) :
    (storeCell c i id).raw i = rawValueOf c (id % 2 ^ c.bpe.toNat) := by
  rw [Section.raw, storeCell_cell hs hi, if_pos rfl]
  rfl

theorem raw_storeCell_other (hs : c.Sound) (hi : i < 4096) (id : Nat) (hne : j ≠ i) : (storeCell c i id).raw j = c.raw j := by
  rw [Section.raw, storeCell_cell hs hi, if_neg hne]
  rfl

/-- An expansion keeps every raw value: below 8 bits it keeps the cell and the palette, and the switch puts the raw value
itself in the cell (41_section.md R170, R172). -/
theorem raw_expand (hs : c.Sound) (h8 : c.bpe.toNat ≤ 8) (hj : j < 4096) : (expand c).raw j = c.raw j := by
  rcases Nat.lt_or_eq_of_le h8 with hlt | heq
  · obtain ⟨hb, hpal, -, -⟩ := expand_palette hlt
    rw [raw_palette (by omega), raw_palette h8, hpal, expand_palette_cell hs hlt hj]
  · obtain ⟨hb, -, -, -⟩ := expand_direct heq.ge
    rw [raw_direct (by omega), raw_palette h8, expand_direct_cell heq.ge hj, BitVec.ofNat_toNat, BitVec.setWidth_eq]

theorem raw_setValue_of_known (hs : c.Sound) (h8 : c.bpe.toNat ≤ 8) (hknown : v = 0 ∨ v ∈ c.pal) (hi : i < 4096)
    (hne : j ≠ i) : (setValue c i v).raw j = c.raw j := by
  obtain ⟨id, he⟩ := setValue_of_known (i := i) h8 hknown
  rw [he, raw_storeCell_other hs hi id hne]

/-- In all three cases of a new value, every other cell reads its entry of the palette with the value appended. -/
theorem raw_setValue_of_new (hs : c.Sound) (h8 : c.bpe.toNat ≤ 8) (hv : v ≠ 0) (hnew : v ∉ c.pal) (hi : i < 4096)
    (hj : j < 4096) (hne : j ≠ i) : (setValue c i v).raw j = (c.pal ++ [v]).getD (c.cell j) 0 := by
  have hraw : (withAppended c v).raw j = (c.pal ++ [v]).getD (c.cell j) 0 := raw_palette (c := withAppended c v) h8 j
  have hs' : (withAppended c v).Sound := withAppended_sound hs v
  rcases setValue_of_new (i := i) h8 hv hnew with ⟨-, he⟩ | ⟨hlt, -, he⟩ | ⟨heq, -, he⟩
  · rw [he, raw_storeCell_other hs' hi _ hne, hraw]
  · rw [he, raw_storeCell_other (expand_palette_sound (c := withAppended c v) hlt) hi _ hne, raw_expand hs' h8 hj, hraw]
  · rw [he, raw_storeCell_other (expand_direct_sound (c := withAppended c v) heq.ge) hi _ hne, raw_expand hs' h8 hj, hraw]

/-- An append is seen by no cell whose index was inside the palette. -/
theorem raw_setValue_of_inside (hs : c.Sound) (h8 : c.bpe.toNat ≤ 8) (hin : c.cell j < c.pal.length) (hi : i < 4096)
    (hj : j < 4096) (hne : j ≠ i) : (setValue c i v).raw j = c.raw j := by
  by_cases hknown : v = 0 ∨ v ∈ c.pal
  · exact raw_setValue_of_known hs h8 hknown hi hne
  · obtain ⟨hv, hnew⟩ := not_or.mp hknown
    rw [raw_setValue_of_new hs h8 hv hnew hi hj hne, raw_palette h8, List.getD_append _ _ _ _ hin]

/-! ## The cell that SET names -/

/-- SET stores, in the mode it ends in, the value's own id: the value in direct mode, 0 for 0, the lowest index otherwise
(41_section.md R167, R173, R174). -/
theorem setValue_stores (h : c.Ok p) (i : Nat) (v : RawValue) :
    ∃ d id, d.Ok p ∧ setValue c i v = storeCell d i id ∧
      ((8 < d.bpe.toNat ∧ id = v.toNat) ∨ (d.bpe.toNat ≤ 8 ∧ v = 0 ∧ id = 0) ∨
        (d.bpe.toNat ≤ 8 ∧ v ≠ 0 ∧ firstIndex d.pal v id)) := by
  rcases setValue_cases c i v with ⟨hd, he⟩ | ⟨h8, hv, he⟩ | ⟨h8, hv, k, hk, he⟩ | ⟨h8, hv, hnew, hroom, he⟩ |
    ⟨h8, hv, hnew, -, he⟩ | ⟨h8, -, -, -, he⟩
  · exact ⟨c, _, h, he, .inl ⟨hd, rfl⟩⟩
  · exact ⟨c, _, h, he, .inr (.inl ⟨h8, hv, rfl⟩)⟩
  · exact ⟨c, k, h, he, .inr (.inr ⟨h8, hv, hk⟩)⟩
  · exact ⟨_, _, withAppended_ok h h8 hroom v, he, .inr (.inr ⟨h8, hv, lookup_eq_some_iff.mp (lookup_append_new hnew)⟩)⟩
  · obtain ⟨hb, hpal, -, -⟩ := expand_palette (c := withAppended c v) h8
    rw [withAppended_bpe] at hb
    refine ⟨_, _, expand_palette_ok h h8 v, he, .inr (.inr ⟨by omega, hv, ?_⟩)⟩
    rw [hpal]
    exact lookup_eq_some_iff.mp (lookup_append_new hnew)
  · obtain ⟨hb, -, -, -⟩ := expand_direct (c := withAppended c v) h8.ge
    exact ⟨_, _, expand_direct_ok h h8.ge v, he, .inl ⟨by omega, rfl⟩⟩

/-- The conditions of 41_section.md R180, on the section after `SET v`. -/
def ReadsBack (d : Section) (v : RawValue) : Prop :=
  8 < d.bpe.toNat ∨
  (d.bpe.toNat ≤ 8 ∧ v ≠ 0 ∧ ∃ k, firstIndex d.pal v k ∧ k < 2 ^ d.bpe.toNat) ∨
  (d.bpe.toNat ≤ 8 ∧ v = 0 ∧ (d.pal = [] ∨ d.pal[0]? = some 0))

theorem firstIndex_unique {pal : List RawValue} {k l : Nat} (hk : firstIndex pal v k) (hl : firstIndex pal v l) : k = l :=
  Option.some.inj ((lookup_eq_some_iff.mpr hk).symm.trans (lookup_eq_some_iff.mpr hl))

/-- Under its conditions the stored id is not cut by the store's mask and names the value (41_section.md R180). -/
theorem raw_setValue_same (h : c.Ok p) (hi : i < 4096) (hback : ReadsBack (setValue c i v) v) : (setValue c i v).raw i = v := by
  obtain ⟨d, id, hd, he, hid⟩ := setValue_stores h i v
  rw [he] at hback ⊢
  rw [raw_storeCell_same hd.sound hi]
  unfold ReadsBack at hback
  rw [storeCell_bpe, storeCell_pal] at hback
  rcases hid with ⟨hdir, rfl⟩ | ⟨h8, rfl, rfl⟩ | ⟨h8, hv, hk⟩
  · have h14 : d.bpe.toNat = 14 := by
      have := legalBpe_iff.mp hd.bpe_legal
      omega
    rw [rawValueOf_direct hdir, toNat_mod_direct h14, BitVec.ofNat_toNat, BitVec.setWidth_eq]
  · rw [rawValueOf_palette h8, Nat.zero_mod, List.getD_eq_getElem?_getD]
    rcases hback with hdir | ⟨-, hv, -⟩ | ⟨-, -, hnil | hhead⟩
    · omega
    · exact absurd rfl hv
    · rw [hnil]; rfl
    · rw [hhead]; rfl
  · rw [rawValueOf_palette h8, List.getD_eq_getElem?_getD]
    rcases hback with hdir | ⟨-, -, k, hk', hlt⟩ | ⟨-, h0, -⟩
    · omega
    · rw [firstIndex_unique hk hk', Nat.mod_eq_of_lt hlt, hk'.1]; rfl
    · exact absurd h0 hv

/-! ## The runs of INIT and SET with the sentinel palette -/

/-- What INIT and SET keep of a palette-mode section that starts from the sentinel palette: entry 0 is the sentinel, the width
indexes the whole palette, and every cell's index is inside it (41_section.md R180, R181). -/
structure Section.Indexed (c : Section) : Prop where
  sentinel : c.pal[0]? = some 0
  pal_fits : c.pal.length ≤ 2 ^ c.bpe.toNat
  cells_inside : ∀ j < 4096, c.cell j < c.pal.length

theorem emptySection_indexed (hp : p.Legal) (hpal : p.resetPalette = .sentinel) : (emptySection p).Indexed := by
  have hone : (emptySection p).pal = [0] := by rw [emptySection_pal, hpal]; rfl
  refine ⟨by rw [hone]; rfl, ?_, fun j _ => ?_⟩
  · rw [hone]
    exact Nat.one_le_two_pow
  · rw [emptySection_cell hp, hone]
    exact Nat.one_pos

theorem storeCell_indexed (h : c.Indexed) (hs : c.Sound) (hi : i < 4096) {id : Nat} (hid : id < c.pal.length) :
    (storeCell c i id).Indexed := by
  refine ⟨h.sentinel, h.pal_fits, fun j hj => ?_⟩
  rw [storeCell_cell hs hi, storeCell_pal]
  split
  case isTrue => exact (Nat.mod_le _ _).trans_lt hid
  case isFalse => exact h.cells_inside j hj

/-- The sentinel stays in front when a value is appended. -/
theorem Section.Indexed.append_sentinel (h : c.Indexed) (v : RawValue) : (c.pal ++ [v])[0]? = some 0 :=
  List.getElem?_append_left (List.getElem?_eq_some_iff.mp h.sentinel).1 ▸ h.sentinel

theorem Section.Indexed.append_cells (h : c.Indexed) (v : RawValue) (hj : j < 4096) : c.cell j < (c.pal ++ [v]).length :=
  (h.cells_inside j hj).trans_le (List.length_append ▸ Nat.le_add_right _ _)

theorem withAppended_indexed (h : c.Indexed) (v : RawValue) (hroom : c.pal.length + 1 ≤ 2 ^ c.bpe.toNat) :
    (withAppended c v).Indexed :=
  ⟨h.append_sentinel v, by simpa using hroom, fun _ hj => h.append_cells v hj⟩

/-- A growth by one bit makes room for more than the one new entry. -/
theorem expand_indexed (h : c.Indexed) (hs : c.Sound) (h8 : c.bpe.toNat < 8) (v : RawValue) :
    (expand (withAppended c v)).Indexed := by
  obtain ⟨hb, hpal, -, -⟩ := expand_palette (c := withAppended c v) h8
  rw [withAppended_bpe] at hb
  rw [withAppended_pal] at hpal
  refine ⟨hpal ▸ h.append_sentinel v, ?_, fun j hj => ?_⟩
  · have hfits := h.pal_fits
    have hpos := Nat.two_pow_pos c.bpe.toNat
    rw [hb, hpal, List.length_append, List.length_singleton, Nat.pow_succ]
    omega
  · rw [expand_palette_cell (withAppended_sound hs v) h8 hj, withAppended_cell, hpal]
    exact h.append_cells v hj

/-- SET keeps it in each of its cases; the switch leaves palette mode. -/
theorem setValue_indexed (hs : c.Sound) (h : c.bpe.toNat ≤ 8 → c.Indexed) (hi : i < 4096)
    (h8' : (setValue c i v).bpe.toNat ≤ 8) : (setValue c i v).Indexed := by
  rcases setValue_cases c i v with ⟨hd, he⟩ | ⟨h8, -, he⟩ | ⟨h8, -, k, hk, he⟩ | ⟨h8, -, -, hroom, he⟩ | ⟨h8, -, -, -, he⟩ |
    ⟨h8, -, -, -, he⟩ <;> rw [he] at h8' ⊢
  · rw [storeCell_bpe] at h8'; omega
  · exact storeCell_indexed (h h8) hs hi (List.getElem?_eq_some_iff.mp (h h8).sentinel).1
  · exact storeCell_indexed (h h8) hs hi (firstIndex_lt hk)
  · exact storeCell_indexed (withAppended_indexed (h h8) v hroom) (withAppended_sound hs v) hi (by simp)
  · obtain ⟨-, hpal, -, -⟩ := expand_palette (c := withAppended c v) h8
    refine storeCell_indexed (expand_indexed (h h8.le) hs h8 v) (expand_palette_sound (c := withAppended c v) h8) hi ?_
    rw [hpal]
    simp
  · obtain ⟨hb, -, -, -⟩ := expand_direct (c := withAppended c v) h8.ge
    rw [storeCell_bpe] at h8'
    omega

/-- The invariant of these runs. -/
theorem setReachable_indexed {s : State} (hp : p.Legal) (hpal : p.resetPalette = .sentinel) (h : SetReachable p s) :
    s.params = p ∧ s.sec.Ok p ∧ (s.sec.bpe.toNat ≤ 8 → s.sec.Indexed) := by
  induction h with
  | start => exact ⟨rfl, emptySection_ok hp, fun _ => emptySection_indexed hp hpal⟩
  | init _ hx ih =>
    obtain ⟨rfl, -, -⟩ := ih
    cases hx
    exact ⟨rfl, emptySection_ok hp, fun _ => emptySection_indexed hp hpal⟩
  | set x y z v _ hx ih =>
    obtain ⟨hparams, hok, hix⟩ := ih
    refine ⟨(exec_frame hx).1.trans hparams, ?_⟩
    rw [exec_set_sec hx]
    exact ⟨setValue_ok hok _ v, fun h8 => setValue_indexed hok.sound hix (cellOf_lt x y z) h8⟩

/-- With every entry inside the width and the sentinel in front, the conditions of 41_section.md R180 always hold. -/
theorem readsBack_of_indexed (h : c.Ok p) (hix : (setValue c i v).bpe.toNat ≤ 8 → (setValue c i v).Indexed) :
    ReadsBack (setValue c i v) v := by
  obtain ⟨d, id, -, he, hid⟩ := setValue_stores h i v
  rw [he] at hix ⊢
  rcases hid with ⟨hdir, -⟩ | ⟨h8, hv, -⟩ | ⟨h8, hv, hk⟩
  · exact .inl hdir
  · exact .inr (.inr ⟨h8, hv, .inr (hix h8).sentinel⟩)
  · exact .inr (.inl ⟨h8, hv, id, hk, (firstIndex_lt hk).trans_le (hix h8).pal_fits⟩)

/-! ## The statements -/

/-- Settles O43: under the conditions of 41_section.md R180 the cell reads the value back, and with the sentinel palette the
invariant of the runs of INIT and SET gives the conditions. -/
theorem getAfterSetReturnsTheValue : Obligations.GetAfterSetReturnsTheValue := by
  refine ⟨fun x y z v s t hok hx hback => ?_, fun p x y z v s t hp hpal hr hx => ?_⟩
  · have hsec := exec_set_sec hx
    exact get_returns_raw (hsec ▸ raw_setValue_same hok (cellOf_lt x y z) (hsec ▸ hback))
  · obtain ⟨-, hok, -⟩ := setReachable_indexed hp hpal hr
    obtain ⟨-, -, hix⟩ := setReachable_indexed hp hpal (.set x y z v hr hx)
    have hsec := exec_set_sec hx
    exact get_returns_raw (hsec ▸ raw_setValue_same hok (cellOf_lt x y z) (readsBack_of_indexed hok (hsec ▸ hix)))

/-- Settles O44: another cell reads through the palette with the value appended, which only an index outside the old palette
can tell from the old one; the runs of INIT and SET with the sentinel palette have no such index. -/
theorem setPreservesEveryOtherCell : Obligations.SetPreservesEveryOtherCell := by
  refine ⟨fun x y z x' y' z' v s t hok h8 hin hne hx => ?inside, fun p s hp hpal hr h8 => ?reachable,
    fun x y z x' y' z' v s t hok h8 hcell hne hv hnew hx => ?outside⟩
  case inside =>
    refine ⟨_, _, exec_get_eq_raw x' y' z' s, exec_get_eq_raw x' y' z' t, ?_⟩
    have hj := cellOf_lt x' y' z'
    rw [complete_result, complete_result, exec_set_sec hx]
    exact (raw_setValue_of_inside hok.sound h8 (hin _ hj) (cellOf_lt x y z) hj (cellOf_ne hne)).symm
  case reachable =>
    obtain ⟨-, -, hix⟩ := setReachable_indexed hp hpal hr
    exact (hix h8).cells_inside
  case outside =>
    rw [← cellOf_eq_linearIndex] at hcell
    refine ⟨_, _, exec_get_eq_raw x' y' z' s, ?_, exec_get_eq_raw x' y' z' t, ?_⟩
    · rw [complete_result, raw_palette h8, hcell, List.getD_eq_default _ _ le_rfl]
    · rw [complete_result, exec_set_sec hx,
        raw_setValue_of_new hok.sound h8 hv hnew (cellOf_lt x y z) (cellOf_lt x' y' z') (cellOf_ne hne), hcell]
      simp

end Sys2Proof.Machine
end

section
/-! PROOFS. The varint of the stream (42_stream_codec.md R211 to R214). -/

/-! ## Reading a varint -/

namespace Sys2Proof.Machine

/-- One group more is seven bits more. -/
theorem two_pow_groups_succ (k : Nat) : 2 ^ (7 * (k + 1)) = 128 * 2 ^ (7 * k) := by
  rw [Nat.mul_add 7, Nat.pow_add, Nat.mul_comm]

theorem groupValue_append (xs ys : List Byte) :
    groupValue (xs ++ ys) = groupValue xs + groupValue ys * 2 ^ (7 * xs.length) := by
  induction xs with
  | nil => simp [groupValue]
  | cons x xs ih =>
    rw [List.cons_append, groupValue, groupValue, ih, List.length_cons, two_pow_groups_succ]
    ring

/-- The loop past its continuation bytes: their groups are accumulated, and as many bytes fewer are allowed. -/
theorem readVarintLoop_continuations {pre : List Byte} (hpre : ∀ b ∈ pre, 128 ≤ b.toNat) (left : Nat) {n val : Nat}
    (hval : val < 2 ^ (7 * n)) (rest : List Byte) :
    val + groupValue pre * 2 ^ (7 * n) < 2 ^ (7 * (n + pre.length)) ∧
    readVarintLoop (left + pre.length) n val (pre ++ rest)
      = readVarintLoop left (n + pre.length) (val + groupValue pre * 2 ^ (7 * n)) rest := by
  induction pre generalizing n val with
  | nil => simpa [groupValue] using hval
  | cons b pre ih =>
    obtain ⟨hlt, hloop⟩ := ih (fun c hc => hpre c (List.mem_cons_of_mem b hc)) (groups_lt (g := b.toNat) hval)
    have hsum : val + groupValue (b :: pre) * 2 ^ (7 * n)
        = val + b.toNat % 128 * 2 ^ (7 * n) + groupValue pre * 2 ^ (7 * (n + 1)) := by
      rw [groupValue, two_pow_groups_succ]
      ring
    have hn : n + (b :: pre).length = n + 1 + pre.length := by rw [List.length_cons]; omega
    rw [hsum, hn]
    refine ⟨hlt, ?_⟩
    rw [List.cons_append, List.length_cons, ← Nat.add_assoc,
      readVarintLoop_continue _ n val hval b (hpre b List.mem_cons_self), hloop]

/-- ReadVarint past its continuation bytes. -/
theorem readVarint_continuations {pre : List Byte} (hpre : ∀ b ∈ pre, 128 ≤ b.toNat) {left : Nat} (hleft : left + pre.length = 5)
    (rest : List Byte) :
    groupValue pre < 2 ^ (7 * pre.length) ∧
    readVarint (pre ++ rest) = readVarintLoop left pre.length (groupValue pre) rest := by
  have h := readVarintLoop_continuations hpre left (n := 0) (val := 0) (by simp) rest
  simpa only [readVarint, Config.varintMaxBytes, hleft, Nat.zero_add, Nat.mul_zero, Nat.pow_zero, Nat.mul_one] using h

/-- A fifth continuation byte would need a sixth byte: it fails whatever follows (42_stream_codec.md R211). -/
theorem readVarint_too_long {pre : List Byte} (hpre : ∀ b ∈ pre, 128 ≤ b.toNat) (hlen : pre.length = 5) (rest : List Byte) :
    readVarint (pre ++ rest) = .error .decVarintLong :=
  (readVarint_continuations hpre (left := 0) (by omega) rest).2

/-- The end of the input before a byte without bit 7 (42_stream_codec.md R211). -/
theorem readVarint_cut {pre : List Byte} (hpre : ∀ b ∈ pre, 128 ≤ b.toNat) (hlen : pre.length < 5) :
    readVarint pre = .error .decShort := by
  obtain ⟨left, hleft⟩ : ∃ left, left + 1 + pre.length = 5 := ⟨4 - pre.length, by omega⟩
  have h := (readVarint_continuations hpre hleft []).2
  rwa [List.append_nil] at h

/-- Settles O46: past the continuation bytes the loop is at its limit, at the end of the input, or at the last byte. -/
theorem readVarintFollowsItsRule : Obligations.ReadVarintFollowsItsRule := by
  refine fun pre hpre => ⟨readVarint_too_long hpre, readVarint_cut hpre, fun hlen b rest hb => ?_⟩
  obtain ⟨left, hleft⟩ : ∃ left, left + 1 + pre.length = 5 := ⟨4 - pre.length, by omega⟩
  obtain ⟨hlt, hread⟩ := readVarint_continuations hpre hleft (b :: rest)
  rw [hread, readVarintLoop_stop left _ _ hlt b hb, groupValue_append]
  simp [groupValue]

/-- What `n` groups and the bytes still to read can hold. -/
theorem readVarintLoop_lt {left n val v : Nat} (hval : val < 2 ^ (7 * n)) {bs r : List Byte}
    (h : readVarintLoop left n val bs = .ok (v, r)) : v < 2 ^ (7 * (n + bs.length)) := by
  induction left generalizing n val bs with
  | zero => simp [readVarintLoop] at h
  | succ left ih =>
    cases bs with
    | nil => simp [readVarintLoop] at h
    | cons b bs =>
      have hgroups := groups_lt (g := b.toNat) hval
      have hlen : n + (b :: bs).length = n + 1 + bs.length := by rw [List.length_cons]; omega
      rw [hlen]
      by_cases hb : b.toNat < 128
      · rw [readVarintLoop_stop left n val hval b hb, Except.ok.injEq, Prod.mk.injEq] at h
        calc v ≤ val + b.toNat % 128 * 2 ^ (7 * n) := h.1 ▸ Nat.mod_le _ _
          _ < 2 ^ (7 * (n + 1)) := hgroups
          _ ≤ 2 ^ (7 * (n + 1 + bs.length)) := Nat.pow_le_pow_right (by decide) (by omega)
      · rw [readVarintLoop_continue left n val hval b (by omega)] at h
        exact ih hgroups h

/-- A varint of `k` bytes has a value of at most `7 * k` bits. -/
theorem readVarint_lt {bs r : List Byte} {v : Nat} (h : readVarint bs = .ok (v, r)) : v < 2 ^ (7 * bs.length) := by
  simpa using readVarintLoop_lt (n := 0) (val := 0) (by simp) h

end Sys2Proof.Machine

/-! ## Writing a varint -/

namespace Sys2Proof.Machine

theorem varintLoop_of_lt {v : Nat} (h : v < 128) (left : Nat) : varintLoop left v = [BitVec.ofNat 8 v] := by
  cases left with
  | zero => rfl
  | succ left => rw [varintLoop, if_neg (by omega)]

theorem continuationByte_eq (v : Nat) : BitVec.ofNat 8 (v &&& 0x7F) ||| 0x80 = BitVec.ofNat 8 (v % 128 + 128) := by
  have hlow : v &&& 0x7F = v % 128 := Nat.and_two_pow_sub_one_eq_mod v 7
  have hor : ∀ g < 128, BitVec.ofNat 8 g ||| 0x80 = BitVec.ofNat 8 (g + 128) := by decide
  rw [hlow, hor _ (Nat.mod_lt v (by decide))]

theorem varintLoop_of_ge {v : Nat} (h : 128 ≤ v) (left : Nat) :
    varintLoop (left + 1) v = BitVec.ofNat 8 (v % 128 + 128) :: varintLoop left (v / 128) := by
  rw [varintLoop, if_pos h, continuationByte_eq, Nat.shiftRight_eq_div_pow]

/-- The loop needs no more bytes than the value has groups. -/
theorem varintLoop_succ {left v : Nat} (h : v < 2 ^ (7 * (left + 1))) : varintLoop (left + 1) v = varintLoop left v := by
  induction left generalizing v with
  | zero => rw [varintLoop_of_lt h, varintLoop_of_lt h]
  | succ left ih =>
    rcases Nat.lt_or_ge v 128 with hv | hv
    · rw [varintLoop_of_lt hv, varintLoop_of_lt hv]
    · rw [varintLoop_of_ge hv, varintLoop_of_ge hv, ih (Nat.div_lt_of_lt_mul (two_pow_groups_succ _ ▸ h))]

theorem varint_of_lt {v : Nat} (h : v < 128) : varint v = [BitVec.ofNat 8 v] := varintLoop_of_lt h _

/-- The loop of 42_stream_codec.md R214 without its bound. -/
theorem varint_of_ge {v : Nat} (h : 128 ≤ v) (hv : v < 2 ^ 32) :
    varint v = BitVec.ofNat 8 (v % 128 + 128) :: varint (v / 128) := by
  have hdiv : v / 128 < 2 ^ (7 * (3 + 1)) := by omega
  calc varint v = BitVec.ofNat 8 (v % 128 + 128) :: varintLoop 3 (v / 128) := varintLoop_of_ge h 3
    _ = BitVec.ofNat 8 (v % 128 + 128) :: varint (v / 128) := congrArg _ (varintLoop_succ hdiv).symm

theorem varint_length_of_lt {v : Nat} (h : v < 128) : (varint v).length = 1 := by
  rw [varint_of_lt h, List.length_singleton]

theorem varint_length_of_ge {v : Nat} (h : 128 ≤ v) (hv : v < 16384) : (varint v).length = 2 := by
  rw [varint_of_ge h (by omega), List.length_cons, varint_length_of_lt (by omega)]

theorem varint_length_le_two {v : Nat} (hv : v < 16384) : (varint v).length ≤ 2 := by
  rcases Nat.lt_or_ge v 128 with h | h
  · rw [varint_length_of_lt h]; omega
  · rw [varint_length_of_ge h hv]

/-- A value of `k` groups is written in `k` bytes at most. -/
theorem varintLoop_length_le {k v : Nat} (hk : 1 ≤ k) (hv : v < 2 ^ (7 * k)) (left : Nat) : (varintLoop left v).length ≤ k := by
  induction left generalizing k v with
  | zero => exact hk
  | succ left ih =>
    rcases Nat.lt_or_ge v 128 with h | h
    · rw [varintLoop_of_lt h]; exact hk
    · obtain ⟨k, rfl⟩ : ∃ j, k = j + 1 := ⟨k - 1, by omega⟩
      have hk' : 1 ≤ k := Nat.one_le_iff_ne_zero.mpr (by rintro rfl; exact h.not_gt hv)
      rw [varintLoop_of_ge h, List.length_cons]
      exact Nat.succ_le_succ (ih hk' (Nat.div_lt_of_lt_mul (two_pow_groups_succ k ▸ hv)))

/-- No varint of the value is shorter (42_stream_codec.md R214). -/
theorem varint_length_le_of_readVarint {bs r : List Byte} {v : Nat} (h : readVarint bs = .ok (v, r)) :
    (varint v).length ≤ bs.length := by
  obtain ⟨pre, rfl, hpre, -, -⟩ := readVarint_ok h
  exact varintLoop_length_le (by rw [List.length_append]; omega) (readVarint_lt h) _

/-- Settles O47: the loop's equations give the bytes and the lengths, and the value's bound gives the rest. -/
theorem varintIsTheShortestForm : Obligations.VarintIsTheShortestForm := fun _ hv =>
  ⟨varint_of_lt, fun h => varint_of_ge h hv, varint_length_of_lt, varint_length_of_ge,
    fun _ h => varint_length_le_of_readVarint h⟩

end Sys2Proof.Machine
end

section
/-! PROOFS. DECODE accepts exactly the streams of the format (42_stream_codec.md R210). -/

namespace Sys2Proof.Machine

/-- A width byte fits the 5 bits of BPE. -/
theorem setWidth_bpe_of_legal {b : Byte} (h : legalBpe b.toNat = true) :
    (b.setWidth 5).toNat = b.toNat ∧ (b.setWidth 5).setWidth 8 = b := by
  have hb := legalBpe_bounds h
  have h5 : (b.setWidth 5).toNat = b.toNat := by
    rw [BitVec.toNat_setWidth]; omega
  exact ⟨h5, BitVec.eq_of_toNat_eq (by rw [BitVec.toNat_setWidth, h5]; omega)⟩

/-- BPE is unchanged as a width byte. -/
theorem setWidth_byte_of_bpe (b : BitVec 5) : (b.setWidth 8).toNat = b.toNat ∧ (b.setWidth 8).setWidth 5 = b := by
  have h8 : (b.setWidth 8).toNat = b.toNat := by
    rw [BitVec.toNat_setWidth]; omega
  exact ⟨h8, BitVec.eq_of_toNat_eq (by rw [BitVec.toNat_setWidth, h8]; omega)⟩

/-- Settles O48: a successful decode splits its input into the fields, and each reader reads its own field back. -/
theorem decodeAcceptsExactlyTheFormat : Obligations.DecodeAcceptsExactlyTheFormat := by
  refine fun p input c => ⟨fun h => ?accepted, fun h => ?format⟩
  case accepted =>
    obtain ⟨b, r0, n, r1, pal, r2, m, r3, wc, r4, hin, hwidth, hlen, hn, hpal, hmark, rfl, hcount, rfl, hwords, hlight, rfl⟩ :=
      decodeStream_eq_ok.mp h
    obtain ⟨rfl, hlegal⟩ := readWidth_eq_ok.mp hwidth
    obtain ⟨vlen, rfl, -, -, hvlen⟩ := readVarint_ok hlen
    obtain ⟨es, rfl, rfl, htags, rfl⟩ := readPalette_ok hpal
    obtain ⟨vmark, rfl, -, -, hvmark⟩ := readVarint_ok hmark
    obtain ⟨vcount, rfl, -, -, hvcount⟩ := readVarint_ok hcount
    obtain ⟨hwordsLen, hwordsBytes⟩ := readWords_spec _ hwords
    obtain ⟨hb, hbyte⟩ := setWidth_bpe_of_legal hlegal
    refine ⟨vlen, vmark, vcount, es, ?_, hin, hb ▸ hlegal, hvlen, hn, fun e he => (htags e he).2, rfl, hvmark, hb ▸ hvcount,
      hb ▸ hwordsLen, hlight⟩
    simp only [hbyte, List.append_assoc, hwordsBytes, entryBytes, List.cons_append, List.nil_append]
  case format =>
    obtain ⟨vlen, vmark, vcount, es, rfl, hin, hlegal, hlen, hn, htags, hpal, hmark, hcount, hwords, hlight⟩ := h
    obtain ⟨hb, hbpe⟩ := setWidth_byte_of_bpe c.bpe
    have hread : readWords (wordCount c.bpe.toNat) (c.words.flatMap bytesOfWord ++ c.light) = (c.words, c.light) :=
      hwords ▸ readWords_flatMap c.words c.light
    refine decodeStream_eq_ok.mpr ⟨c.bpe.setWidth 8, _, es.length, _, c.pal, _, 1, _, wordCount c.bpe.toNat,
      c.words.flatMap bytesOfWord ++ c.light, hin, readWidth_eq_ok.mpr ⟨?_, hb ▸ hlegal⟩, hlen _, hn,
      hpal ▸ readPalette_entries es htags _, hmark _, rfl, hcount _, by rw [hb], ?_, by rwa [hread], ?_⟩
    · simp only [entryBytes, List.append_assoc, List.cons_append, List.nil_append]
    · rw [List.length_append, flatMap_bytesOfWord_length, hwords]; omega
    · rw [hread, hbpe]

end Sys2Proof.Machine
end

section
/-! PROOFS. The error of each malformed stream (42_stream_codec.md R215 to R223). -/

/-! ## The steps of DECODE from a field on -/

namespace Sys2Proof.Machine

/-- Steps 6 and 7: the words and the light data (42_stream_codec.md R221, R222). -/
def decodeFromWords (p : Params) (b : Byte) (pal : List RawValue) (wc : Nat) (r : List Byte) : Except ErrCode Section := do
  require (8 * wc ≤ r.length) .decShort
  require ((readWords wc r).2.length ≤ p.lightMax) .decLightLong
  return { bpe := b.setWidth 5, words := (readWords wc r).1, pal := pal, light := (readWords wc r).2 }

/-- Step 5 and those after it: the word count (42_stream_codec.md R220). -/
def decodeFromCount (p : Params) (b : Byte) (pal : List RawValue) (r : List Byte) : Except ErrCode Section := do
  let (wc, r) ← readVarint r
  require (wc == wordCount b.toNat) .decBadWordcount
  decodeFromWords p b pal wc r

/-- Step 4 and those after it: the marker (42_stream_codec.md R219). -/
def decodeFromMarker (p : Params) (b : Byte) (pal : List RawValue) (r : List Byte) : Except ErrCode Section := do
  let (marker, r) ← readVarint r
  require (marker == Config.wordGroupMarker) .decBadMarker
  decodeFromCount p b pal r

/-- Step 3 and those after it: `n` palette entries (42_stream_codec.md R218). -/
def decodeFromEntries (p : Params) (b : Byte) (n : Nat) (r : List Byte) : Except ErrCode Section := do
  let (pal, r) ← readPalette n r
  decodeFromMarker p b pal r

/-- Step 2 and those after it: the palette length (42_stream_codec.md R217). -/
def decodeFromLength (p : Params) (b : Byte) (r : List Byte) : Except ErrCode Section := do
  let (n, r) ← readVarint r
  require (n ≤ Config.palDecodeMax) .decPalLong
  decodeFromEntries p b n r

/-- A sequence after a first part that reads well, and after one that fails. -/
theorem ok_bind_eq {α β : Type} {m : Except ErrCode α} {a : α} (h : m = .ok a) (f : α → Except ErrCode β) :
    (m >>= f) = f a := by rw [h]; rfl

@[inherit_doc ok_bind_eq] theorem error_bind_eq {α β : Type} {m : Except ErrCode α} {e : ErrCode} (h : m = .error e)
    (f : α → Except ErrCode β) : (m >>= f) = .error e := by rw [h]; rfl

/-- A sequence after a check that holds, and after one that does not. -/
theorem require_bind_of_true {β : Type} {c : Bool} (h : c = true) (e : ErrCode) (f : Unit → Except ErrCode β) :
    (require c e >>= f) = f () := ok_bind_eq (require_eq_ok.mpr h) f

@[inherit_doc require_bind_of_true] theorem require_bind_of_false {β : Type} {c : Bool} (h : c = false) (e : ErrCode)
    (f : Unit → Except ErrCode β) : (require c e >>= f) = .error e := by rw [h]; rfl

variable {p : Params} {b : Byte} {pal : List RawValue} {bs r : List Byte} {e : ErrCode} {n : Nat}

/-! ### The width -/

theorem decodeStream_of_inRange (h : p.inMax < bs.length) : decodeStream p bs = .error .decInRange :=
  require_bind_of_false (decide_eq_false (by omega)) _ _

/-- Past the two checks of R223 and R216 the steps of the other fields remain. -/
theorem decodeStream_cons (hin : (b :: r).length ≤ p.inMax) (hb : legalBpe b.toNat = true) :
    decodeStream p (b :: r) = decodeFromLength p b r := by
  rw [decodeStream, require_bind_of_true (decide_eq_true hin), ok_bind_eq (readWidth_eq_ok.mpr ⟨rfl, hb⟩)]
  rfl

theorem decodeStream_nil (p : Params) : decodeStream p [] = .error .decShort :=
  require_bind_of_true (decide_eq_true (Nat.zero_le _)) _ _

theorem decodeStream_of_illegal_width (hin : (b :: r).length ≤ p.inMax) (hb : legalBpe b.toNat = false) :
    decodeStream p (b :: r) = .error .decBadBpe := by
  have hwidth : readWidth (b :: r) = .error .decBadBpe := by rw [readWidth, hb]; rfl
  rw [decodeStream, require_bind_of_true (decide_eq_true hin), error_bind_eq hwidth]

/-! ### The palette length -/

theorem decodeFromLength_error (h : readVarint r = .error e) : decodeFromLength p b r = .error e := error_bind_eq h _

theorem decodeFromLength_long (h : VarintBytes bs n) (hn : 256 < n) : decodeFromLength p b (bs ++ r) = .error .decPalLong := by
  rw [decodeFromLength, ok_bind_eq (h r)]
  exact require_bind_of_false (decide_eq_false (by simpa using hn)) _ _

theorem decodeFromLength_eq (h : VarintBytes bs n) (hn : n ≤ 256) :
    decodeFromLength p b (bs ++ r) = decodeFromEntries p b n r := by
  rw [decodeFromLength, ok_bind_eq (h r)]
  exact require_bind_of_true (decide_eq_true hn) _ _

/-! ### The palette entries -/

/-- An error past the first entries is the error of the palette. -/
theorem readPalette_entries_error {es : List (List Byte × Byte)} (ht : TagsOk es) (h : readPalette n r = .error e) :
    readPalette (es.length + n) (entryBytes es ++ r) = .error e := by
  induction es with
  | nil => simpa [entryBytes] using h
  | cons a es ih =>
    obtain ⟨tag, htag⟩ := ht a List.mem_cons_self
    have ih := ih fun x hx => ht x (List.mem_cons_of_mem a hx)
    rw [entryBytes] at ih
    rw [entryBytes, List.flatMap_cons, List.append_assoc, List.append_assoc, List.length_cons, Nat.add_right_comm, readPalette,
      htag]
    simp only [List.singleton_append, ih]

theorem readPalette_tag_error (h : readVarint r = .error e) : readPalette (n + 1) r = .error e := by
  rw [readPalette, h]

/-- A tag with no byte after it (42_stream_codec.md R218). -/
theorem readPalette_no_value {tag : Nat} (h : VarintBytes bs tag) : readPalette (n + 1) bs = .error .decShort := by
  have htag := h []
  rw [List.append_nil] at htag
  rw [readPalette, htag]

theorem decodeFromEntries_error {es : List (List Byte × Byte)} (ht : TagsOk es) (hn : es.length < n)
    (h : ∀ m, readPalette (m + 1) r = .error e) : decodeFromEntries p b n (entryBytes es ++ r) = .error e := by
  obtain ⟨m, rfl⟩ : ∃ m, n = es.length + (m + 1) := ⟨n - es.length - 1, by omega⟩
  exact error_bind_eq (readPalette_entries_error ht (h m)) _

/-- The entries a palette of `es` gives: the bytes after the tags, the tags discarded (42_stream_codec.md R218). -/
def paletteOf (es : List (List Byte × Byte)) : List RawValue := es.map fun e => e.2.setWidth 14

theorem decodeFromEntries_eq {es : List (List Byte × Byte)} (ht : TagsOk es) :
    decodeFromEntries p b es.length (entryBytes es ++ r) = decodeFromMarker p b (paletteOf es) r :=
  ok_bind_eq (readPalette_entries es ht r) _

/-! ### The marker and the word count -/

theorem decodeFromMarker_error (h : readVarint r = .error e) : decodeFromMarker p b pal r = .error e := error_bind_eq h _

theorem decodeFromMarker_bad (h : VarintBytes bs n) (hn : n ≠ 1) :
    decodeFromMarker p b pal (bs ++ r) = .error .decBadMarker := by
  rw [decodeFromMarker, ok_bind_eq (h r)]
  exact require_bind_of_false (beq_false_of_ne hn) _ _

theorem decodeFromMarker_eq (h : VarintBytes bs 1) : decodeFromMarker p b pal (bs ++ r) = decodeFromCount p b pal r := by
  rw [decodeFromMarker, ok_bind_eq (h r)]
  rfl

theorem decodeFromCount_error (h : readVarint r = .error e) : decodeFromCount p b pal r = .error e := error_bind_eq h _

theorem decodeFromCount_bad (h : VarintBytes bs n) (hn : n ≠ wordCount b.toNat) :
    decodeFromCount p b pal (bs ++ r) = .error .decBadWordcount := by
  rw [decodeFromCount, ok_bind_eq (h r)]
  exact require_bind_of_false (beq_false_of_ne hn) _ _

theorem decodeFromCount_eq (h : VarintBytes bs n) (hn : n = wordCount b.toNat) :
    decodeFromCount p b pal (bs ++ r) = decodeFromWords p b pal n r := by
  rw [decodeFromCount, ok_bind_eq (h r)]
  exact require_bind_of_true (beq_iff_eq.mpr hn) _ _

/-! ### The words and the light data -/

/-- The light data is what stands after the words (42_stream_codec.md R222). -/
theorem readWords_rest (n : Nat) (bs : List Byte) : (readWords n bs).2 = bs.drop (8 * n) := by
  induction n generalizing bs with
  | zero => rfl
  | succ n ih => rw [readWords, ih, List.drop_drop, Nat.mul_succ, Nat.add_comm]

theorem bytesOfWord_getD (w : Word) {j : Nat} (hj : j < 8) :
    ((bytesOfWord w).getD j 0).toNat = w.toNat / 256 ^ (7 - j) % 256 := by
  have hbyte : (w.extractLsb' (8 * (7 - j)) 8).toNat = w.toNat / 256 ^ (7 - j) % 256 := by
    rw [BitVec.extractLsb'_toNat, Nat.shiftRight_eq_div_pow, Nat.pow_mul]
  interval_cases j <;> exact hbyte

/-- The bytes of word `k` stand at `8 * k` in the words' bytes. -/
theorem flatMap_bytesOfWord_getD {ws : List Word} {k j : Nat} (hk : k < ws.length) (hj : j < 8) (rest : List Byte) :
    (ws.flatMap bytesOfWord ++ rest).getD (8 * k + j) 0 = (bytesOfWord (ws.getD k 0)).getD j 0 := by
  induction ws generalizing k with
  | nil => exact absurd hk (Nat.not_lt_zero k)
  | cons w ws ih =>
    rw [List.flatMap_cons, List.append_assoc]
    cases k with
    | zero => rw [List.getD_append _ _ _ _ (by rw [bytesOfWord_length]; omega), Nat.mul_zero, Nat.zero_add, List.getD_cons_zero]
    | succ k =>
      rw [List.getD_append_right _ _ _ _ (by rw [bytesOfWord_length]; omega), bytesOfWord_length, List.getD_cons_succ,
        ← ih (Nat.lt_of_succ_lt_succ hk)]
      congr 1
      omega

/-- Byte `j` of word `k`, the most significant one first, is byte `8 * k + j` of the input (42_stream_codec.md R221). -/
theorem readWords_byte (hn : 8 * n ≤ bs.length) {k j : Nat} (hk : k < n) (hj : j < 8) :
    ((readWords n bs).1.getD k 0).toNat / 256 ^ (7 - j) % 256 = (bs.getD (8 * k + j) 0).toNat := by
  obtain ⟨hlen, hbytes⟩ := readWords_spec n hn
  conv_rhs => rw [← hbytes]
  rw [flatMap_bytesOfWord_getD (by rwa [hlen]) hj, bytesOfWord_getD _ hj]

theorem decodeFromWords_short (h : r.length < 8 * n) : decodeFromWords p b pal n r = .error .decShort :=
  require_bind_of_false (decide_eq_false (by omega)) _ _

theorem decodeFromWords_long (h : 8 * n + p.lightMax < r.length) : decodeFromWords p b pal n r = .error .decLightLong := by
  have hlight : ¬ (readWords n r).2.length ≤ p.lightMax := by rw [readWords_rest, List.length_drop]; omega
  rw [decodeFromWords, require_bind_of_true (decide_eq_true (by omega))]
  exact require_bind_of_false (decide_eq_false hlight) _ _

theorem decodeFromWords_eq (hn : 8 * n ≤ r.length) (hl : r.length ≤ 8 * n + p.lightMax) :
    decodeFromWords p b pal n r
      = .ok { bpe := b.setWidth 5, words := (readWords n r).1, pal := pal, light := (readWords n r).2 } := by
  have hlight : (readWords n r).2.length ≤ p.lightMax := by rw [readWords_rest, List.length_drop]; omega
  rw [decodeFromWords, require_bind_of_true (decide_eq_true hn)]
  exact require_bind_of_true (decide_eq_true hlight) _ _

end Sys2Proof.Machine

/-! ## The statement -/

namespace Sys2Proof.Machine

variable {p : Params} {b : Byte} {vlen vmark r : List Byte} {es : List (List Byte × Byte)} {n : Nat}

/-- After a width and a palette length the entries are read. -/
theorem decodeStream_to_entries (hb : legalBpe b.toNat = true) (hlen : VarintBytes vlen n) (hn : n ≤ 256)
    (hin : (b :: (vlen ++ r)).length ≤ p.inMax) : decodeStream p (b :: (vlen ++ r)) = decodeFromEntries p b n r := by
  rw [decodeStream_cons hin hb, decodeFromLength_eq hlen hn]

/-- After the last entry the marker is read. -/
theorem decodeStream_to_marker (hb : legalBpe b.toNat = true) (hlen : VarintBytes vlen n) (hn : n ≤ 256) (ht : TagsOk es)
    (hes : es.length = n) (hin : (b :: (vlen ++ (entryBytes es ++ r))).length ≤ p.inMax) :
    decodeStream p (b :: (vlen ++ (entryBytes es ++ r))) = decodeFromMarker p b (paletteOf es) r := by
  subst hes
  rw [decodeStream_to_entries hb hlen hn hin, decodeFromEntries_eq ht]

/-- After the marker the word count is read. -/
theorem decodeStream_to_count (hb : legalBpe b.toNat = true) (hlen : VarintBytes vlen n) (hn : n ≤ 256) (ht : TagsOk es)
    (hes : es.length = n) (hmark : VarintBytes vmark 1)
    (hin : (b :: (vlen ++ (entryBytes es ++ (vmark ++ r)))).length ≤ p.inMax) :
    decodeStream p (b :: (vlen ++ (entryBytes es ++ (vmark ++ r)))) = decodeFromCount p b (paletteOf es) r := by
  rw [decodeStream_to_marker hb hlen hn ht hes hin, decodeFromMarker_eq hmark]

/-- A varint that cannot be read, in any of its four places, ends the decode with its own error. -/
theorem decodeStream_varint_error {pre : List Byte} (hpre : BeforeVarint pre) {e : ErrCode} (h : readVarint r = .error e)
    (hin : (pre ++ r).length ≤ p.inMax) : decodeStream p (pre ++ r) = .error e := by
  obtain ⟨b, vlen, vmark, es, n, hb, hlen, hn, ht, hmark, rfl | ⟨hes, rfl⟩ | ⟨hes, rfl⟩⟩ := hpre <;>
    simp only [List.cons_append, List.nil_append, List.append_assoc] at hin ⊢
  case inl => rw [decodeStream_cons hin hb, decodeFromLength_error h]
  case inr.inl =>
    rcases Nat.lt_or_eq_of_le hes with hlt | heq
    · rw [decodeStream_to_entries hb hlen hn hin, decodeFromEntries_error ht hlt fun _ => readPalette_tag_error h]
    · rw [decodeStream_to_marker hb hlen hn ht heq hin, decodeFromMarker_error h]
  case inr.inr => rw [decodeStream_to_count hb hlen hn ht hes hmark hin, decodeFromCount_error h]

/-- Settles O49: the well-formed fields lead to the bad one, whose step gives the error. -/
theorem malformedStreamsGiveTheirErrors : Obligations.MalformedStreamsGiveTheirErrors := by
  refine fun p => ⟨fun _ => decodeStream_of_inRange, decodeStream_nil p, fun b tail => decodeStream_of_illegal_width,
    fun pre cs hpre hcs => ⟨fun hlen tail hin => ?longVarint, fun hlen hin => ?cutVarint⟩,
    fun b vlen es n hb hvlen ht => ⟨fun hn tail hin => ?longPalette, fun hn hes vtag tag hvtag hin => ?noValue,
      fun hn hes vmark tail m hmark hin hm => ?badMarker, fun hn hes vmark vcount tail w hmark hcount hin => ?words⟩⟩
  case longVarint =>
    rw [List.append_assoc] at hin ⊢
    exact decodeStream_varint_error hpre (readVarint_too_long hcs hlen tail) hin
  case cutVarint => exact decodeStream_varint_error hpre (readVarint_cut hcs hlen) hin
  all_goals simp only [List.cons_append, List.append_assoc] at hin ⊢
  case longPalette => rw [decodeStream_cons hin hb, decodeFromLength_long hvlen hn]
  case noValue =>
    rw [decodeStream_to_entries hb hvlen hn hin, decodeFromEntries_error ht hes fun _ => readPalette_no_value hvtag]
  case badMarker => rw [decodeStream_to_marker hb hvlen hn ht hes hin, decodeFromMarker_bad hmark hm]
  case words =>
    rw [decodeStream_to_count hb hvlen hn ht hes hmark hin]
    refine ⟨decodeFromCount_bad hcount, fun hw hl => ?_, fun hw hl => ?_, fun hw hl hlight => ?_⟩ <;>
      rw [decodeFromCount_eq hcount hw]
    · exact decodeFromWords_short hl
    · exact decodeFromWords_long hl
    · exact ⟨_, decodeFromWords_eq hl hlight, (readWords_spec w hl).1, readWords_rest w tail,
        fun k hk j hj => readWords_byte hl hk hj⟩

end Sys2Proof.Machine
end

section
/-! PROOFS. The length of the encoded stream (42_stream_codec.md R230). -/

namespace Sys2Proof.Machine

/-! ## The number of words of a width (40_packed_array.md R121) -/

theorem wordCount_direct : wordCount 14 = 1024 := rfl

theorem wordCount_eight : wordCount 8 = 512 := rfl

theorem wordCount_palette_le {b : Nat} (h1 : 1 ≤ b) (h8 : b ≤ 8) : wordCount b ≤ 512 := by
  interval_cases b <;> decide

theorem wordCount_le {b : Nat} (h : legalBpe b = true) : wordCount b ≤ 1024 := by
  rcases legalBpe_iff.mp h with ⟨h1, h8⟩ | rfl
  · exact (wordCount_palette_le h1 h8).trans (by decide)
  · exact wordCount_direct.le

/-! ## The length of each field -/

/-- A palette entry is written as two bytes, since a tag is below 128 (42_stream_codec.md R228). -/
theorem entries_length (p : Params) (pal : List RawValue) :
    (pal.flatMap fun e => varint p.encTag.toNat ++ [e.setWidth 8]).length = 2 * pal.length := by
  induction pal with
  | nil => rfl
  | cons e pal ih =>
    rw [List.flatMap_cons, List.length_append, ih, List.length_append, varint_length_of_lt p.encTag.isLt,
      List.length_singleton, List.length_cons]
    omega

theorem encodeSection_length {p : Params} {c : Section} (hw : c.words.length = wordCount c.bpe.toNat) :
    (encodeSection p c).length
      = 1 + (varint c.pal.length).length + 2 * c.pal.length + 1 + (varint (wordCount c.bpe.toNat)).length
        + 8 * wordCount c.bpe.toNat + c.light.length := by
  simp only [encodeSection, List.length_append, List.length_singleton, entries_length, flatMap_bytesOfWord_length, hw,
    varint_length_of_lt (v := Config.wordGroupMarker) (by decide)]

variable {p : Params} {c : Section}

/-- The largest length in palette mode. -/
theorem encodeSection_length_palette_le (h : c.Ok p) (h8 : c.bpe.toNat ≤ 8) :
    (encodeSection p c).length ≤ 4628 + c.light.length := by
  have hpal := palBound_le h.pal_bound
  have hcount := wordCount_palette_le (legalBpe_bounds h.bpe_legal).1 h8
  have hvpal := varint_length_le_two (v := c.pal.length) (by omega)
  have hvcount := varint_length_le_two (v := wordCount c.bpe.toNat) (by omega)
  rw [encodeSection_length h.words_length]
  omega

/-- The largest length in either mode: in direct mode the words are twice as many as at width 8, and the palette is at most the
256 entries of a DECODE. -/
theorem encodeSection_length_le (h : c.Ok p) : (encodeSection p c).length ≤ 8710 + c.light.length := by
  rcases palBound_iff.mp h.pal_bound with ⟨-, hpal⟩ | ⟨h8, -⟩
  · have hcount := wordCount_le h.bpe_legal
    have hvpal := varint_length_le_two (v := c.pal.length) (by omega)
    have hvcount := varint_length_le_two (v := wordCount c.bpe.toNat) (by omega)
    rw [encodeSection_length h.words_length]
    omega
  · have := encodeSection_length_palette_le h h8
    omega

/-- Settles O55: the fields' lengths add up, and the palette and the word count have at most two varint bytes each, exactly two
at the largest values. -/
theorem encodedLength : Obligations.EncodedLength := by
  refine fun p c h => ⟨encodeSection_length h.words_length, encodeSection_length_le h, fun hb hpal => ?direct,
    encodeSection_length_palette_le h, fun hb hpal => ?palette, fun hmax => ?fits⟩
  case direct =>
    rw [encodeSection_length h.words_length, hb, hpal, wordCount_direct, varint_length_of_ge (v := 256) (by decide) (by decide),
      varint_length_of_ge (v := 1024) (by decide) (by decide)]
  case palette =>
    rw [encodeSection_length h.words_length, hb, hpal, wordCount_eight, varint_length_of_ge (v := 263) (by decide) (by decide),
      varint_length_of_ge (v := 512) (by decide) (by decide)]
  case fits =>
    have hlen := encodeSection_length_le h
    have hlight := h.light_bound
    omega

end Sys2Proof.Machine
end

section
/-! PROOFS. Response errors: how long ERR and ERRCODE stay (60_exceptions.md R265), and what an erroring command changes
(R264). -/

/-! ## An erroring command (60_exceptions.md R261, R264) -/

namespace Sys2Proof.Machine

variable {s t : State}

/-- A command keeps ERR and ERRCODE or is a DECODE or ENCODE that raises an error, from a state it has changed only in the
draws or OUT_LEN. -/
theorem exec_err_cases {i : Instr} (h : exec i s = .next t) :
    (t.err = s.err ∧ t.errcode = s.errcode) ∨
    (i = .decode ∧ ∃ e, t = raiseErr e (nextDraw s)) ∨
    (i = .encode ∧ ∃ e, t = raiseErr e { s with outLen := 0 }) := by
  rcases exec_cases h with ⟨-, rfl⟩ | ⟨_, _, _, -, rfl⟩ | ⟨_, _, _, _, -, rfl⟩ | ⟨_, _, _, -, rfl⟩ | ⟨_, -, -, rfl⟩ |
    ⟨e, hi, -, ht⟩ | ⟨e, hi, -, ht⟩ | ⟨-, -, rfl⟩
  · exact .inl ⟨rfl, rfl⟩
  · exact .inl ⟨rfl, rfl⟩
  · exact .inl ⟨rfl, rfl⟩
  · exact .inl ⟨rfl, rfl⟩
  · exact .inl ⟨rfl, rfl⟩
  · exact .inr (.inl ⟨hi, e, ht⟩)
  · exact .inr (.inr ⟨hi, e, ht⟩)
  · exact .inl ⟨rfl, rfl⟩

/-- Settles O22: ERR rises only in `raiseErr`, which writes STATUS alone; the draws and OUT_LEN are what DECODE and ENCODE
changed before it. -/
theorem errorsArePrecise : Obligations.ErrorsArePrecise := by
  intro i s t h hs ht
  rcases exec_err_cases h with ⟨hkept, -⟩ | ⟨rfl, e, rfl⟩ | ⟨rfl, e, rfl⟩
  · exact absurd (ht.symm.trans (hkept.trans hs)) (by decide)
  · exact ⟨.inl rfl, (errBits_range e).2.1, (errBits_range e).2.2, rfl, fun _ => rfl, nofun⟩
  · exact ⟨.inr rfl, (errBits_range e).2.1, (errBits_range e).2.2, rfl, nofun, fun _ => rfl⟩

end Sys2Proof.Machine

/-! ## How long an error stays (60_exceptions.md R265) -/

namespace Sys2Proof.Machine

variable {s t : State} {addr : BitVec 64} (be : BitVec 4) (v : BitVec 32)

/-- An error belongs to a finished command: the next one's acceptance has cleared it (60_exceptions.md R263). -/
theorem State.Inv.not_busy_of_err (h : s.Inv) (he : s.err = true) : s.busy = false := by
  cases hb : s.busy with
  | false => rfl
  | true => exact absurd (he.symm.trans (h.status_ok.busy_clear hb).2) (by decide)

/-- With nothing pending the engine waits (70_reset_and_hazards.md R292). -/
theorem engineStep_of_not_busy (hb : s.busy = false) : engineStep s = .next s := by
  rw [busy_eq, Option.isSome_eq_false_iff, Option.isNone_iff_eq_none] at hb
  rw [engineStep, hb]

/-- An accepted and an illegal CMD write both clear the error. -/
theorem hostWrite_clears_err (hr : regAt s.params addr = some .cmd) (hf : s.fault = false) (hb : s.busy = false) :
    (hostWrite addr be v s).err = false ∧ (hostWrite addr be v s).errcode = 0 := by
  have hcmd : hostWrite addr be v s = writeCmd v s := by rw [hostWrite, hr]; rfl
  rw [hcmd]
  rcases writeCmd_cases v s with ⟨hf', -⟩ | ⟨-, hb', -⟩ | ⟨-, -, -, h⟩ | ⟨-, -, -, h⟩
  · exact absurd (hf.symm.trans hf') (by decide)
  · exact absurd (hb.symm.trans hb') (by decide)
  · rw [h]; exact ⟨rfl, rfl⟩
  · rw [h]; exact ⟨rfl, rfl⟩

/-- No other host write touches the error. -/
theorem hostWrite_keeps_err (hw : ¬ (regAt s.params addr = some .cmd ∧ s.fault = false)) :
    (hostWrite addr be v s).err = s.err ∧ (hostWrite addr be v s).errcode = s.errcode := by
  rcases hostWrite_cases addr be v s with h | ⟨-, -, -, h⟩ | ⟨hf, -, hr, -⟩ | ⟨hf, -, hr, -⟩ | ⟨-, -, h⟩ | ⟨_, -, -, h⟩
  · rw [h]; exact ⟨rfl, rfl⟩
  · rw [h]; exact ⟨rfl, rfl⟩
  · exact absurd ⟨hr, hf⟩ hw
  · exact absurd ⟨hr, hf⟩ hw
  · rw [h]; exact ⟨rfl, rfl⟩
  · rw [h]; exact ⟨rfl, rfl⟩

/-- The moves that clear the error while no command is pending: `rst`, and a CMD write that no fault has the block ignore. -/
def State.clearsErr (s : State) : Prop :=
  s.agenda.head? = some .rst ∨
    ∃ addr be v rest, s.agenda = .write addr be v :: rest ∧ regAt s.params addr = some .cmd ∧ s.fault = false

theorem step_clears_err (hb : s.busy = false) (h : step s = .next t) (hc : s.clearsErr) : t.err = false ∧ t.errcode = 0 := by
  rcases hc with hrst | ⟨addr, be, v, rest, ha, hr, hf⟩
  · rw [step_of_cons (List.eq_cons_of_mem_head? hrst)] at h
    cases h
    exact ⟨rfl, rfl⟩
  · rw [step_of_cons ha] at h
    cases h
    exact hostWrite_clears_err (s := { s with agenda := rest }) be v hr hf hb

theorem step_keeps_err (hb : s.busy = false) (h : step s = .next t) (hc : ¬ s.clearsErr) :
    t.err = s.err ∧ t.errcode = s.errcode := by
  rcases step_cases h with ⟨-, he⟩ | ⟨rest, -, he⟩ | ⟨_, _, _, -, rfl⟩ | ⟨addr, be, v, rest, ha, rfl⟩ | ⟨rest, ha, -⟩
  · rw [engineStep_of_not_busy hb] at he
    cases he
    exact ⟨rfl, rfl⟩
  · rw [engineStep_of_not_busy (s := { s with agenda := rest }) hb] at he
    cases he
    exact ⟨rfl, rfl⟩
  · exact ⟨rfl, rfl⟩
  · exact hostWrite_keeps_err (s := { s with agenda := rest }) be v fun ⟨hr, hf⟩ => hc (.inr ⟨addr, be, v, rest, ha, hr, hf⟩)
  · exact absurd (.inl (by rw [ha]; rfl)) hc

/-- Settles O21: with ERR = 1 no command is pending, so the engine waits, and of the host's moves `rst` and the CMD writes that
are not ignored clear the error. -/
theorem errorStaysUntilTheNextCommand : Obligations.ErrorStaysUntilTheNextCommand := by
  intro s t inv he h
  have hb := inv.not_busy_of_err he
  refine ⟨step_clears_err hb h, fun hc => ?_⟩
  obtain ⟨herr, hcode⟩ := step_keeps_err hb h hc
  exact ⟨herr.trans he, hcode⟩

end Sys2Proof.Machine
end

section
/-! PROOFS. What `rst` leaves (70_reset_and_hazards.md R290). -/

namespace Sys2Proof.Machine

variable {p : Params}

theorem step_rst {s : State} {rest : List Action} (ha : s.agenda = .rst :: rest) :
    step s = .next (hardReset { s with agenda := rest }) := step_of_cons ha

/-- Every word of the array, not only each of its cells, is 0. -/
theorem emptySection_word_eq_zero {w : BitVec 64} (hw : w ∈ (emptySection p).words) : w = 0 :=
  List.eq_of_mem_replicate (emptySection_words p ▸ hw)

/-- A legal `RESET_BPE` is at most 8, so an empty section is in palette mode. -/
theorem emptySection_direct (hp : p.Legal) : (emptySection p).direct = false := by
  obtain ⟨-, h8, -⟩ := id hp
  exact direct_eq_false_iff.mpr ((emptySection_bpe_toNat hp).trans_le h8)

/-- STATUS reads 0 when no command is pending, nothing is recorded and the section is in palette mode. -/
theorem statusWord_eq_zero {s : State} (hbusy : s.busy = false) (hdone : s.done = false) (herr : s.err = false)
    (hfault : s.fault = false) (herrcode : s.errcode = 0) (hfaultcode : s.faultcode = 0) (hmode : s.mode = false) :
    statusWord s = 0 := by
  rw [statusWord, hbusy, hdone, herr, hfault, herrcode, hfaultcode, hmode]
  rfl

/-- MODE is the one field of STATUS that a reset block still derives from its section. -/
theorem hardReset_statusWord {s : State} (hp : s.params.Legal) : statusWord (hardReset s) = 0 :=
  statusWord_eq_zero rfl rfl rfl rfl rfl rfl (emptySection_direct hp)

/-- Settles O25: the section is `emptySection`, the one INIT makes, and every other element of the table is a constant of
`State.resetWith`, save for STATUS with its derived MODE. -/
theorem resetLeavesTheTableOfR290 : Obligations.ResetLeavesTheTableOfR290 := by
  intro s rest hp ha
  refine ⟨_, step_rst ha, emptySection_bpe_toNat hp, ?wordCount, fun w => emptySection_word_eq_zero,
    fun i _ => emptySection_cell hp i, fun h => ?sentinel, fun h => ?empty, rfl, rfl, fun _ => rfl, rfl, fun _ => rfl, rfl,
    hardReset_statusWord hp, rfl, _, exec_init_eq s, rfl⟩
  case wordCount => rw [hardReset_sec, emptySection_words, List.length_replicate]
  case sentinel =>
    rw [State.palLen, hardReset_sec, emptySection_pal, h]
    exact ⟨rfl, rfl⟩
  case empty =>
    rw [State.palLen, hardReset_sec, emptySection_pal, h]
    exact ⟨rfl, rfl⟩

end Sys2Proof.Machine
end

section
/-! PROOFS. The command word: the decoder and the encoder agree (30_encoding.md R94 to R98). -/

namespace Sys2Proof

variable {w : CmdWord} {i : Instr}

/-! ## Decode and encode -/

/-- The word of a command decodes to it: its opcode and RSV choose the row, whose zero fields the encoder wrote as 0. -/
theorem decode_encode (i : Instr) : decode (encode i) = .ok i := by
  cases i with
  | init => decide
  | get x y z => exact decode_encodeFields_get y z x
  | set x y z v =>
    simp [encode, decode, fieldOp_encodeFields, fieldRsv_encodeFields, fieldX_encodeFields, fieldY_encodeFields,
      fieldZ_encodeFields, fieldVal_encodeFields]
  | peek x y z => exact decode_encodeFields_peek y z x
  | decode => decide
  | encode => decide

/-- A word that decodes is its own fields put together, and those are what the encoder writes for its row. -/
theorem encode_of_decode (h : decode w = .ok i) : encode i = w := by
  obtain ⟨hrsv, row⟩ := decode_ok h
  have hw := encodeFields_fields w hrsv
  rcases row with ⟨rfl, hop, hx, hz, hy, hv⟩ | ⟨rfl, hop, hv⟩ | ⟨rfl, hop⟩ | ⟨rfl, hop, hv⟩ | ⟨rfl, hop, hx, hz, hy, hv⟩ |
    ⟨rfl, hop, hx, hz, hy, hv⟩
  · rwa [hop, hx, hz, hy, hv] at hw
  · rwa [hop, hv] at hw
  · rwa [hop] at hw
  · rwa [hop, hv] at hw
  · rwa [hop, hx, hz, hy, hv] at hw
  · rwa [hop, hx, hz, hy, hv] at hw

/-- Settles O1: a decoded word is put together again from its fields, and an encoded command's fields are its operands. -/
theorem decodeAndEncodeAgree : Obligations.DecodeAndEncodeAgree :=
  fun _ i => ⟨encode_of_decode, fun h => h ▸ decode_encode i⟩

/-- Settles O4, each word by evaluation. -/
theorem sampleWordsDecode : Obligations.SampleWordsDecode := by
  refine ⟨?_, ?_, ?_, ?_, ?_, ?_, ?_, ?_, ?_, ?_, ?_, ?_⟩ <;> decide

/-! ## The table of 30_encoding.md R94 -/

/-- Every command's word lies in its row. -/
theorem encode_and_tableMask (i : Instr) : encode i &&& tableMask i = tableMatch i := by
  cases i with
  | init => exact Laws.TableRow.init
  | get x y z => exact Laws.TableRow.get x y z
  | set x y z v => exact Laws.TableRow.set x y z v
  | peek x y z => exact Laws.TableRow.peek x y z
  | decode => exact Laws.TableRow.decode
  | encode => exact Laws.TableRow.encode

/-- Opcode and RSV under a mask that has all their bits. -/
theorem fieldOp_and {m : CmdWord} (hm : fieldOp m = BitVec.allOnes 4) : fieldOp (w &&& m) = fieldOp w := by
  rw [fieldOp, BitVec.extractLsb'_and, ← fieldOp, ← fieldOp, hm, BitVec.and_allOnes]

@[inherit_doc fieldOp_and]
theorem fieldRsv_and {m : CmdWord} (hm : fieldRsv m = BitVec.allOnes 2) : fieldRsv (w &&& m) = fieldRsv w := by
  rw [fieldRsv, BitVec.extractLsb'_and, ← fieldRsv, ← fieldRsv, hm, BitVec.and_allOnes]

/-- VAL under a mask that has all its bits. -/
theorem fieldVal_and {m : CmdWord} (hm : fieldVal m = BitVec.allOnes 14) : fieldVal (w &&& m) = fieldVal w := by
  rw [fieldVal, BitVec.extractLsb'_and, ← fieldVal, ← fieldVal, hm, BitVec.and_allOnes]

/-- A word in the row of a cell command without a value: the bits outside the mask are its coordinates. -/
theorem encodeFields_of_cellMask {op : BitVec 4} (h : w &&& 0xFFFF000F = encodeFields 0 0 0 0 op) :
    encodeFields 0 (fieldY w) (fieldZ w) (fieldX w) op = w := by
  have hop : fieldOp w = op := by rw [← fieldOp_and (m := 0xFFFF000F) rfl, h, fieldOp_encodeFields]
  have hrsv : fieldRsv w = 0 := by rw [← fieldRsv_and (m := 0xFFFF000F) rfl, h, fieldRsv_encodeFields]
  have hv : fieldVal w = 0 := by rw [← fieldVal_and (m := 0xFFFF000F) rfl, h, fieldVal_encodeFields]
  rw [← hop, ← hv, encodeFields_fields w hrsv]

/-- A word in the row of SET: the bits outside the mask are its coordinates and its value. -/
theorem encodeFields_of_setMask {op : BitVec 4} (h : w &&& 0xC000000F = encodeFields 0 0 0 0 op) :
    encodeFields (fieldVal w) (fieldY w) (fieldZ w) (fieldX w) op = w := by
  have hop : fieldOp w = op := by rw [← fieldOp_and (m := 0xC000000F) rfl, h, fieldOp_encodeFields]
  have hrsv : fieldRsv w = 0 := by rw [← fieldRsv_and (m := 0xC000000F) rfl, h, fieldRsv_encodeFields]
  rw [← hop, encodeFields_fields w hrsv]

/-- A word in a row is the word of a command of that row: the bits outside the mask are its operands. -/
theorem exists_encode_of_row (h : w &&& tableMask i = tableMatch i) : ∃ j, encode j = w := by
  have hfull {m : CmdWord} (h : w &&& 0xFFFFFFFF = m) : m = w := by rw [← h, Laws.mask_full]
  cases i with
  | init => exact ⟨.init, hfull h⟩
  | get x y z => exact ⟨.get (fieldX w) (fieldY w) (fieldZ w), encodeFields_of_cellMask (op := 2) h⟩
  | set x y z v => exact ⟨.set (fieldX w) (fieldY w) (fieldZ w) (fieldVal w), encodeFields_of_setMask (op := 3) h⟩
  | peek x y z => exact ⟨.peek (fieldX w) (fieldY w) (fieldZ w), encodeFields_of_cellMask (op := 4) h⟩
  | decode => exact ⟨.decode, hfull h⟩
  | encode => exact ⟨.encode, hfull h⟩

theorem tableRow_of_decode (h : decode w = .ok i) : w &&& tableMask i = tableMatch i := by
  rw [← encode_of_decode h, encode_and_tableMask]

/-- A word is legal exactly when it lies in a row. -/
theorem illegal_eq_false_iff_row : illegal w = false ↔ ∃ i, w &&& tableMask i = tableMatch i := by
  rw [illegal_eq_false]
  refine ⟨fun ⟨i, h⟩ => ⟨i, tableRow_of_decode h⟩, fun ⟨i, h⟩ => ?_⟩
  obtain ⟨j, rfl⟩ := exists_encode_of_row h
  exact ⟨j, decode_encode j⟩

/-- Settles O2: the rows are exactly the words of the commands, which are the words that decode. -/
theorem legalWordsMatchTheTable : Obligations.LegalWordsMatchTheTable := by
  refine ⟨fun w => ?_, fun w i => tableRow_of_decode⟩
  rw [← Bool.not_eq_false, illegal_eq_false_iff_row, not_exists]

end Sys2Proof
end

section
/-! PROOFS. The assembler's words (30_encoding.md R99, R100). -/

namespace Sys2Proof

/-- A command word with its fields shifted to their places (30_encoding.md R91). -/
theorem encodeFields_toNat_or (v : RawValue) (y z x : Coord) (op : BitVec 4) :
    (encodeFields v y z x op).toNat
      = v.toNat <<< 16 ||| y.toNat <<< 12 ||| z.toNat <<< 8 ||| x.toNat <<< 4 ||| op.toNat := by
  simp only [encodeFields, BitVec.toNat_append, BitVec.toNat_ofNat, Nat.zero_mod, Nat.zero_shiftLeft, Nat.zero_or]
  simp only [Nat.shiftLeft_or_distrib, ← Nat.shiftLeft_add, Nat.reduceAdd]

/-- The word of a cell command with the index in place of the coordinates (30_encoding.md R92). -/
theorem encodeFields_toNat_cellOf (v : RawValue) (y z x : Coord) (op : BitVec 4) :
    (encodeFields v y z x op).toNat = v.toNat <<< 16 ||| Machine.cellOf x y z <<< 4 ||| op.toNat := by
  rw [encodeFields_toNat_or, Machine.cellOf_eq_shiftLeft_or]
  simp [Nat.shiftLeft_or_distrib, ← Nat.shiftLeft_add, Nat.or_assoc]

/-- The coordinates of a linear index name its cell (41_section.md R161). -/
theorem cellOf_index {i : Nat} (h : i < 4096) : Machine.cellOf (indexX i) (indexY i) (indexZ i) = i := by
  rw [Machine.cellOf_eq_linearIndex, Machine.linearIndex]
  simp only [indexX, indexY, indexZ, BitVec.toNat_ofNat]
  omega

variable {x y z v i : Nat}

theorem coordsOk_iff : (coordOk x && coordOk y && coordOk z) = true ↔ x < 16 ∧ y < 16 ∧ z < 16 := by
  simp [coordOk, and_assoc]

theorem valueOk_iff : valueOk v = true ↔ v < 16384 := decide_eq_true_iff

theorem indexOk_iff : indexOk i = true ↔ i < 4096 := decide_eq_true_iff

/-- A refused line stands for no command. -/
theorem assemble_eq_none {l : AsmLine} (h : ¬ l.wellFormed = true) : assemble l = none := if_neg h

/-! ## Lines in range -/

theorem assemble_get (hx : x < 16) (hy : y < 16) (hz : z < 16) :
    (assemble (.get x y z)).map (fun i => (encode i).toNat) = some (y <<< 12 ||| z <<< 8 ||| x <<< 4 ||| 2) := by
  have hok : AsmLine.wellFormed (.get x y z) = true := coordsOk_iff.mpr ⟨hx, hy, hz⟩
  simp [assemble, hok, encode, encodeFields_toNat_or, Nat.mod_eq_of_lt, hx, hy, hz]

theorem assemble_peek (hx : x < 16) (hy : y < 16) (hz : z < 16) :
    (assemble (.peek x y z)).map (fun i => (encode i).toNat) = some (y <<< 12 ||| z <<< 8 ||| x <<< 4 ||| 4) := by
  have hok : AsmLine.wellFormed (.peek x y z) = true := coordsOk_iff.mpr ⟨hx, hy, hz⟩
  simp [assemble, hok, encode, encodeFields_toNat_or, Nat.mod_eq_of_lt, hx, hy, hz]

theorem assemble_set (hx : x < 16) (hy : y < 16) (hz : z < 16) (hv : v < 16384) :
    (assemble (.set x y z v)).map (fun i => (encode i).toNat)
      = some (v <<< 16 ||| y <<< 12 ||| z <<< 8 ||| x <<< 4 ||| 3) := by
  have hok : AsmLine.wellFormed (.set x y z v) = true :=
    (Bool.and_eq_true ..).mpr ⟨coordsOk_iff.mpr ⟨hx, hy, hz⟩, valueOk_iff.mpr hv⟩
  simp [assemble, hok, encode, encodeFields_toNat_or, Nat.mod_eq_of_lt, hx, hy, hz, hv]

theorem assemble_getI (hi : i < 4096) :
    (assemble (.getI i)).map (fun c => (encode c).toNat) = some (i <<< 4 ||| 2) := by
  have hok : AsmLine.wellFormed (.getI i) = true := indexOk_iff.mpr hi
  simp [assemble, hok, encode, encodeFields_toNat_cellOf, cellOf_index hi]

theorem assemble_peekI (hi : i < 4096) :
    (assemble (.peekI i)).map (fun c => (encode c).toNat) = some (i <<< 4 ||| 4) := by
  have hok : AsmLine.wellFormed (.peekI i) = true := indexOk_iff.mpr hi
  simp [assemble, hok, encode, encodeFields_toNat_cellOf, cellOf_index hi]

theorem assemble_setI (hi : i < 4096) (hv : v < 16384) :
    (assemble (.setI i v)).map (fun c => (encode c).toNat) = some (v <<< 16 ||| i <<< 4 ||| 3) := by
  have hok : AsmLine.wellFormed (.setI i v) = true := (Bool.and_eq_true ..).mpr ⟨indexOk_iff.mpr hi, valueOk_iff.mpr hv⟩
  simp [assemble, hok, encode, encodeFields_toNat_cellOf, cellOf_index hi, Nat.mod_eq_of_lt, hv]

/-! ## Lines out of range -/

theorem assemble_of_bad_coords (h : ¬ (x < 16 ∧ y < 16 ∧ z < 16)) (v : Nat) :
    assemble (.get x y z) = none ∧ assemble (.peek x y z) = none ∧ assemble (.set x y z v) = none := by
  have hbad := mt coordsOk_iff.mp h
  exact ⟨assemble_eq_none hbad, assemble_eq_none hbad, assemble_eq_none fun hok => hbad ((Bool.and_eq_true ..).mp hok).1⟩

theorem assemble_of_bad_value (h : 16384 ≤ v) :
    (∀ x y z, assemble (.set x y z v) = none) ∧ ∀ i, assemble (.setI i v) = none := by
  have hbad : ¬ valueOk v = true := mt valueOk_iff.mp (by omega)
  exact ⟨fun x y z => assemble_eq_none fun hok => hbad ((Bool.and_eq_true ..).mp hok).2,
    fun i => assemble_eq_none fun hok => hbad ((Bool.and_eq_true ..).mp hok).2⟩

theorem assemble_of_bad_index (h : 4096 ≤ i) (v : Nat) :
    assemble (.getI i) = none ∧ assemble (.peekI i) = none ∧ assemble (.setI i v) = none := by
  have hbad : ¬ indexOk i = true := mt indexOk_iff.mp (by omega)
  exact ⟨assemble_eq_none hbad, assemble_eq_none hbad, assemble_eq_none fun hok => hbad ((Bool.and_eq_true ..).mp hok).1⟩

/-- Settles O6: a line in range stands for the command with its operands, whose word is the fields at their places. -/
theorem assemblerGivesTheWords : Obligations.AssemblerGivesTheWords :=
  ⟨⟨by decide, by decide, by decide⟩,
    fun _ _ _ hx hy hz => ⟨assemble_get hx hy hz, assemble_peek hx hy hz, fun _ hv => assemble_set hx hy hz hv⟩,
    fun _ hi => ⟨assemble_getI hi, assemble_peekI hi, fun _ hv => assemble_setI hi hv⟩,
    fun _ _ _ v h => assemble_of_bad_coords h v, fun _ h => assemble_of_bad_value h, fun _ v h => assemble_of_bad_index h v⟩

end Sys2Proof
end

section
/-! PROOFS. The host's bus: the address decode, the fields of STATUS, what a read returns and what a write stores
(20_memory.md; 10_state.md R30, R35, R36; 60_exceptions.md R263). -/

/-! ## The address decode -/

namespace Sys2Proof.Machine

variable {p : Params} {s : State} {addr addr' : BitVec 64} {r : HostReg}

/-- The offset of a register the block has lies below 2^18, so no address bit of it is cut off, and on a word. -/
theorem regOffset_bounds (hp : p.Legal) (hr : r.wellFormed p = true) :
    regOffset r < 2 ^ 18 ∧ 4 * (regOffset r / 4) = regOffset r := by
  obtain ⟨-, -, -, hin, -, hout, -⟩ := hp
  cases r with
  | pal k =>
    have hk : k < 264 := of_decide_eq_true hr
    simp only [regOffset]; omega
  | inByte k =>
    have hk : k < p.inMax := of_decide_eq_true hr
    simp only [regOffset]; omega
  | outByte k =>
    have hk : k < p.outMax := of_decide_eq_true hr
    simp only [regOffset]; omega
  | cmd | status | result | bpe | palLen | inLen | outLen | lightLen => decide

/-- The block takes its base off again (20_memory.md R73). -/
theorem regNumber_regAddr (hp : p.Legal) (hr : r.wellFormed p = true) : regNumber p (regAddr p r) = regOffset r / 4 := by
  have hoff := (regOffset_bounds hp hr).1
  have hbase : regAddr p r - p.base = BitVec.ofNat 64 (regOffset r) := by
    rw [regAddr, BitVec.add_comm, BitVec.add_sub_cancel]
  rw [regNumber, hbase, BitVec.extractLsb'_toNat, BitVec.toNat_ofNat, Nat.shiftRight_eq_div_pow]
  omega

/-- The single registers are the first eight. -/
theorem regOfNumber_of_ge {n : Nat} (h : 8 ≤ n) : regOfNumber p n = windowReg p n := by
  obtain ⟨m, rfl⟩ := Nat.exists_eq_add_of_le' h
  exact Option.none_or

/-- Each slot of a window has its own number, which no other window has. -/
theorem regOfNumber_regOffset (hp : p.Legal) (hr : r.wellFormed p = true) : regOfNumber p (regOffset r / 4) = some r := by
  obtain ⟨-, -, -, hin, -, hout, -⟩ := hp
  cases r with
  | pal k =>
    have hk : k < 264 := of_decide_eq_true hr
    have hn : regOffset (.pal k) / 4 = 0x400 + k := by simp only [regOffset]; omega
    rw [hn, regOfNumber_of_ge (by omega), windowReg, if_pos ⟨by omega, by simpa using hk⟩, Nat.add_sub_cancel_left]
  | inByte k =>
    have hk : k < p.inMax := of_decide_eq_true hr
    have hn : regOffset (.inByte k) / 4 = 0x4000 + k := by simp only [regOffset]; omega
    rw [hn, regOfNumber_of_ge (by omega), windowReg, if_neg (by simp only [Config.palMax]; omega),
      if_pos ⟨by omega, by omega, by omega⟩, Nat.add_sub_cancel_left]
  | outByte k =>
    have hk : k < p.outMax := of_decide_eq_true hr
    have hn : regOffset (.outByte k) / 4 = 0x8000 + k := by simp only [regOffset]; omega
    rw [hn, regOfNumber_of_ge (by omega), windowReg, if_neg (by simp only [Config.palMax]; omega),
      if_neg (by omega), if_pos ⟨by omega, by omega, by omega⟩, Nat.add_sub_cancel_left]
  | cmd | status | result | bpe | palLen | inLen | outLen | lightLen => rfl

/-- A register answers at its own address. -/
theorem regAt_regAddr (hp : p.Legal) (hr : r.wellFormed p = true) : regAt p (regAddr p r) = some r := by
  rw [regAt, regNumber_regAddr hp hr, regOfNumber_regOffset hp hr]

/-- Settles O8: a register's address gives back its number, and a number is the one register's whose offset it is. -/
theorem addressDecodeIsTheRegisterMap : Obligations.AddressDecodeIsTheRegisterMap :=
  fun _ hp => ⟨fun _ hr => regAt_regAddr hp hr, fun _ _ h => regOfNumber_eq_some h⟩

/-- Bits [17:2] of the distance from BASE are the register number. -/
theorem regAt_congr (h : ∀ n, 2 ≤ n → n < 18 → (addr - p.base).getLsbD n = (addr' - p.base).getLsbD n) :
    regAt p addr = regAt p addr' := by
  have hbits : (addr - p.base).extractLsb' 2 16 = (addr' - p.base).extractLsb' 2 16 := by
    refine BitVec.eq_of_getLsbD_eq fun n hn => ?_
    rw [BitVec.getLsbD_extractLsb', BitVec.getLsbD_extractLsb', h (2 + n) (by omega) (by omega)]
  rw [regAt, regAt, regNumber, regNumber, hbits]

/-- Settles O7: a host access uses its address only through the register it reaches, and its byte enables not at all. -/
theorem onlyAddressBits17To2Matter : Obligations.OnlyAddressBits17To2Matter := by
  intro s a a' be be' v h
  have hreg := regAt_congr h
  exact ⟨by rw [hostRead, hostRead, readValue, readValue, hreg], by rw [hostWrite, hostWrite, hreg]⟩

end Sys2Proof.Machine

/-! ## STATUS (10_state.md R30) -/

namespace Sys2Proof.Machine

/-- Settles O10: each field's bits, counted from its lowest. -/
theorem statusFieldsAtTheirBits : Obligations.StatusFieldsAtTheirBits := by
  intro s
  refine ⟨?busy, ?done, ?err, ?fault, ?errcode, ?faultcode, ?mode, ?zero⟩
  case errcode | faultcode | zero =>
    refine BitVec.eq_of_getLsbD_eq fun n hn => ?_
    rw [BitVec.getLsbD_extractLsb', statusWord_getLsbD]
    interval_cases n <;> simp
  case busy | done | err | fault => rw [statusWord_getLsbD]; simp
  case mode => rw [statusWord_getLsbD]; simp [State.mode, Section.direct]

end Sys2Proof.Machine

/-! ## Reads -/

namespace Sys2Proof.Machine

variable {s : State} {addr : BitVec 64} {r : HostReg}

theorem readValue_of_regAt (h : regAt s.params addr = some r) :
    readValue s addr = if s.busy && r != .status then freeWord s 0 else idleRegValue s r := by
  rw [readValue, h]

theorem readValue_idle (h : regAt s.params addr = some r) (hb : s.busy = false) : readValue s addr = idleRegValue s r := by
  rw [readValue_of_regAt h, hb]; rfl

/-- STATUS reads as it stands, busy or not. -/
theorem readValue_status (h : regAt s.params addr = some .status) : readValue s addr = statusWord s := by
  rw [readValue_of_regAt h, bne_self_eq_false, Bool.and_false]; rfl

theorem readValue_busy (h : regAt s.params addr = some r) (hb : s.busy = true) (hr : r ≠ .status) :
    readValue s addr = Config.anyValue s.draws 0 := by
  rw [readValue_of_regAt h, hb, bne_iff_ne.mpr hr]; rfl

theorem step_read {be : BitVec 4} {rest : List Action} (ha : s.agenda = .read addr be :: rest) :
    step s = .next (hostRead addr be { s with agenda := rest }) := step_of_cons ha

/-- Settles O12: a read is a new `rdata` and a new draw. -/
theorem hostReadChangesNothing : Obligations.HostReadChangesNothing :=
  fun s _ _ rest ha => ⟨_, step_read ha, rfl, rfl, readValue_status (s := { s with agenda := rest })⟩

/-- A byte that was written has an entry. -/
theorem Memory.exists_mem_of_read {m : List Host.Cell} {k : Nat} {b : Byte} (h : Memory.read m k = some b) : (k, b) ∈ m := by
  induction m with
  | nil => simp [Memory.read] at h
  | cons c m ih =>
    rw [Memory.read] at h
    split at h
    case isTrue hc =>
      obtain rfl : c = (k, b) := Prod.ext hc (Option.some.inj h)
      exact List.mem_cons_self
    case isFalse => exact List.mem_cons_of_mem c (ih h)

theorem bufferByte_of_read {m : List Host.Cell} {k : Nat} {b : Byte} (h : Memory.read m k = some b) (s : State) :
    (bufferByte s m k).toNat = b.toNat := by
  rw [bufferByte, h]
  exact BitVec.toNat_setWidth_of_le (show 8 ≤ 32 by decide)

/-- Settles O11: each register answers at its own address with its value, which its 32 bits hold: a palette of the invariant is
shorter than 2^9, light data shorter than 2^16, and a written byte lies inside its window. -/
theorem idleReadsShowTheRegisters : Obligations.IdleReadsShowTheRegisters := by
  intro s be inv hb rd
  have hp := inv.params_legal
  obtain ⟨-, -, -, -, -, -, hlightMax⟩ := id hp
  have hrd {r : HostReg} (hr : r.wellFormed s.params = true) : rd r = idleRegValue s r :=
    readValue_idle (regAt_regAddr hp hr) hb
  have hpal := palBound_le inv.section_ok.pal_bound
  have hlight := inv.section_ok.light_bound
  refine ⟨hrd rfl, hrd rfl, ?result, ?bpe, ?palLen, ?inLen, ?outLen, ?lightLen, fun k v hv => ?pal,
    fun k hk hk' => ?palBeyond, fun k b hread => ?inByte, fun k b hk hread => ?outByte⟩
  case result | bpe | inLen | outLen => rw [hrd rfl, idleRegValue, BitVec.toNat_setWidth_of_le (by decide)]
  case palLen =>
    rw [hrd rfl, idleRegValue, BitVec.toNat_setWidth_of_le (by decide), BitVec.toNat_ofNat, State.palLen,
      Nat.mod_eq_of_lt (by omega)]
  case lightLen =>
    rw [hrd rfl, idleRegValue, BitVec.toNat_setWidth_of_le (by decide), BitVec.toNat_ofNat, State.lightLen,
      Nat.mod_eq_of_lt (by omega)]
  case pal =>
    obtain ⟨hk, -⟩ := List.getElem?_eq_some_iff.mp hv
    rw [hrd (r := .pal k) (decide_eq_true (show k < 264 by omega)), idleRegValue,
      BitVec.toNat_setWidth_of_le (by decide), List.getD_eq_getElem?_getD, hv, Option.getD_some]
  case palBeyond =>
    rw [hrd (r := .pal k) (decide_eq_true hk'), idleRegValue, List.getD_eq_default _ _ hk]
    rfl
  case inByte =>
    rw [hrd (r := .inByte k) (decide_eq_true (inv.in_ok.2 _ (Memory.exists_mem_of_read hread)))]
    exact bufferByte_of_read hread s
  case outByte =>
    rw [hrd (r := .outByte k) (decide_eq_true (inv.out_ok.2 _ (Memory.exists_mem_of_read hread))), idleRegValue, if_pos hk]
    exact bufferByte_of_read hread s

end Sys2Proof.Machine

/-! ## Writes -/

namespace Sys2Proof.Machine

variable {s : State} {addr : BitVec 64} {be : BitVec 4} {v : BitVec 32} {r : HostReg} {rest : List Action}

theorem hostWrite_of_regAt (h : regAt s.params addr = some r) (be : BitVec 4) (v : BitVec 32) :
    hostWrite addr be v s = writeReg s v r := by
  rw [hostWrite, h]

theorem step_write (ha : s.agenda = .write addr be v :: rest) :
    step s = .next (hostWrite addr be v { s with agenda := rest }) := step_of_cons ha

theorem step_write_of_regAt (ha : s.agenda = .write addr be v :: rest) (h : regAt s.params addr = some r) :
    step s = .next (writeReg { s with agenda := rest } v r) := by
  rw [step_write ha, hostWrite_of_regAt (s := { s with agenda := rest }) h]

/-- A write of a read-only register is ignored (10_state.md R36). -/
theorem writeReg_readOnly (hr : r ≠ .cmd ∧ r ≠ .inLen ∧ ∀ k, r ≠ .inByte k) (s : State) (v : BitVec 32) :
    writeReg s v r = s := by
  obtain ⟨hcmd, hinLen, hinByte⟩ := hr
  cases r with
  | cmd => exact absurd rfl hcmd
  | inLen => exact absurd rfl hinLen
  | inByte k => exact absurd rfl (hinByte k)
  | status | result | bpe | palLen | outLen | lightLen | pal | outByte => rfl

theorem writeInput_idle (hb : s.busy = false) (s' : State) : writeInput s s' = s' := by
  rw [writeInput, hb]; rfl

theorem writeInput_busy (hb : s.busy = true) (s' : State) : writeInput s s' = raiseFault .overrun s := by
  rw [writeInput, hb]; rfl

/-- While BUSY = 1 a write of CMD or of input is one attempt to record OVERRUN (20_memory.md R72). -/
theorem writeReg_busy (hb : s.busy = true) (hr : r = .cmd ∨ r = .inLen ∨ ∃ k, r = .inByte k) (v : BitVec 32) :
    writeReg s v r = raiseFault .overrun s := by
  rcases hr with rfl | rfl | ⟨k, rfl⟩
  · rcases writeCmd_cases v s with ⟨hf, h⟩ | ⟨hf, -, h⟩ | ⟨-, hb', -⟩ | ⟨-, hb', -⟩
    · exact h.trans (raiseFault_of_fault hf).symm
    · exact h.trans (raiseFault_of_clear hf).symm
    · simp [hb] at hb'
    · simp [hb] at hb'
  · exact writeInput_busy hb _
  · exact writeInput_busy hb _

/-- Settles O13: the write is dropped in favour of OVERRUN, which a recorded fault keeps out. -/
theorem writeWhileBusyFaultsOverrun : Obligations.WriteWhileBusyFaultsOverrun := by
  intro s addr be v rest r hb ha hreg hr
  have hwrite : step s = .next (raiseFault .overrun { s with agenda := rest }) := by
    rw [step_write_of_regAt ha hreg, writeReg_busy (s := { s with agenda := rest }) hb hr]
  exact ⟨fun hf => hwrite.trans (congrArg _ (raiseFault_of_fault hf)),
    fun hf => hwrite.trans (congrArg _ (raiseFault_of_clear hf))⟩

theorem hostWrite_inByte (hb : s.busy = false) {k : Nat} (h : regAt s.params addr = some (.inByte k)) (be : BitVec 4)
    (v : BitVec 32) : hostWrite addr be v s = { s with inBuf := Memory.write s.inBuf k (v.setWidth 8) } := by
  rw [hostWrite_of_regAt h]
  exact writeInput_idle hb _

theorem hostWrite_inLen (hb : s.busy = false) (h : regAt s.params addr = some .inLen) (be : BitVec 4) (v : BitVec 32) :
    hostWrite addr be v s = { s with inLen := v.setWidth 16 } := by
  rw [hostWrite_of_regAt h]
  exact writeInput_idle hb _

/-- Settles O14: no register but CMD and those of input takes a write, and an idle write of input is one new byte or a new
length. -/
theorem hostWritesStoreInputOnly : Obligations.HostWritesStoreInputOnly := by
  refine ⟨fun s addr be v rest r ha hreg hr => ?readOnly, fun s be v hp hb => ⟨fun k hk => ?inByte, ?inLen⟩⟩
  case readOnly => rw [step_write_of_regAt ha hreg, writeReg_readOnly hr]
  case inByte =>
    have hreg := regAt_regAddr hp (r := .inByte k) (decide_eq_true hk)
    rw [hostWrite_inByte hb hreg]
    refine ⟨?_, fun j hj => ?_, rfl⟩
    · rw [Memory.read_write, if_pos rfl, BitVec.setWidth_eq_extractLsb' (show 8 ≤ 32 by decide)]
    · rw [Memory.read_write, if_neg hj]
  case inLen =>
    rw [hostWrite_inLen hb (regAt_regAddr hp (r := .inLen) rfl)]
    exact ⟨BitVec.setWidth_eq_extractLsb' (show 16 ≤ 32 by decide), rfl⟩

/-- Settles O16: the cases of 60_exceptions.md R263 in their order. -/
theorem commandAcceptanceCases : Obligations.CommandAcceptanceCases := by
  intro s addr be c hreg t
  have ht : t = writeCmd c s := hostWrite_of_regAt hreg be c
  rw [ht]
  rcases writeCmd_cases c s with ⟨hf, h⟩ | ⟨hf, hb, h⟩ | ⟨hf, hb, hi, h⟩ | ⟨hf, hb, hi, h⟩ <;> rw [h, hf]
  · exact ⟨fun _ => rfl, nofun, nofun, nofun⟩
  · rw [hb]; exact ⟨nofun, fun _ _ => rfl, nofun, nofun⟩
  · rw [hb, hi]; exact ⟨nofun, nofun, fun _ _ _ => rfl, nofun⟩
  · rw [hb, hi]; exact ⟨nofun, nofun, nofun, fun _ _ _ => rfl⟩

/-- Settles O59: the two registers of a busy block are STATUS and every other one, and no register answers at an unmapped
offset. -/
theorem busyReadsShowStatusOnly : Obligations.BusyReadsShowStatusOnly := by
  intro s addr be rest hp hb
  refine ⟨fun ha => ⟨_, step_read ha, fun r hreg => ?_, fun hu => ?_⟩, fun v ha hu => ?_⟩
  · by_cases hr : r = .status
    · subst hr
      exact readValue_status (s := { s with agenda := rest }) hreg
    · rw [if_neg hr]
      exact readValue_busy (s := { s with agenda := rest }) hreg hb hr
  · exact readValue_of_regAt_none (s := { s with agenda := rest }) (regAt_eq_none_of_unmapped hp hu)
  · rw [step_write ha, hostWrite_of_regAt_none (s := { s with agenda := rest }) (regAt_eq_none_of_unmapped hp hu)]

end Sys2Proof.Machine
end

section
/-! PROOFS. The two agents: what each of them writes, which writes raise a fault, the invariant as an induction, and how a
pending command comes to its end (60_exceptions.md R263, R266; 70_reset_and_hazards.md R290 to R293, R300). -/

/-! ## The engine -/

namespace Sys2Proof.Machine

variable {s t : State} {i : Instr} {w : CmdWord} {rest : List Action}

theorem engineStep_of_pending (hp : s.pend = some w) (hd : decode w = .ok i) : engineStep s = exec i s := by
  rw [engineStep, hp]
  simp only [hd]

theorem engineStep_of_idle (hp : s.pend = none) : engineStep s = .next s := engineStep_of_not_busy (by rw [busy_eq, hp]; rfl)

theorem step_engine (ha : s.agenda = .engine :: rest) : step s = engineStep { s with agenda := rest } := step_of_cons ha

/-- Settles O17: an empty agenda and the engine's move lead to the same step of the engine. -/
theorem stepRunsThePendingCommand : Obligations.StepRunsThePendingCommand :=
  ⟨fun s _ _ hp hd => ⟨fun ha => (step_of_nil ha).trans (engineStep_of_pending hp hd),
      fun rest ha => (step_engine ha).trans (engineStep_of_pending (s := { s with agenda := rest }) hp hd)⟩,
    fun s hp => ⟨fun ha => (step_of_nil ha).trans (engineStep_of_idle hp),
      fun rest ha => (step_engine ha).trans (engineStep_of_idle (s := { s with agenda := rest }) hp)⟩⟩

/-- Every command comes to an end: a result or a response error (60_exceptions.md R263). -/
theorem exec_total (i : Instr) (s : State) : ∃ t, exec i s = .next t := by
  cases i with
  | init => exact ⟨_, exec_init_eq s⟩
  | get x y z => exact ⟨_, exec_get_eq x y z s⟩
  | set x y z v => exact ⟨_, exec_set_eq x y z v s⟩
  | peek x y z => exact ⟨_, exec_peek_eq x y z s⟩
  | decode =>
    rcases execDecode_cases s with ⟨_, -, h⟩ | ⟨_, -, h⟩
    · exact ⟨_, h⟩
    · exact ⟨_, h⟩
  | encode =>
    rcases execEncode_cases s with ⟨-, -, h⟩ | ⟨-, -, h⟩ | ⟨-, -, h⟩
    · exact ⟨_, h⟩
    · exact ⟨_, h⟩
    · exact ⟨_, h⟩

/-- Each end is a completion: the command is consumed and DONE is set. -/
theorem exec_completes (h : exec i s = .next t) : t.busy = false ∧ t.done = true := by
  rcases exec_cases h with ⟨-, rfl⟩ | ⟨_, _, _, -, rfl⟩ | ⟨_, _, _, _, -, rfl⟩ | ⟨_, _, _, -, rfl⟩ | ⟨_, -, -, rfl⟩ |
    ⟨_, -, -, rfl⟩ | ⟨_, -, -, rfl⟩ | ⟨-, -, rfl⟩ <;> exact ⟨rfl, rfl⟩

/-! ## What each agent writes -/

/-- A host write reaches no section, no result and no output (20_memory.md R70). -/
theorem hostWrite_frame (addr : BitVec 64) (be : BitVec 4) (v : BitVec 32) (s : State) :
    (hostWrite addr be v s).sec = s.sec ∧ (hostWrite addr be v s).result = s.result ∧
      (hostWrite addr be v s).outLen = s.outLen ∧ (hostWrite addr be v s).outBuf = s.outBuf := by
  rcases hostWrite_cases addr be v s with h | ⟨-, -, -, h⟩ | ⟨-, -, -, -, h⟩ | ⟨-, -, -, -, h⟩ | ⟨-, -, h⟩ | ⟨_, -, -, h⟩ <;>
    rw [h] <;> exact ⟨rfl, rfl, rfl, rfl⟩

/-- Settles O23: the host's moves are a read, which changes nothing of the block, and a write with its frame; the engine's is a
command with its own. -/
theorem agentsWriteTheirOwnState : Obligations.AgentsWriteTheirOwnState := by
  refine ⟨fun s t a rest ha hrst hengine h => ?host, fun i s t h => ?engine⟩
  case host =>
    cases a with
    | read addr be =>
      rw [step_read ha] at h
      cases h
      exact ⟨rfl, rfl, rfl, fun _ => rfl⟩
    | write addr be v =>
      rw [step_write ha] at h
      cases h
      obtain ⟨hsec, hresult, houtLen, houtBuf⟩ := hostWrite_frame addr be v { s with agenda := rest }
      exact ⟨hsec, hresult, houtLen, fun k => congrArg (Memory.read · k) houtBuf⟩
    | rst => exact absurd rfl hrst
    | engine => exact absurd rfl hengine
  case engine =>
    obtain ⟨hparams, hinBuf, hinLen, hfault, hcode, hagenda, hrdata⟩ := exec_frame h
    exact ⟨hinLen, fun k => congrArg (Memory.read · k) hinBuf, hparams, hfault, hcode, hagenda, hrdata, exec_completes h⟩

end Sys2Proof.Machine

/-! ## Faults (60_exceptions.md R266; 70_reset_and_hazards.md R293) -/

namespace Sys2Proof.Machine

variable {s t : State} {addr : BitVec 64} {be : BitVec 4} {v : BitVec 32}

/-- A host write that raises a fault is an illegal word to an idle CMD, or a dropped write of a busy block; any other write
leaves the fault as it was. -/
theorem hostWrite_fault_cases (addr : BitVec 64) (be : BitVec 4) (v : BitVec 32) (s : State) :
    ((hostWrite addr be v s).fault = s.fault ∧ (hostWrite addr be v s).faultcode = s.faultcode) ∨
    (∃ r, regAt s.params addr = some r ∧ (r = .cmd ∨ r = .inLen ∨ ∃ k, r = .inByte k) ∧ s.busy = true ∧
      (hostWrite addr be v s).faultcode = 2) ∨
    (regAt s.params addr = some .cmd ∧ s.busy = false ∧ illegal v = true ∧ (hostWrite addr be v s).faultcode = 1) := by
  rcases hostWrite_cases addr be v s with h | ⟨-, hb, ⟨r, hreg, hr⟩, h⟩ | ⟨-, hb, hreg, hi, h⟩ | ⟨-, -, -, -, h⟩ |
    ⟨-, -, h⟩ | ⟨_, -, -, h⟩ <;> rw [h]
  · exact .inl ⟨rfl, rfl⟩
  · exact .inr (.inl ⟨r, hreg, hr, hb, rfl⟩)
  · exact .inr (.inr ⟨hreg, hb, hi, rfl⟩)
  · exact .inl ⟨rfl, rfl⟩
  · exact .inl ⟨rfl, rfl⟩
  · exact .inl ⟨rfl, rfl⟩

/-- A step other than `rst` and a host write leaves the fault as it was. -/
theorem step_fault_cases (h : step s = .next t) :
    (t.fault = s.fault ∧ t.faultcode = s.faultcode) ∨ (t.fault = false ∧ t.faultcode = 0) ∨
    ∃ addr be v rest, s.agenda = .write addr be v :: rest ∧ t = hostWrite addr be v { s with agenda := rest } := by
  rcases step_cases h with ⟨-, he⟩ | ⟨_, -, he⟩ | ⟨_, _, _, -, rfl⟩ | hwrite | ⟨_, -, rfl⟩
  · obtain ⟨-, -, -, hfault, hcode, -⟩ := engineStep_frame he
    exact .inl ⟨hfault, hcode⟩
  · obtain ⟨-, -, -, hfault, hcode, -⟩ := engineStep_frame he
    exact .inl ⟨hfault, hcode⟩
  · exact .inl ⟨rfl, rfl⟩
  · exact .inr (.inr hwrite)
  · exact .inr (.inl ⟨rfl, rfl⟩)

/-- Settles O20: a step that sets FAULT is a host write, of one of its two faulting kinds. -/
theorem onlyHostWritesRaiseFaults : Obligations.OnlyHostWritesRaiseFaults := by
  intro s t h hs ht
  rcases step_fault_cases h with ⟨hkept, -⟩ | ⟨hrst, -⟩ | ⟨addr, be, v, rest, ha, rfl⟩
  · simp [hkept, hs] at ht
  · simp [hrst] at ht
  · rcases hostWrite_fault_cases addr be v { s with agenda := rest } with ⟨hkept, -⟩ | ⟨r, hreg, hr, hb, hcode⟩ |
      ⟨hreg, hb, hi, hcode⟩
    · rw [hkept] at ht
      simp [hs] at ht
    · exact ⟨addr, be, v, rest, r, ha, hreg, .inr ⟨hr, hb, hcode⟩⟩
    · exact ⟨addr, be, v, rest, .cmd, ha, hreg, .inl ⟨rfl, hb, hi, hcode⟩⟩

/-- No fault is recorded under code 0 (10_state.md R37). -/
theorem State.Inv.faultcode_eq_zero (h : s.Inv) (hf : s.fault = false) : s.faultcode = 0 :=
  (code_eq_zero_iff h.status_ok.fault_code).mpr hf

/-- Settles O24: of the moves only a dropped write records OVERRUN, and a host that keeps the handshake sends none. -/
theorem handshakeAvoidsOverrun : Obligations.HandshakeAvoidsOverrun := by
  intro s t a rest inv hf ha hkeeps h
  have hzero := inv.faultcode_eq_zero hf
  rcases step_fault_cases h with ⟨-, hcode⟩ | ⟨-, hcode⟩ | ⟨addr, be, v, rest', ha', rfl⟩
  · rw [hcode, hzero]; decide
  · rw [hcode]; decide
  · rcases hostWrite_fault_cases addr be v { s with agenda := rest' } with ⟨-, hcode⟩ | ⟨r, hreg, hr, hb, -⟩ | ⟨-, -, -, hcode⟩
    · rw [hcode]
      exact hzero ▸ (by decide)
    · obtain ⟨rfl, -⟩ : a = .write addr be v ∧ rest = rest' := List.cons_eq_cons.mp (ha.symm.trans ha')
      have hbad : (s.busy && (regAt s.params addr).any idleWrite) = true := by
        rw [show s.busy = true from hb, show regAt s.params addr = some r from hreg]
        exact idleWrite_iff.mpr hr
      rw [keepsHandshake, hbad] at hkeeps
      simp at hkeeps
    · rw [hcode]; decide

end Sys2Proof.Machine

/-! ## The invariant and progress -/

namespace Sys2Proof.Machine

variable {s : State}

/-- Settles O26: `rst` is the reset state with the model's own fields put back. -/
theorem rstGivesTheResetState : Obligations.RstGivesTheResetState :=
  fun _ _ ha => ⟨_, step_rst ha, rfl, rfl⟩

/-- Settles O27: every clause holds of the reset values, the section's by the legal parameters. -/
theorem resetMeetsTheInvariant : Obligations.ResetMeetsTheInvariant :=
  ⟨fun _ => resetWith_inv, resetWith_inv (by decide)⟩

/-- Settles O28: each move is a chain of updates of the state, every one of which keeps the invariant. -/
theorem stepKeepsTheInvariant : Obligations.StepKeepsTheInvariant :=
  fun _ _ => step_inv

/-- The engine stops only at an illegal word in PEND. -/
theorem engineStep_total (h : ∀ w, s.pend = some w → illegal w = false) : ∃ t, engineStep s = .next t := by
  cases hp : s.pend with
  | none => exact ⟨s, engineStep_of_idle hp⟩
  | some w =>
    obtain ⟨i, hd⟩ := illegal_eq_false.mp (h w hp)
    rw [engineStep_of_pending hp hd]
    exact exec_total i s

/-- Settles O29: every move but the engine's answers in any state, and the engine's does when the pending word is legal. -/
theorem stepNeverStops : Obligations.StepNeverStops := by
  intro s inv
  cases ha : s.agenda with
  | nil =>
    rw [step_of_nil ha]
    exact engineStep_total inv.pend_legal
  | cons a rest =>
    cases a with
    | read addr be => exact ⟨_, step_read ha⟩
    | write addr be v => exact ⟨_, step_write ha⟩
    | rst => exact ⟨_, step_rst ha⟩
    | engine =>
      rw [step_engine ha]
      exact engineStep_total (s := { s with agenda := rest }) inv.pend_legal

end Sys2Proof.Machine

/-! ## The end of a pending command (70_reset_and_hazards.md R300) -/

namespace Sys2Proof.Machine

variable {s t u : State} {i : Instr} {w : CmdWord} {rest : List Action}

theorem run_zero (s : State) : Sys2Proof.core.run 0 s = .next s := rfl

theorem coreRun_succ (M : Host.Core) {s t : M.State} {n : Nat} (h : M.step s = .next t) : M.run (n + 1) s = M.run n t := by
  rw [Host.Core.run, h]

theorem run_succ {n : Nat} (h : step s = .next t) : Sys2Proof.core.run (n + 1) s = Sys2Proof.core.run n t :=
  coreRun_succ Sys2Proof.core h

/-- State `u` with the fields of `s` that a host move can change while a command is pending: the agenda, what the host has
read, and the fault bits. -/
def withHostFieldsOf (s u : State) : State :=
  { u with agenda := s.agenda, rdata := s.rdata, draws := s.draws, fault := s.fault, faultcode := s.faultcode }

/-- Two states that differ at most in those fields, so a command runs on the same section, input and output in both. -/
def SameCommand (s u : State) : Prop := withHostFieldsOf s u = s

theorem SameCommand.pend (h : SameCommand s u) : u.pend = s.pend :=
  calc u.pend = (withHostFieldsOf s u).pend := rfl
    _ = s.pend := congrArg State.pend h

theorem SameCommand.trans (h : SameCommand s t) (h' : SameCommand t u) : SameCommand s u :=
  calc withHostFieldsOf s u = withHostFieldsOf s (withHostFieldsOf t u) := rfl
    _ = withHostFieldsOf s t := congrArg (withHostFieldsOf s) h'
    _ = s := h

/-- A busy block takes nothing from a host write but OVERRUN. -/
theorem hostWrite_sameCommand (hb : s.busy = true) (addr : BitVec 64) (be : BitVec 4) (v : BitVec 32) :
    SameCommand s (hostWrite addr be v s) ∧ (hostWrite addr be v s).agenda = s.agenda := by
  rcases hostWrite_cases addr be v s with h | ⟨-, -, -, h⟩ | ⟨-, hb', -⟩ | ⟨-, hb', -⟩ | ⟨hb', -⟩ | ⟨_, hb', -⟩
  · rw [h]; exact ⟨rfl, rfl⟩
  · rw [h]; exact ⟨rfl, rfl⟩
  all_goals simp [hb] at hb'

/-- While a command is pending, a host move that is not `rst` leaves it as it is and goes off the agenda. -/
theorem host_step_sameCommand (hb : s.busy = true) {a : Action} (ha : s.agenda = a :: rest) (hrst : a ≠ .rst)
    (hengine : a ≠ .engine) : ∃ t, step s = .next t ∧ t.agenda = rest ∧ SameCommand s t := by
  cases a with
  | read addr be => exact ⟨_, step_read ha, rfl, rfl⟩
  | write addr be v =>
    obtain ⟨hsame, hagenda⟩ := hostWrite_sameCommand (s := { s with agenda := rest }) hb addr be v
    have htaken : SameCommand s { s with agenda := rest } := rfl
    exact ⟨_, step_write ha, hagenda, htaken.trans hsame⟩
  | rst => exact absurd rfl hrst
  | engine => exact absurd rfl hengine

/-- Where no host move is next, the engine runs the command. -/
theorem step_of_engine_next (hp : s.pend = some w) (hd : decode w = .ok i) (h : ∀ a ∈ s.agenda.head?, a = .engine) :
    step s = exec i { s with agenda := s.agenda.tail } := by
  cases ha : s.agenda with
  | nil =>
    rw [step_of_nil ha, engineStep_of_pending hp hd, List.tail_nil, ← ha]
  | cons a rest =>
    obtain rfl : a = .engine := h a (by rw [ha]; rfl)
    exact (step_engine ha).trans (engineStep_of_pending (s := { s with agenda := rest }) hp hd)

/-- After at most as many steps as the agenda is long comes the step that is exec of the command, from a state with the same
command. -/
def ReachesExec (i : Instr) (s : State) : Prop :=
  ∃ k u t, k ≤ s.agenda.length ∧ Sys2Proof.core.run k s = .next u ∧ SameCommand s u ∧ step u = .next t ∧
    exec i { u with agenda := u.agenda.tail } = .next t

theorem reachesExec_now (hp : s.pend = some w) (hd : decode w = .ok i) (h : ∀ a ∈ s.agenda.head?, a = .engine) :
    ReachesExec i s := by
  obtain ⟨t, hx⟩ := exec_total i { s with agenda := s.agenda.tail }
  exact ⟨0, s, t, Nat.zero_le _, run_zero s, rfl, (step_of_engine_next hp hd h).trans hx, hx⟩

/-- A host move before it only delays the engine's turn. -/
theorem reachesExec_of_host_step {a : Action} (ha : s.agenda = a :: rest) (hstep : step s = .next t) (ht : t.agenda = rest)
    (hsame : SameCommand s t) (h : ReachesExec i t) : ReachesExec i s := by
  obtain ⟨k, u, t', hk, hrun, hsame', hlast, hx⟩ := h
  refine ⟨k + 1, u, t', ?_, (run_succ hstep).trans hrun, hsame.trans hsame', hlast, hx⟩
  rw [ha, List.length_cons, ← ht]
  exact Nat.succ_le_succ hk

theorem reachesExec_of_pending (hp : s.pend = some w) (hd : decode w = .ok i) (hrst : .rst ∉ s.agenda) : ReachesExec i s := by
  induction ha : s.agenda generalizing s with
  | nil => exact reachesExec_now hp hd (by simp [ha])
  | cons a rest ih =>
    by_cases he : a = .engine
    · exact reachesExec_now hp hd (by simp [ha, he])
    · obtain ⟨hne, hrest⟩ : a ≠ .rst ∧ .rst ∉ rest := by
        rw [ha, List.mem_cons, not_or] at hrst
        exact ⟨fun h => hrst.1 h.symm, hrst.2⟩
      obtain ⟨t, hstep, ht, hsame⟩ := host_step_sameCommand (by rw [busy_eq, hp]; rfl) ha hne he
      exact reachesExec_of_host_step ha hstep ht hsame (ih (hsame.pend.trans hp) (ht.symm ▸ hrest) ht)

/-- Settles O18: the host moves before the engine's turn keep the command, and the turn runs it to its end. -/
theorem pendingCommandCompletes : Obligations.PendingCommandCompletes := by
  intro s w i _ hp hd hrst
  obtain ⟨k, u, t, hk, hrun, hsame, hstep, hx⟩ := reachesExec_of_pending hp hd hrst
  exact ⟨k, u, t, hk, hrun, hsame, hstep, hx, exec_completes hx⟩

end Sys2Proof.Machine

/-! ## BASE (20_memory.md R73) -/

namespace Sys2Proof.Machine

variable {d : BitVec 64} {s t : State}

/-- A move of the host of a block `d` higher up in the address map. -/
def moveAction (d : BitVec 64) : Action → Action
  | .read addr be => .read (addr + d) be
  | .write addr be v => .write (addr + d) be v
  | .rst => .rst
  | .engine => .engine

theorem moveBase_eq (d : BitVec 64) (s : State) :
    moveBase d s
      = { s with params := { s.params with base := s.params.base + d }, agenda := s.agenda.map (moveAction d) } := rfl

/-- The distance from BASE is all that the address decode sees. -/
theorem regAt_moveBase (d addr : BitVec 64) (s : State) : regAt (moveBase d s).params (addr + d) = regAt s.params addr := by
  have hdist : addr + d - (moveBase d s).params.base = addr - s.params.base := by
    exact add_sub_add_right_eq_sub addr s.params.base d
  have hnum : regNumber (moveBase d s).params (addr + d) = regNumber s.params addr := by rw [regNumber, hdist, regNumber]
  rw [regAt, hnum]
  rfl

/-- No register's value names BASE. -/
theorem readValue_moveBase (d addr : BitVec 64) (s : State) : readValue (moveBase d s) (addr + d) = readValue s addr := by
  cases hreg : regAt s.params addr with
  | none => rw [readValue_of_regAt_none hreg, readValue_of_regAt_none ((regAt_moveBase d addr s).trans hreg)]
  | some r =>
    have hidle : idleRegValue (moveBase d s) r = idleRegValue s r := by cases r <;> rfl
    rw [readValue_of_regAt hreg, readValue_of_regAt ((regAt_moveBase d addr s).trans hreg), hidle]
    rfl

theorem hostRead_moveBase (d addr : BitVec 64) (be : BitVec 4) (s : State) :
    hostRead (addr + d) be (moveBase d s) = moveBase d (hostRead addr be s) := by
  rw [hostRead, readValue_moveBase]
  rfl

theorem raiseFault_moveBase (d : BitVec 64) (f : FaultCode) (s : State) :
    raiseFault f (moveBase d s) = moveBase d (raiseFault f s) := by
  rcases raiseFault_cases f s with ⟨hf, h⟩ | ⟨hf, h⟩
  · rw [h, raiseFault_of_fault (s := moveBase d s) hf]
  · rw [h, raiseFault_of_clear (s := moveBase d s) hf]
    rfl

theorem writeInput_moveBase (d : BitVec 64) (s s' : State) :
    writeInput (moveBase d s) (moveBase d s') = moveBase d (writeInput s s') := by
  cases hb : s.busy with
  | true => rw [writeInput_busy hb, writeInput_busy (s := moveBase d s) hb, raiseFault_moveBase]
  | false => rw [writeInput_idle hb, writeInput_idle (s := moveBase d s) hb]

theorem writeCmd_moveBase (d : BitVec 64) (c : CmdWord) (s : State) :
    writeCmd c (moveBase d s) = moveBase d (writeCmd c s) := by
  simp only [writeCmd, raiseFault_moveBase, apply_ite (moveBase d)]
  rfl

theorem hostWrite_moveBase (d addr : BitVec 64) (be : BitVec 4) (v : BitVec 32) (s : State) :
    hostWrite (addr + d) be v (moveBase d s) = moveBase d (hostWrite addr be v s) := by
  cases hreg : regAt s.params addr with
  | none => rw [hostWrite_of_regAt_none hreg, hostWrite_of_regAt_none ((regAt_moveBase d addr s).trans hreg)]
  | some r =>
    rw [hostWrite_of_regAt hreg, hostWrite_of_regAt ((regAt_moveBase d addr s).trans hreg)]
    cases r with
    | cmd => exact writeCmd_moveBase d v s
    | inLen => exact writeInput_moveBase d s { s with inLen := v.setWidth 16 }
    | inByte k => exact writeInput_moveBase d s { s with inBuf := Memory.write s.inBuf k (v.setWidth 8) }
    | status | result | bpe | palLen | outLen | lightLen | pal | outByte => rfl

theorem decodeStream_moveBase (d : BitVec 64) (s : State) (bs : List Byte) :
    decodeStream (moveBase d s).params bs = decodeStream s.params bs := rfl

theorem encodeStream_moveBase (d : BitVec 64) (s : State) (c : Section) :
    encodeStream (moveBase d s).params c = encodeStream s.params c := rfl

/-- No command reads BASE. -/
theorem exec_moveBase {i : Instr} (d : BitVec 64) (h : exec i s = .next t) : exec i (moveBase d s) = .next (moveBase d t) := by
  cases i with
  | init | get x y z | set x y z v | peek x y z =>
    cases h
    rfl
  | decode =>
    change execDecode s = .next t at h
    change execDecode (moveBase d s) = .next (moveBase d t)
    rw [execDecode] at h ⊢
    rw [decodeStream_moveBase, show inputBytes (moveBase d s) = inputBytes s from rfl]
    split at h <;> cases h <;> rfl
  | encode =>
    change execEncode s = .next t at h
    change execEncode (moveBase d s) = .next (moveBase d t)
    rw [execEncode] at h ⊢
    rw [encodeStream_moveBase, show (moveBase d s).sec = s.sec from rfl]
    split at h <;> cases h <;> rfl

theorem engineStep_moveBase (d : BitVec 64) (h : engineStep s = .next t) :
    engineStep (moveBase d s) = .next (moveBase d t) := by
  rcases engineStep_cases h with ⟨hp, rfl⟩ | ⟨w, i, hp, hd, hx⟩
  · exact engineStep_of_idle hp
  · exact (engineStep_of_pending (s := moveBase d s) hp hd).trans (exec_moveBase d hx)

theorem emptySection_moveBase (d : BitVec 64) (s : State) : emptySection (moveBase d s).params = emptySection s.params := rfl

theorem hardReset_moveBase (d : BitVec 64) (s : State) : hardReset (moveBase d s) = moveBase d (hardReset s) := by
  simp only [hardReset, State.resetWith, emptySection_moveBase]
  rfl

theorem perform_moveBase {a : Action} (d : BitVec 64) (h : perform a s = .next t) :
    perform (moveAction d a) (moveBase d s) = .next (moveBase d t) := by
  cases a with
  | read addr be =>
    obtain rfl := Host.Outcome.next.inj h
    exact congrArg Host.Outcome.next (hostRead_moveBase d addr be s)
  | write addr be v =>
    obtain rfl := Host.Outcome.next.inj h
    exact congrArg Host.Outcome.next (hostWrite_moveBase d addr be v s)
  | rst =>
    obtain rfl := Host.Outcome.next.inj h
    exact congrArg Host.Outcome.next (hardReset_moveBase d s)
  | engine => exact engineStep_moveBase d h

/-- Settles O15: each agent's move commutes with moving the block, since the base is used only to take it off an address. -/
theorem stepDoesNotDependOnBase : Obligations.StepDoesNotDependOnBase := by
  intro d s t h
  cases ha : s.agenda with
  | nil =>
    have ha' : (moveBase d s).agenda = [] := by rw [moveBase_eq, ha]; rfl
    rw [step_of_nil ha] at h
    rw [step_of_nil ha', engineStep_moveBase d h]
  | cons a rest =>
    have ha' : (moveBase d s).agenda = moveAction d a :: rest.map (moveAction d) := by rw [moveBase_eq, ha]; rfl
    rw [step_of_cons ha] at h
    rw [step_of_cons ha', ← perform_moveBase d h]
    rfl

end Sys2Proof.Machine
end

section
/-! PROOFS. SET within the width, the unused bits, and the growth schedule (41_section.md R166 to R174, R182; 10_state.md R38;
40_packed_array.md R128, R130). -/

/-! ## The widths (40_packed_array.md R130) -/

namespace Sys2Proof.Machine

/-- Settles O31, each width by evaluation. -/
theorem geometryOfTheLegalWidths : Obligations.GeometryOfTheLegalWidths := by
  unfold Obligations.GeometryOfTheLegalWidths
  decide

end Sys2Proof.Machine

/-! ## SET without an expansion (41_section.md R167, R168, R174) -/

namespace Sys2Proof.Machine

variable {p : Params} {c : Section} {v : RawValue} {i : Nat}

theorem setValue_zero (h8 : c.bpe.toNat ≤ 8) : setValue c i 0 = storeCell c i 0 := by
  rw [setValue, setId, direct_eq_false_iff.mpr h8]
  rfl

theorem setValue_firstIndex (h8 : c.bpe.toNat ≤ 8) (hv : v ≠ 0) {k : Nat} (hk : firstIndex c.pal v k) :
    setValue c i v = storeCell c i k := by
  rw [setValue, setId, direct_eq_false_iff.mpr h8, if_neg Bool.false_ne_true, if_neg hv, lookup_eq_some_iff.mpr hk]

theorem setValue_direct (hd : 8 < c.bpe.toNat) : setValue c i v = storeCell c i v.toNat := by
  rw [setValue, setId, if_pos (direct_iff.mpr hd)]

theorem setValue_append (h8 : c.bpe.toNat ≤ 8) (hv : v ≠ 0) (hnew : v ∉ c.pal) (hroom : c.pal.length + 1 ≤ 2 ^ c.bpe.toNat) :
    setValue c i v = storeCell (withAppended c v) i c.pal.length := by
  rcases setValue_of_new (i := i) h8 hv hnew with ⟨-, he⟩ | ⟨-, hfull, -⟩ | ⟨hb, hfull, -⟩
  · exact he
  · omega
  · rw [hb] at hroom; omega

/-- What a SET that is one store into the array leaves: the cell's bits are the id's, and every other bit, the section's other
parts and the rest of the state stay. -/
theorem set_store_frame {d : Section} {x y z : Coord} {s : State} {id : Nat} (hs : d.Sound)
    (hset : setValue s.sec (cellOf x y z) v = storeCell d (cellOf x y z) id) :
    ∃ t, exec (.set x y z v) s = .next t ∧
      t.sec.bpe = d.bpe ∧ t.sec.pal = d.pal ∧ t.sec.light = d.light ∧ t.sec.words.length = d.words.length ∧
      t.sec.holds (linearIndex x y z) (id % 2 ^ d.bpe.toNat) ∧
      (∀ k n, ¬ bitInCell d.bpe.toNat (linearIndex x y z) k n → t.sec.bit k n = d.bit k n) ∧
      Completed s t ∧ { t with sec := s.sec, pend := s.pend, done := s.done } = s := by
  have hi := cellOf_lt x y z
  rw [← cellOf_eq_linearIndex]
  refine ⟨_, exec_set_eq x y z v s, ?_⟩
  rw [complete_sec, hset]
  exact ⟨rfl, rfl, rfl, storeCell_words_length _ _ _, holds_storeCell_same hs hi id,
    fun k n hn => storeCell_bit_other hs hi id k n hn, completed_complete rfl rfl, rfl⟩

/-- Settles O36: a value SET has an id for is one store of the id. -/
theorem setOfKnownValueStoresItsIndex : Obligations.SetOfKnownValueStoresItsIndex := by
  intro x y z v s id hok h8 hid
  refine set_store_frame hok.sound ?_
  rcases hid with ⟨rfl, rfl⟩ | ⟨hv, hk⟩
  · exact setValue_zero h8
  · exact setValue_firstIndex h8 hv hk

/-- Settles O37: in direct mode the value is its own id and fits the 14 bits of a cell. -/
theorem setInDirectModeStoresTheValue : Obligations.SetInDirectModeStoresTheValue := by
  intro x y z v s hok hd
  have h14 : s.sec.bpe.toNat = 14 := by
    have := legalBpe_iff.mp hok.bpe_legal
    omega
  have h := set_store_frame (x := x) (y := y) (z := z) hok.sound (setValue_direct (v := v) hd)
  rwa [toNat_mod_direct h14] at h

/-- Settles O38: the new entry's index is the old palette length, which the width still holds. -/
theorem setAppendsWithinTheWidth : Obligations.SetAppendsWithinTheWidth := by
  intro x y z v s hok h8 hv hnew hroom
  have h := set_store_frame (x := x) (y := y) (z := z) (withAppended_sound hok.sound v) (setValue_append h8 hv hnew hroom)
  rwa [withAppended_bpe, Nat.mod_eq_of_lt hroom] at h

end Sys2Proof.Machine

/-! ## The unused bits stay 0 (10_state.md R38) -/

namespace Sys2Proof.Machine

variable {c : Section}

/-- Stores keep the unused bits, and the expansions make them 0 anew. -/
theorem setValue_cleanUnused (hs : c.Sound) (h : c.cleanUnused) {i : Nat} (hi : i < 4096) (v : RawValue) :
    (setValue c i v).cleanUnused := by
  rcases setValue_cases c i v with ⟨-, he⟩ | ⟨-, -, he⟩ | ⟨-, -, _, -, he⟩ | ⟨-, -, -, -, he⟩ | ⟨h8, -, -, -, he⟩ |
    ⟨h8, -, -, -, he⟩ <;> rw [he]
  · exact cleanUnused_storeCell hs h hi _
  · exact cleanUnused_storeCell hs h hi _
  · exact cleanUnused_storeCell hs h hi _
  · exact cleanUnused_storeCell (withAppended_sound hs v) h hi _
  · exact cleanUnused_storeCell (expand_palette_sound (c := withAppended c v) h8)
      (expand_palette_cleanUnused (c := withAppended c v) h8) hi _
  · exact cleanUnused_storeCell (expand_direct_sound (c := withAppended c v) h8.ge)
      (expand_direct_cleanUnused (c := withAppended c v) h8.ge) hi _

/-- Settles O42: INIT makes every bit 0, and SET keeps those of no cell. -/
theorem unusedBitsStayZero : Obligations.UnusedBitsStayZero := by
  refine fun s t x y z v _ hok => ⟨fun h => ?init, fun hclean h => ?set⟩
  case init =>
    cases h
    exact fun k _ n _ _ => emptySection_bit s.params k n
  case set =>
    rw [exec_set_sec h]
    exact setValue_cleanUnused hok.sound hclean (cellOf_lt x y z) v

end Sys2Proof.Machine

/-! ## No command but ENCODE reads an unused bit (40_packed_array.md R128) -/

namespace Sys2Proof.Machine

variable {c d : Section} {v : RawValue} {i : Nat}

theorem sameCells_refl (c : Section) : c.sameCells c := ⟨rfl, rfl, rfl, rfl, fun _ _ _ _ _ => rfl⟩

/-- A bit of a cell is a bit of the number the cell holds. -/
theorem bit_eq_cell_testBit {k n : Nat} (h : bitInCell c.bpe.toNat i k n) :
    c.bit k n = (c.cell i).testBit (n - i % (64 / c.bpe.toNat) * c.bpe.toNat) := by
  obtain ⟨rfl, hlow, hhigh⟩ := h
  rw [cell_testBit, Nat.add_sub_cancel' hlow]
  have hin : n - i % (64 / c.bpe.toNat) * c.bpe.toNat < c.bpe.toNat := by omega
  simp [hin]

/-- The bits of the cells are the numbers the cells hold. -/
theorem sameCells_iff :
    c.sameCells d ↔ c.bpe = d.bpe ∧ c.pal = d.pal ∧ c.light = d.light ∧ c.words.length = d.words.length ∧
      ∀ j < 4096, c.cell j = d.cell j := by
  constructor
  · rintro ⟨hb, hpal, hlight, hlen, hbits⟩
    refine ⟨hb, hpal, hlight, hlen, fun j hj => Nat.eq_of_testBit_eq fun n => ?_⟩
    rw [cell_testBit, cell_testBit, ← hb]
    by_cases hn : n < c.bpe.toNat
    · rw [hbits j hj _ _ ⟨rfl, Nat.le_add_right _ _, Nat.add_lt_add_left hn _⟩]
    · simp [hn]
  · rintro ⟨hb, hpal, hlight, hlen, hcells⟩
    refine ⟨hb, hpal, hlight, hlen, fun j hj k n hin => ?_⟩
    rw [bit_eq_cell_testBit hin, bit_eq_cell_testBit (hb ▸ hin), hcells j hj, hb]

theorem Section.sameCells.cell_eq (h : c.sameCells d) {j : Nat} (hj : j < 4096) : c.cell j = d.cell j := by
  obtain ⟨-, -, -, -, hcells⟩ := sameCells_iff.mp h
  exact hcells j hj

theorem Section.sameCells.sound (h : c.sameCells d) (hs : c.Sound) : d.Sound := by
  obtain ⟨hb, -, -, hlen, -⟩ := h
  exact ⟨hb ▸ hs.1, hlen ▸ hb ▸ hs.2⟩

/-- A store writes one cell of either section. -/
theorem storeCell_sameCells (h : c.sameCells d) (hs : c.Sound) (hi : i < 4096) (id : Nat) :
    (storeCell c i id).sameCells (storeCell d i id) := by
  have hs' := h.sound hs
  obtain ⟨hb, hpal, hlight, hlen, hcells⟩ := sameCells_iff.mp h
  refine sameCells_iff.mpr ⟨hb, hpal, hlight, ?_, fun j hj => ?_⟩
  · rw [storeCell_words_length, storeCell_words_length, hlen]
  · rw [storeCell_cell hs hi, storeCell_cell hs' hi, hb, hcells j hj]

theorem withAppended_sameCells (h : c.sameCells d) (v : RawValue) : (withAppended c v).sameCells (withAppended d v) := by
  obtain ⟨hb, hpal, hlight, hlen, hbits⟩ := h
  exact ⟨hb, congrArg (· ++ [v]) hpal, hlight, hlen, hbits⟩

/-- The repack reads the 4096 cells and nothing else. -/
theorem expand_sameCells (h : c.sameCells d) (hs : c.Sound) (h8 : c.bpe.toNat ≤ 8) : (expand c).sameCells (expand d) := by
  have hs' := h.sound hs
  obtain ⟨hb, hpal, hlight, hlen, hcells⟩ := sameCells_iff.mp h
  rcases Nat.lt_or_eq_of_le h8 with hlt | heq
  · have hlt' : d.bpe.toNat < 8 := hb ▸ hlt
    obtain ⟨hb1, hpal1, hlight1, -⟩ := expand_palette hlt
    obtain ⟨hb2, hpal2, hlight2, -⟩ := expand_palette hlt'
    refine sameCells_iff.mpr ⟨BitVec.eq_of_toNat_eq (by rw [hb1, hb2, hb]), by rw [hpal1, hpal2, hpal],
      by rw [hlight1, hlight2, hlight], ?_, fun j hj => ?_⟩
    · rw [(expand_palette_sound hlt).2, (expand_palette_sound hlt').2, hb1, hb2, hb]
    · rw [expand_palette_cell hs hlt hj, expand_palette_cell hs' hlt' hj, hcells j hj]
  · have hge : 8 ≤ c.bpe.toNat := heq.ge
    have hge' : 8 ≤ d.bpe.toNat := hb ▸ hge
    obtain ⟨hb1, hpal1, hlight1, -⟩ := expand_direct hge
    obtain ⟨hb2, hpal2, hlight2, -⟩ := expand_direct hge'
    refine sameCells_iff.mpr ⟨BitVec.eq_of_toNat_eq (by rw [hb1, hb2]), by rw [hpal1, hpal2],
      by rw [hlight1, hlight2, hlight], ?_, fun j hj => ?_⟩
    · rw [(expand_direct_sound hge).2, (expand_direct_sound hge').2, hb1, hb2]
    · rw [expand_direct_cell hge hj, expand_direct_cell hge' hj, hpal, hcells j hj]

/-- SET takes the same case in both sections, since it chooses by the width and the palette. -/
theorem setValue_sameCells (h : c.sameCells d) (hs : c.Sound) (hi : i < 4096) (v : RawValue) :
    (setValue c i v).sameCells (setValue d i v) := by
  obtain ⟨hb, hpal, -⟩ := id h
  rcases setValue_cases c i v with ⟨hd, he⟩ | ⟨h8, rfl, he⟩ | ⟨h8, hv, k, hk, he⟩ | ⟨h8, hv, hnew, hroom, he⟩ |
    ⟨h8, hv, hnew, hfull, he⟩ | ⟨h8, hv, hnew, hfull, he⟩ <;> rw [he]
  · rw [setValue_direct (hb ▸ hd)]
    exact storeCell_sameCells h hs hi _
  · rw [setValue_zero (hb ▸ h8)]
    exact storeCell_sameCells h hs hi _
  · rw [setValue_firstIndex (hb ▸ h8) hv (hpal ▸ hk)]
    exact storeCell_sameCells h hs hi _
  · rw [setValue_append (hb ▸ h8) hv (hpal ▸ hnew) (by rwa [← hb, ← hpal]), ← hpal]
    exact storeCell_sameCells (withAppended_sameCells h v) (withAppended_sound hs v) hi _
  · rw [setValue_grow (hb ▸ h8) hv (hpal ▸ hnew) (by rwa [← hb, ← hpal]), ← hpal]
    exact storeCell_sameCells (expand_sameCells (withAppended_sameCells h v) (withAppended_sound hs v) h8.le)
      (expand_palette_sound (c := withAppended c v) h8) hi _
  · rw [setValue_switch (hb ▸ h8) hv (hpal ▸ hnew) (by rwa [← hpal])]
    exact storeCell_sameCells (expand_sameCells (withAppended_sameCells h v) (withAppended_sound hs v) h8.le)
      (expand_direct_sound (c := withAppended c v) h8.ge) hi _

/-- The raw value of a cell is the cell's through the same palette in the same mode. -/
theorem raw_sameCells (h : c.sameCells d) (hi : i < 4096) : c.raw i = d.raw i := by
  have hcell := h.cell_eq hi
  obtain ⟨hb, hpal, -⟩ := h
  rw [Section.raw, Section.raw, rawValueOf, rawValueOf, Section.direct, Section.direct, hb, hpal, hcell]

theorem execDecode_of_ok {s : State} (h : decodeStream s.params (inputBytes s) = .ok c) :
    execDecode s = .next (complete { nextDraw s with sec := c }) := by
  rw [execDecode, h]

theorem execDecode_of_error {s : State} {e : ErrCode} (h : decodeStream s.params (inputBytes s) = .error e) :
    execDecode s = .next (raiseErr e (nextDraw s)) := by
  rw [execDecode, h]

/-- What INIT, GET, SET, PEEK and DECODE leave of two states that differ in the unused bits of the section. -/
theorem exec_sameCells {s : State} (hs : s.sec.Sound) (h : s.sec.sameCells d) {j : Instr} (hj : j ≠ .encode) :
    ∃ t u, exec j s = .next t ∧ exec j { s with sec := d } = .next u ∧ t.sec.sameCells u.sec ∧ { t with sec := u.sec } = u := by
  cases j with
  | init => exact ⟨_, _, exec_init_eq s, exec_init_eq { s with sec := d }, sameCells_refl _, rfl⟩
  | get x y z =>
    refine ⟨_, _, exec_get_eq_raw x y z s, exec_get_eq_raw x y z { s with sec := d }, h, ?_⟩
    rw [raw_sameCells h (cellOf_lt x y z)]
    rfl
  | set x y z v =>
    exact ⟨_, _, exec_set_eq x y z v s, exec_set_eq x y z v { s with sec := d },
      setValue_sameCells h hs (cellOf_lt x y z) v, rfl⟩
  | peek x y z =>
    refine ⟨_, _, exec_peek_eq x y z s, exec_peek_eq x y z { s with sec := d }, h, ?_⟩
    rw [h.cell_eq (cellOf_lt x y z)]
    rfl
  | decode =>
    rcases execDecode_cases s with ⟨e, hc, he⟩ | ⟨e, hc, he⟩
    · exact ⟨_, _, he, execDecode_of_ok (s := { s with sec := d }) hc, sameCells_refl e, rfl⟩
    · exact ⟨_, _, he, execDecode_of_error (s := { s with sec := d }) hc, h, rfl⟩
  | encode => exact absurd rfl hj

theorem section_ext (hb : c.bpe = d.bpe) (hw : c.words = d.words) (hpal : c.pal = d.pal) (hlight : c.light = d.light) :
    c = d := by
  cases c
  cases d
  simp_all

/-- The words' bytes give the words back. -/
theorem flatMap_bytesOfWord_inj {ws ws' : List Word} {rest : List Byte} (hlen : ws.length = ws'.length)
    (h : ws.flatMap bytesOfWord ++ rest = ws'.flatMap bytesOfWord ++ rest) : ws = ws' := by
  have hread := readWords_flatMap ws rest
  rw [hlen, h, readWords_flatMap] at hread
  exact (Prod.mk.inj hread).1.symm

/-- Settles O35: the commands go through the cells' numbers, and ENCODE's words are the words themselves. -/
theorem onlyEncodeReadsUnusedBits : Obligations.OnlyEncodeReadsUnusedBits := by
  refine fun s d hok h => ⟨fun j hj => exec_sameCells hok.sound h hj, fun henc => ?_⟩
  obtain ⟨hb, hpal, hlight, hlen, -⟩ := h
  have hwords : s.sec.words = d.words := by
    rw [encodeSection, encodeSection, hb, hpal, hlight, List.append_assoc, List.append_assoc (_ ++ _ ++ _ ++ _ ++ _)] at henc
    exact flatMap_bytesOfWord_inj hlen (List.append_cancel_left henc)
  exact section_ext hb hwords hpal hlight

end Sys2Proof.Machine

/-! ## The growth schedule (41_section.md R182) -/

namespace Sys2Proof.Machine

variable {p : Params} {c : Section} {v : RawValue} {i : Nat} {S : Finset RawValue}

/-- The palette length the schedule gives after SETs of the values `S`: one entry for each, after those of the reset palette. -/
def scheduledLength (p : Params) (S : Finset RawValue) : Nat := (emptyPalette p.resetPalette).length + S.card

/-- Palette mode on the schedule: the palette holds the values set, and the width is the least that indexes it, not below
`RESET_BPE`. -/
structure ScheduledPalette (p : Params) (S : Finset RawValue) (c : Section) : Prop where
  entries : ∀ v, v ≠ 0 → (v ∈ c.pal ↔ v ∈ S)
  length : c.pal.length = scheduledLength p S
  fits : scheduledLength p S ≤ 2 ^ c.bpe.toNat
  reset_le : p.resetBpe ≤ c.bpe.toNat
  le_eight : c.bpe.toNat ≤ 8
  least : ∀ b, p.resetBpe ≤ b → scheduledLength p S ≤ 2 ^ b → c.bpe.toNat ≤ b

/-- A section on the schedule, in palette mode or past it. -/
def Scheduled (p : Params) (S : Finset RawValue) (c : Section) : Prop :=
  ScheduledPalette p S c ∨ (256 < scheduledLength p S ∧ c.bpe.toNat = 14 ∧ c.pal = [])

theorem scheduledLength_insert_new (h : v ∉ S) : scheduledLength p (insert v S) = scheduledLength p S + 1 := by
  rw [scheduledLength, Finset.card_insert_of_notMem h]
  rfl

theorem ScheduledPalette.length_le (h : ScheduledPalette p S c) : scheduledLength p S ≤ 256 :=
  h.fits.trans (Nat.pow_le_pow_right (by decide) h.le_eight)

theorem emptySection_scheduled (hp : p.Legal) : ScheduledPalette p ∅ (emptySection p) := by
  obtain ⟨-, h8, -⟩ := id hp
  have hb := emptySection_bpe_toNat hp
  have hlen : scheduledLength p ∅ = (emptySection p).pal.length := rfl
  have hone : (emptySection p).pal.length ≤ 1 := by
    rw [emptySection_pal]
    cases p.resetPalette <;> decide
  refine ⟨fun v hv => ?_, rfl, hlen.trans_le (hone.trans Nat.one_le_two_pow), hb.ge, hb.trans_le h8,
    fun b hle _ => hb.trans_le hle⟩
  rw [emptySection_pal]
  cases p.resetPalette with
  | sentinel => simpa [emptyPalette] using hv
  | empty => simp [emptyPalette]

/-- The entries after an append. -/
theorem entries_append (h : ∀ u, u ≠ 0 → (u ∈ c.pal ↔ u ∈ S)) (u : RawValue) (hu : u ≠ 0) :
    u ∈ c.pal ++ [v] ↔ u ∈ insert v S := by
  rw [List.mem_append, List.mem_singleton, Finset.mem_insert, h u hu, or_comm]

/-- SET of a value not yet set follows the schedule in each of its three cases: the width stays where it holds one entry more,
grows by one where it was full, and gives way to direct mode at 8 bits. -/
theorem setValue_scheduled_new (h : ScheduledPalette p S c) (hv : v ≠ 0) (hnew : v ∉ S) :
    Scheduled p (insert v S) (setValue c i v) := by
  have hn := scheduledLength_insert_new (p := p) hnew
  have hlen : (c.pal ++ [v]).length = scheduledLength p (insert v S) := by
    rw [List.length_append, List.length_singleton, h.length, hn]
  rcases setValue_of_new (i := i) h.le_eight hv (mt (h.entries v hv).mp hnew) with ⟨hroom, he⟩ | ⟨h8, hfull, he⟩ |
    ⟨h8, hfull, he⟩ <;> rw [he]
  · rw [h.length, ← hn] at hroom
    exact .inl ⟨entries_append h.entries, hlen, hroom, h.reset_le, h.le_eight,
      fun b hb hb' => h.least b hb (by omega)⟩
  · obtain ⟨hb, hpal, -, -⟩ := expand_palette (c := withAppended c v) h8
    rw [withAppended_bpe] at hb
    rw [withAppended_pal] at hpal
    rw [h.length, ← hn] at hfull
    have hfits : scheduledLength p (insert v S) ≤ 2 ^ (c.bpe.toNat + 1) := by
      have hold := h.fits
      have hpos := Nat.two_pow_pos c.bpe.toNat
      rw [Nat.pow_succ, hn]
      omega
    refine .inl ⟨hpal ▸ entries_append h.entries, hpal ▸ hlen, hb ▸ hfits, ?_, ?_, fun b _ hb' => ?_⟩
    · have := h.reset_le
      rw [storeCell_bpe, hb]; omega
    · rw [storeCell_bpe, hb]; omega
    · rw [storeCell_bpe, hb]
      exact (Nat.pow_lt_pow_iff_right (by decide)).mp (hfull.trans_le hb')
  · obtain ⟨hb, hpal, -, -⟩ := expand_direct (c := withAppended c v) h8.ge
    rw [h.length, ← hn] at hfull
    exact .inr ⟨hfull, hb, hpal⟩

theorem setValue_scheduled (h : Scheduled p S c) (hv : v ≠ 0) (i : Nat) : Scheduled p (insert v S) (setValue c i v) := by
  rcases h with h | ⟨hlen, hb, hpal⟩
  · by_cases hmem : v ∈ S
    · obtain ⟨id, he⟩ := setValue_of_known (i := i) h.le_eight (.inr ((h.entries v hv).mpr hmem))
      rw [he, Finset.insert_eq_of_mem hmem]
      exact .inl ⟨h.entries, h.length, h.fits, h.reset_le, h.le_eight, h.least⟩
    · exact setValue_scheduled_new h hv hmem
  · have hle : scheduledLength p S ≤ scheduledLength p (insert v S) :=
      Nat.add_le_add_left (Finset.card_le_card (Finset.subset_insert v S)) _
    rw [setValue_direct (by omega)]
    exact .inr ⟨hlen.trans_le hle, hb, hpal⟩

/-- A sequence of SETs follows the schedule. -/
theorem runCommands_scheduled {cmds : List Instr} (hcmds : ∀ j ∈ cmds, ∃ x y z v, j = .set x y z v ∧ v ≠ 0) {s : State}
    (h : Scheduled p S s.sec) :
    ∃ t, runCommands cmds s = .next t ∧ Scheduled p (S ∪ (cmds.filterMap setValueOf).toFinset) t.sec := by
  induction cmds generalizing s S with
  | nil => exact ⟨s, rfl, by simpa using h⟩
  | cons j cmds ih =>
    obtain ⟨x, y, z, v, rfl, hv⟩ := hcmds j List.mem_cons_self
    obtain ⟨t, hrun, ht⟩ := ih (fun j hj => hcmds j (List.mem_cons_of_mem _ hj))
      (s := complete { s with sec := setValue s.sec (cellOf x y z) v }) (setValue_scheduled h hv (cellOf x y z))
    refine ⟨t, ?_, ?_⟩
    · rw [runCommands, exec_set_eq]
      exact hrun
    · have hcons : (Instr.set x y z v :: cmds).filterMap setValueOf = v :: cmds.filterMap setValueOf := rfl
      rw [hcons, List.toFinset_cons, Finset.union_insert, ← Finset.insert_union]
      exact ht

/-- The schedule's length in the statement's form. -/
theorem scheduledLength_eq (p : Params) (S : Finset RawValue) :
    scheduledLength p S = if p.resetPalette = .sentinel then S.card + 1 else S.card := by
  rw [scheduledLength]
  cases p.resetPalette with
  | sentinel => exact Nat.add_comm 1 _
  | empty => exact Nat.zero_add _

/-- Settles O45: an empty section is on the schedule, and every SET of a nonzero value stays on it. -/
theorem growthFollowsTheSchedule : Obligations.GrowthFollowsTheSchedule := by
  intro s cmds k hp hsec hcmds hk n
  have hstart : Scheduled s.params ∅ s.sec := hsec ▸ .inl (emptySection_scheduled hp)
  obtain ⟨t, hrun, ht⟩ := runCommands_scheduled hcmds hstart
  rw [Finset.empty_union] at ht
  have hn : scheduledLength s.params (cmds.filterMap setValueOf).toFinset = n := by rw [scheduledLength_eq, hk]
  rw [Scheduled, hn] at ht
  refine ⟨t, hrun, fun hle => ?_, fun hgt => ?_⟩
  · rcases ht with ht | ⟨hgt, -⟩
    · exact ⟨ht.length.trans hn, hn ▸ ht.fits, ht.reset_le, ht.le_eight, hn ▸ ht.least⟩
    · omega
  · rcases ht with ht | ⟨-, hb, hpal⟩
    · have := ht.length_le
      omega
    · exact ⟨hb, congrArg List.length hpal⟩

end Sys2Proof.Machine
end

section
/-! PROOFS. A stream that is cut short (42_stream_codec.md R221, R225). -/

namespace Sys2Proof.Machine

/-! ## Readers and cuts -/

/-- A reader of one field: it takes a part from the front of its input, whatever follows that part, and finds the input too
short when it is cut inside the part. -/
def ReadsField {α : Type} (g : List Byte → Except ErrCode (α × List Byte)) : Prop :=
  ∀ bs a r, g bs = .ok (a, r) →
    ∃ pre, bs = pre ++ r ∧ (∀ rest, g (pre ++ rest) = .ok (a, rest)) ∧ ∀ m < pre.length, g (pre.take m) = .error .decShort

/-- A decoder of the rest of a stream that refuses its input, once accepted, with DEC_SHORT when it is cut before the light
data. -/
def RefusesCuts (f : List Byte → Except ErrCode Section) : Prop :=
  ∀ r c m, f r = .ok c → m + c.light.length < r.length → f (r.take m) = .error .decShort

/-- One field before the rest: a cut falls in the field or in the rest. -/
theorem refusesCuts_bind {α : Type} {g : List Byte → Except ErrCode (α × List Byte)}
    {k : α × List Byte → Except ErrCode Section} (hg : ReadsField g) (hk : ∀ a, RefusesCuts fun r => k (a, r)) :
    RefusesCuts fun bs => g bs >>= k := by
  intro bs c m hok hm
  obtain ⟨⟨a, r⟩, hread, hrest⟩ := bind_eq_ok.mp hok
  obtain ⟨pre, rfl, hpre, hcut⟩ := hg bs a r hread
  rcases Nat.lt_or_ge m pre.length with hlt | hge
  · rw [List.take_append_of_le_length hlt.le]
    exact error_bind_eq (hcut m hlt) k
  · obtain ⟨m, rfl⟩ := Nat.exists_eq_add_of_le hge
    rw [List.length_append] at hm
    rw [List.take_length_add_append]
    exact (ok_bind_eq (hpre _) k).trans (hk a r c m hrest (by omega))

/-- A check before the rest, of something the cut does not reach. -/
theorem refusesCuts_require {b : Bool} {e : ErrCode} {f : List Byte → Except ErrCode Section} (hf : RefusesCuts f) :
    RefusesCuts fun r => require b e >>= fun _ => f r := by
  intro r c m hok hm
  obtain ⟨_, hb, hok⟩ := bind_eq_ok.mp hok
  exact (require_bind_of_true (require_eq_ok.mp hb) e _).trans (hf r c m hok hm)

/-! ## The fields -/

/-- The bytes of a varint before its last one all ask for another byte. -/
theorem readVarintLoop_take {left n val v : Nat} {pre : List Byte}
    (h : ∀ rest, readVarintLoop left n val (pre ++ rest) = .ok (v, rest)) {m : Nat} (hm : m < pre.length) :
    readVarintLoop left n val (pre.take m) = .error .decShort := by
  induction left generalizing n val pre m with
  | zero => exact absurd (h []) (by simp [readVarintLoop])
  | succ left ih =>
    cases pre with
    | nil => exact absurd hm (Nat.not_lt_zero m)
    | cons b pre =>
      cases m with
      | zero => rfl
      | succ m =>
        by_cases hb : b &&& 0x80 = 0
        · have hlast := h []
          rw [List.append_nil, readVarintLoop, if_pos hb, Except.ok.injEq, Prod.mk.injEq] at hlast
          rw [hlast.2] at hm
          simp at hm
        · rw [List.take_succ_cons, readVarintLoop, if_neg hb]
          refine ih (fun rest => ?_) (Nat.lt_of_succ_lt_succ hm)
          have hrest := h rest
          rwa [List.cons_append, readVarintLoop, if_neg hb] at hrest

theorem readVarint_readsField : ReadsField readVarint := by
  intro bs v r h
  obtain ⟨pre, hbs, -, -, hpre⟩ := readVarint_ok h
  exact ⟨pre, hbs, hpre, fun m hm => readVarintLoop_take hpre hm⟩

/-- The byte after a tag. -/
def readByte : List Byte → Except ErrCode (Byte × List Byte)
  | [] => .error .decShort
  | b :: bs => .ok (b, bs)

theorem readByte_readsField : ReadsField readByte := by
  intro bs b r h
  cases bs with
  | nil => simp [readByte] at h
  | cons a bs =>
    obtain ⟨rfl, rfl⟩ : a = b ∧ bs = r := by simpa [readByte] using h
    refine ⟨[a], rfl, fun _ => rfl, fun m hm => ?_⟩
    obtain rfl : m = 0 := Nat.lt_one_iff.mp hm
    rfl

/-- A value that takes no byte. -/
theorem readsField_pure {α : Type} (a : α) : ReadsField fun bs => .ok (a, bs) := by
  intro bs a' r h
  obtain ⟨rfl, rfl⟩ := Prod.mk.inj (Except.ok.inj h)
  exact ⟨[], rfl, fun _ => rfl, fun m hm => absurd hm (Nat.not_lt_zero m)⟩

/-- Two fields, one after the other, are one field. -/
theorem readsField_bind {α β : Type} {g : List Byte → Except ErrCode (α × List Byte)}
    {k : α × List Byte → Except ErrCode (β × List Byte)} (hg : ReadsField g) (hk : ∀ a, ReadsField fun r => k (a, r)) :
    ReadsField fun bs => g bs >>= k := by
  intro bs b r' hok
  obtain ⟨⟨a, r⟩, hread, hrest⟩ := bind_eq_ok.mp hok
  obtain ⟨pre, rfl, hpre, hcut⟩ := hg bs a r hread
  obtain ⟨pre', rfl, hpre', hcut'⟩ := hk a r b r' hrest
  refine ⟨pre ++ pre', (List.append_assoc ..).symm, fun rest => ?_, fun m hm => ?_⟩
  · rw [List.append_assoc]
    exact (ok_bind_eq (hpre _) k).trans (hpre' rest)
  · rcases Nat.lt_or_ge m pre.length with hlt | hge
    · rw [List.take_append_of_le_length hlt.le]
      exact error_bind_eq (hcut m hlt) k
    · obtain ⟨m, rfl⟩ := Nat.exists_eq_add_of_le hge
      rw [List.length_append] at hm
      rw [List.take_length_add_append]
      exact (ok_bind_eq (hpre _) k).trans (hcut' m (by omega))

/-- An entry is a tag and a byte (42_stream_codec.md R218). -/
theorem readPalette_succ (n : Nat) (bs : List Byte) :
    readPalette (n + 1) bs
      = readVarint bs >>= fun t => readByte t.2 >>= fun v =>
          readPalette n v.2 >>= fun q => .ok (v.1.setWidth 14 :: q.1, q.2) := by
  rw [readPalette]
  cases readVarint bs with
  | error e => rfl
  | ok t =>
    obtain ⟨tag, r⟩ := t
    cases r with
    | nil => rfl
    | cons v r =>
      simp only [readByte, bind, Except.bind]
      cases readPalette n r <;> rfl

theorem readPalette_readsField (n : Nat) : ReadsField (readPalette n) := by
  induction n with
  | zero => exact readsField_pure []
  | succ n ih =>
    rw [funext (readPalette_succ n)]
    exact readsField_bind readVarint_readsField fun _ => readsField_bind readByte_readsField fun v =>
      readsField_bind (k := fun q => .ok (v.setWidth 14 :: q.1, q.2)) ih fun pal => readsField_pure (v.setWidth 14 :: pal)

/-! ## The steps of DECODE, from the last one -/

variable {p : Params} {b : Byte} {pal : List RawValue} {n : Nat}

/-- A cut before the light data leaves too few word bytes (42_stream_codec.md R221). -/
theorem decodeFromWords_refusesCuts : RefusesCuts (decodeFromWords p b pal n) := by
  intro r c m hok hm
  refine decodeFromWords_short ?_
  obtain ⟨_, hlen, hok⟩ := bind_eq_ok.mp hok
  obtain ⟨_, -, hok⟩ := bind_eq_ok.mp hok
  have hlight : c.light = r.drop (8 * n) := by rw [← readWords_rest, ← Except.ok.inj hok]
  rw [hlight, List.length_drop] at hm
  rw [List.length_take]
  omega

theorem decodeFromCount_refusesCuts : RefusesCuts (decodeFromCount p b pal) :=
  refusesCuts_bind readVarint_readsField fun _ => refusesCuts_require decodeFromWords_refusesCuts

theorem decodeFromMarker_refusesCuts : RefusesCuts (decodeFromMarker p b pal) :=
  refusesCuts_bind readVarint_readsField fun _ => refusesCuts_require decodeFromCount_refusesCuts

theorem decodeFromEntries_refusesCuts : RefusesCuts (decodeFromEntries p b n) :=
  refusesCuts_bind (readPalette_readsField n) fun _ => decodeFromMarker_refusesCuts

theorem decodeFromLength_refusesCuts : RefusesCuts (decodeFromLength p b) :=
  refusesCuts_bind readVarint_readsField fun _ => refusesCuts_require decodeFromEntries_refusesCuts

/-- Settles O50: without its width byte the stream is empty, and the decoder of the rest refuses every other cut. -/
theorem truncatedStreamsAreRefused : Obligations.TruncatedStreamsAreRefused := by
  intro p input c n hok hn
  obtain ⟨b, r, _, _, _, _, _, _, _, _, hin, hwidth, -⟩ := decodeStream_eq_ok.mp hok
  obtain ⟨rfl, hb⟩ := readWidth_eq_ok.mp hwidth
  cases n with
  | zero => exact decodeStream_nil p
  | succ n =>
    rw [decodeStream_cons hin hb] at hok
    have hcut : (b :: r.take n).length ≤ p.inMax := by
      rw [List.length_cons] at hin ⊢
      exact (Nat.succ_le_succ (List.length_take_le' n r)).trans hin
    rw [List.take_succ_cons, decodeStream_cons hcut hb]
    refine decodeFromLength_refusesCuts r c n hok ?_
    rw [List.length_cons] at hn
    omega

end Sys2Proof.Machine
end

section
/-! PROOFS. DECODE's input and ends, ENCODE's stream and ends, and the two round trips (42_stream_codec.md R224 to R232;
10_state.md R27). -/

/-! ## DECODE -/

namespace Sys2Proof.Machine

variable {s : State}

/-- Settles O51: the two ends of DECODE. -/
theorem decodeCommitsOrFails : Obligations.DecodeCommitsOrFails :=
  fun _ => ⟨fun _ h => ⟨_, execDecode_of_ok h, rfl, completed_complete rfl rfl, rfl⟩,
    fun _ h => ⟨_, execDecode_of_error h, rfl, rfl, rfl, completed_complete rfl rfl, rfl⟩⟩

theorem inputBytes_length (s : State) : (inputBytes s).length = s.inLen.toNat := Memory.window_length ..

/-- DECODE consumes a written byte as it was written (10_state.md R27). -/
theorem inputBytes_getElem? (hwf : Memory.wf s.inBuf) {k : Nat} (hk : k < s.inLen.toNat) :
    (inputBytes s)[k]? = some ((Memory.read s.inBuf k).getD (freeByte s k)) := by
  rw [inputBytes, Memory.window_eq _ hwf, List.getElem?_map, List.getElem?_range' hk]
  simp

/-- Settles O52: the input is IN_LEN bytes of the IN window. -/
theorem decodeReadsTheWrittenInput : Obligations.DecodeReadsTheWrittenInput := by
  refine fun s hwf => ⟨inputBytes_length s, fun k b hk hread => ?_⟩
  rw [inputBytes_getElem? hwf hk, hread, Option.getD_some]

/-- An input of which every byte was written. -/
theorem inputBytes_eq (hwf : Memory.wf s.inBuf) {bs : List Byte} (hlen : s.inLen.toNat = bs.length)
    (hread : ∀ k < bs.length, Memory.read s.inBuf k = bs[k]?) : inputBytes s = bs := by
  refine List.ext_getElem? fun k => ?_
  rcases Nat.lt_or_ge k bs.length with hk | hk
  · rw [inputBytes_getElem? hwf (hlen ▸ hk), hread k hk, List.getElem?_eq_getElem hk, Option.getD_some]
  · rw [List.getElem?_eq_none hk, List.getElem?_eq_none (by rw [inputBytes_length, hlen]; exact hk)]

end Sys2Proof.Machine

/-! ## ENCODE -/

namespace Sys2Proof.Machine

variable {p : Params} {c : Section} {s t : State}

/-- The bytes of a word, the most significant one first (20_memory.md R64). -/
theorem bytesOfWord_eq (w : Word) : bytesOfWord w = (List.range 8).map fun j => BitVec.ofNat 8 (w.toNat / 256 ^ (7 - j)) := by
  have hbyte (k : Nat) : w.extractLsb' (8 * k) 8 = BitVec.ofNat 8 (w.toNat / 256 ^ k) := by
    refine BitVec.eq_of_toNat_eq ?_
    rw [BitVec.extractLsb'_toNat, Nat.shiftRight_eq_div_pow, Nat.pow_mul, BitVec.toNat_ofNat]
  calc bytesOfWord w = (List.range 8).map fun j => w.extractLsb' (8 * (7 - j)) 8 := rfl
    _ = (List.range 8).map fun j => BitVec.ofNat 8 (w.toNat / 256 ^ (7 - j)) := List.map_congr_left fun j _ => hbyte (7 - j)

/-- The stream is the fields of 42_stream_codec.md R226. -/
theorem encodeSection_eq_fields (p : Params) (c : Section) : encodeSection p c = c.fields p := by
  have hentry (e : RawValue) : varint p.encTag.toNat ++ [e.setWidth 8]
      = [BitVec.ofNat 8 p.encTag.toNat, BitVec.ofNat 8 (e.toNat % 256)] := by
    have hlow : e.setWidth 8 = BitVec.ofNat 8 (e.toNat % 256) := BitVec.eq_of_toNat_eq (by simp)
    rw [varint_of_lt p.encTag.isLt, hlow]
    rfl
  have hmark : varint Config.wordGroupMarker = [1] := by decide
  simp only [encodeSection, Section.fields, hentry, hmark, funext bytesOfWord_eq, BitVec.ofNat_toNat]

/-- The condition of ENC_PAL_RANGE is the negation of that of a writable palette (42_stream_codec.md R227). -/
theorem not_inRange_of_refused (hrefuse : p.encWidePalette = .refuse) (hwide : ∃ e ∈ c.pal, 255 < e.toNat) :
    ¬ (p.encWidePalette = .truncate ∨ ∀ e ∈ c.pal, e.toNat ≤ 255) := by
  obtain ⟨e, he, hlt⟩ := hwide
  rintro (htruncate | hsmall)
  · rw [hrefuse] at htruncate
    cases htruncate
  · exact hlt.not_ge (hsmall e he)

/-- OUT_LEN holds every length up to OUT_MAX. -/
theorem outLen_of_fits (inv : s.Inv) {n : Nat} (h : n ≤ s.params.outMax) : (BitVec.ofNat 16 n).toNat = n := by
  obtain ⟨-, -, -, -, -, hmax, -⟩ := inv.params_legal
  rw [BitVec.toNat_ofNat]
  omega

/-- Settles O53: a section that meets neither error is written over the front of OUT. -/
theorem encodeWritesTheStream : Obligations.EncodeWritesTheStream := by
  refine ⟨encodeSection_eq_fields, fun s inv hrange hfits => ?_⟩
  rw [← encodeSection_eq_fields] at hfits ⊢
  rcases execEncode_cases s with ⟨hrefuse, hwide, -⟩ | ⟨-, hover, -⟩ | ⟨-, -, h⟩
  · exact absurd hrange (not_inRange_of_refused hrefuse hwide)
  · omega
  · refine ⟨_, h, outLen_of_fits inv hfits, fun a ha => ?_, fun a ha => ?_, fun _ => rfl, rfl, rfl, rfl⟩
    · rw [complete_outBuf, Memory.read_overlay inv.out_ok.1, if_pos ha]
    · rw [complete_outBuf, Memory.read_overlay inv.out_ok.1, if_neg (by omega)]

/-- Settles O54: in either case ENCODE ends with the one error whose condition holds. -/
theorem encodeFailsWithoutOutput : Obligations.EncodeFailsWithoutOutput := by
  intro s code hcode
  rcases execEncode_cases s with ⟨hrefuse, hwide, h⟩ | ⟨hrange, hover, h⟩ | ⟨hrange, hfits, h⟩
  · rcases hcode with ⟨-, -, rfl⟩ | ⟨hrange, -⟩
    · exact ⟨_, h, rfl, rfl, rfl, completed_complete rfl rfl, rfl⟩
    · exact absurd hrange (not_inRange_of_refused hrefuse hwide)
  · rcases hcode with ⟨hrefuse, hwide, -⟩ | ⟨-, -, rfl⟩
    · exact absurd hrange (not_inRange_of_refused hrefuse hwide)
    · exact ⟨_, h, rfl, rfl, rfl, completed_complete rfl rfl, rfl⟩
  · rcases hcode with ⟨hrefuse, hwide, -⟩ | ⟨-, hover, -⟩
    · exact absurd hrange (not_inRange_of_refused hrefuse hwide)
    · omega

end Sys2Proof.Machine

/-! ## DECODE after ENCODE (42_stream_codec.md R231) -/

namespace Sys2Proof.Machine

variable {p : Params} {c : Section} {s t : State}

theorem varintBytes_varint {v : Nat} (hv : v < 2 ^ 32) : VarintBytes (varint v) v := fun rest => readVarint_varint hv rest

/-- The stream ENCODE writes is in the format, with its own tag before each entry's byte. -/
theorem decodeStream_encodeSection (hok : c.Ok p) (hpal : c.pal.length ≤ 256) (hsmall : ∀ e ∈ c.pal, e.toNat ≤ 255)
    (hlen : (encodeSection p c).length ≤ p.inMax) : decodeStream p (encodeSection p c) = .ok c := by
  have hcount := wordCount_le hok.bpe_legal
  have htag : VarintBytes (varint p.encTag.toNat) p.encTag.toNat := varintBytes_varint (by omega)
  refine (decodeAcceptsExactlyTheFormat p (encodeSection p c) c).mpr ⟨varint c.pal.length, varint 1,
    varint (wordCount c.bpe.toNat), c.pal.map fun e => (varint p.encTag.toNat, e.setWidth 8), ?stream, hlen, hok.bpe_legal,
    ?vlen, by simpa using hpal, ?tags, ?pal, varintBytes_varint (by decide), varintBytes_varint (by omega), hok.words_length,
    hok.light_bound⟩
  case stream => rw [encodeSection, entryBytes, List.flatMap_map]
  case vlen =>
    rw [List.length_map]
    exact varintBytes_varint (by omega)
  case tags =>
    intro e he
    obtain ⟨_, -, rfl⟩ := List.mem_map.mp he
    exact ⟨_, htag⟩
  case pal =>
    rw [List.map_map]
    refine (List.map_id' c.pal).symm.trans (List.map_congr_left fun e he => BitVec.eq_of_toNat_eq ?_)
    have := hsmall e he
    simp only [Function.comp_apply, BitVec.toNat_setWidth]
    omega

/-- An ENCODE without error has written the whole stream. -/
theorem exec_encode_ok (inv : s.Inv) (h : exec .encode s = .next t) (ht : t.err = false) :
    t.outLen.toNat = (encodeSection s.params s.sec).length ∧
      ∀ k < (encodeSection s.params s.sec).length, Memory.read t.outBuf k = (encodeSection s.params s.sec)[k]? := by
  change execEncode s = .next t at h
  rcases execEncode_cases s with ⟨-, -, he⟩ | ⟨-, -, he⟩ | ⟨-, hfits, he⟩ <;> rw [he] at h <;> cases h
  · cases ht
  · cases ht
  · refine ⟨outLen_of_fits inv hfits, fun k hk => ?_⟩
    rw [complete_outBuf, Memory.read_overlay inv.out_ok.1, if_pos hk]

/-- Settles O56: DECODE's input is the stream, and the stream decodes to the section. -/
theorem decodeOfEncodeIsTheSection : Obligations.DecodeOfEncodeIsTheSection := by
  intro s t u inv hpal hsmall hlen _ h ht invu hparams hinLen hin
  obtain ⟨houtLen, hout⟩ := exec_encode_ok inv h ht
  have hinput : inputBytes u = encodeSection s.params s.sec :=
    inputBytes_eq invu.in_ok.1 (hinLen ▸ houtLen) fun k hk => (hin k (houtLen ▸ hk)).trans (hout k hk)
  refine ⟨_, execDecode_of_ok (c := s.sec) ?_, rfl⟩
  rw [hinput, hparams]
  exact decodeStream_encodeSection inv.section_ok hpal hsmall hlen

end Sys2Proof.Machine

/-! ## ENCODE after DECODE (42_stream_codec.md R232) -/

namespace Sys2Proof.Machine

variable {p : Params} {c : Section}

theorem VarintBytes.length_le {bs : List Byte} {v : Nat} (h : VarintBytes bs v) : (varint v).length ≤ bs.length := by
  have hread := h []
  rw [List.append_nil] at hread
  exact varint_length_le_of_readVarint hread

/-- No varint is empty. -/
theorem VarintBytes.length_pos {bs : List Byte} {v : Nat} (h : VarintBytes bs v) : 1 ≤ bs.length := by
  cases bs with
  | nil => exact absurd (h []) (by simp [readVarint, readVarintLoop])
  | cons b bs => exact Nat.le_add_left 1 _

/-- Each entry of a stream has at least a byte for its tag and the byte itself. -/
theorem entryBytes_length_ge {es : List (List Byte × Byte)} (ht : TagsOk es) : 2 * es.length ≤ (entryBytes es).length := by
  induction es with
  | nil => exact Nat.le_refl 0
  | cons e es ih =>
    obtain ⟨tag, htag⟩ := ht e List.mem_cons_self
    have hpos := htag.length_pos
    have hrest := ih fun x hx => ht x (List.mem_cons_of_mem e hx)
    rw [entryBytes] at hrest ⊢
    rw [List.flatMap_cons, List.length_append, List.length_append, List.length_singleton, List.length_cons]
    omega

/-- Field by field the stream ENCODE writes is no longer than the one DECODE read. -/
theorem encodeSection_length_le_input {input : List Byte} (h : decodeStream p input = .ok c) :
    (encodeSection p c).length ≤ input.length := by
  obtain ⟨vlen, vmark, vcount, es, rfl, -, -, hlen, -, htags, hpal, hmark, hcount, hwords, -⟩ :=
    (decodeAcceptsExactlyTheFormat p input c).mp h
  have hpalLen : c.pal.length = es.length := by rw [hpal, List.length_map]
  have hlenLe := hlen.length_le
  have hcountLe := hcount.length_le
  have hmarkLe := hmark.length_pos
  have hentries := entryBytes_length_ge htags
  rw [encodeSection_length hwords, hpalLen]
  simp only [List.length_append, List.length_singleton, flatMap_bytesOfWord_length, hwords]
  omega

/-- What ReadVarint reads of a varint in shortest form. -/
theorem readVarint_varint_inj {v u : Nat} {rest r : List Byte} (hv : v < 2 ^ 32)
    (h : readVarint (varint v ++ rest) = .ok (u, r)) : u = v ∧ r = rest := by
  rw [readVarint_varint hv, Except.ok.injEq, Prod.mk.injEq] at h
  exact ⟨h.1.symm, h.2.symm⟩

/-- What the entries with the writer's tag give. -/
theorem readPalette_tagged_inj {vs rest r : List Byte} {tag : BitVec 7} {pal : List RawValue}
    (h : readPalette vs.length (vs.flatMap (fun v => varint tag.toNat ++ [v]) ++ rest) = .ok (pal, r)) :
    pal = vs.map (·.setWidth 14) ∧ r = rest := by
  have hentries := readPalette_entries (vs.map fun v => (varint tag.toNat, v)) (fun e he => ?_) rest
  · rw [List.length_map, List.flatMap_map, h, List.map_map, Except.ok.injEq, Prod.mk.injEq] at hentries
    exact hentries
  · obtain ⟨_, -, rfl⟩ := List.mem_map.mp he
    exact ⟨_, readVarint_varint (by omega)⟩

/-- A byte of the stream is the low byte of its entry. -/
theorem setWidth_entry (v : Byte) : (v.setWidth 14).setWidth 8 = v := by
  refine BitVec.eq_of_toNat_eq ?_
  rw [BitVec.toNat_setWidth, BitVec.toNat_setWidth_of_le (by decide)]
  omega

/-- A stream in the writer's form: varints in shortest form and the writer's tags (42_stream_codec.md R232). -/
theorem encodeSection_of_writerForm {input vs tail : List Byte} {m w : Nat} (h : decodeStream p input = .ok c)
    (hm : m < 2 ^ 32) (hw : w < 2 ^ 32) (hvs : vs.length < 2 ^ 32)
    (hinput : input = [c.bpe.setWidth 8] ++ varint vs.length ++ vs.flatMap (fun v => varint p.encTag.toNat ++ [v])
      ++ varint m ++ varint w ++ tail) : encodeSection p c = input := by
  obtain ⟨b, r0, n, r1, pal, r2, m', r3, wc, r4, -, hwidth, hlen, -, hpal, hmark, rfl, hcount, rfl, hwords, -, rfl⟩ :=
    decodeStream_eq_ok.mp h
  obtain ⟨rfl, hlegal⟩ := readWidth_eq_ok.mp hwidth
  obtain ⟨hb, hbyte⟩ := setWidth_bpe_of_legal hlegal
  simp only [hbyte, List.append_assoc, List.cons_append, List.nil_append, List.cons.injEq, true_and] at hinput
  subst hinput
  obtain ⟨rfl, rfl⟩ := readVarint_varint_inj hvs hlen
  obtain ⟨rfl, rfl⟩ := readPalette_tagged_inj hpal
  obtain ⟨rfl, rfl⟩ := readVarint_varint_inj hm hmark
  obtain ⟨rfl, rfl⟩ := readVarint_varint_inj hw hcount
  obtain ⟨-, hbytes⟩ := readWords_spec _ hwords
  simp only [encodeSection, hb, hbyte, List.length_map, List.flatMap_map, setWidth_entry, List.append_assoc, hbytes,
    List.cons_append, List.nil_append, Config.wordGroupMarker]

/-- Settles O57: each field is written at its shortest, and a stream in the writer's form is read field by field as it was
written. -/
theorem reencodeIsByteExact : Obligations.ReencodeIsByteExact :=
  fun _ _ _ h => ⟨encodeSection_length_le_input h, fun _ _ _ _ => encodeSection_of_writerForm h⟩

end Sys2Proof.Machine
end

section
/-! PROOFS. The boot sequence (70_reset_and_hazards.md R294). -/

namespace Sys2Proof.Machine

variable {s t : State} {p : Params} {bs : List Byte} {rest : List Action} {k : Nat}

/-- A buffer after writes of the bytes `bs` at `k`, `k + 1`, ... -/
def Memory.writeFrom : List Host.Cell → Nat → List Byte → List Host.Cell
  | m, _, [] => m
  | m, k, b :: bs => Memory.writeFrom (Memory.write m k b) (k + 1) bs

theorem Memory.wf_writeFrom {m : List Host.Cell} (h : Memory.wf m) (k : Nat) (bs : List Byte) :
    Memory.wf (Memory.writeFrom m k bs) := by
  induction bs generalizing m k with
  | nil => exact h
  | cons b bs ih => exact ih (Memory.wf_write h k b) (k + 1)

theorem Memory.read_writeFrom_of_lt (m : List Host.Cell) {k j : Nat} (bs : List Byte) (h : j < k) :
    Memory.read (Memory.writeFrom m k bs) j = Memory.read m j := by
  induction bs generalizing m k with
  | nil => rfl
  | cons b bs ih => rw [Memory.writeFrom, ih _ (Nat.lt_succ_of_lt h), Memory.read_write, if_neg h.ne]

theorem Memory.read_writeFrom (m : List Host.Cell) (k : Nat) {bs : List Byte} {j : Nat} (h : j < bs.length) :
    Memory.read (Memory.writeFrom m k bs) (k + j) = bs[j]? := by
  induction bs generalizing m k j with
  | nil => exact absurd h (Nat.not_lt_zero j)
  | cons b bs ih =>
    cases j with
    | zero =>
      have hkeep := Memory.read_writeFrom_of_lt (Memory.write m k b) bs (Nat.lt_add_one k)
      rw [Memory.read_write, if_pos rfl] at hkeep
      exact hkeep
    | succ j =>
      have hj : k + (j + 1) = k + 1 + j := by omega
      rw [Memory.writeFrom, hj, List.getElem?_cons_succ]
      exact ih _ _ (Nat.lt_of_succ_lt_succ h)

/-! ## The host's moves -/

theorem step_writeMove_inByte {v : BitVec 32} (hp : s.params.Legal) (hb : s.busy = false) (hk : k < s.params.inMax)
    (ha : s.agenda = writeMove s.params (.inByte k) v :: rest) :
    step s = .next { s with agenda := rest, inBuf := Memory.write s.inBuf k (v.setWidth 8) } :=
  (step_write ha).trans (congrArg _ (hostWrite_inByte (s := { s with agenda := rest }) hb
    (regAt_regAddr hp (r := .inByte k) (decide_eq_true hk)) _ v))

theorem step_writeMove_inLen {v : BitVec 32} (hp : s.params.Legal) (hb : s.busy = false)
    (ha : s.agenda = writeMove s.params .inLen v :: rest) :
    step s = .next { s with agenda := rest, inLen := v.setWidth 16 } :=
  (step_write ha).trans (congrArg _ (hostWrite_inLen (s := { s with agenda := rest }) hb
    (regAt_regAddr hp (r := .inLen) rfl) _ v))

/-- An idle block without a fault accepts a legal word. -/
theorem step_writeMove_cmd {w : CmdWord} (hp : s.params.Legal) (hb : s.busy = false) (hf : s.fault = false)
    (hw : illegal w = false) (ha : s.agenda = writeMove s.params .cmd w :: rest) :
    step s = .next { s with agenda := rest, err := false, errcode := 0, done := false, pend := some w } := by
  obtain ⟨-, -, -, haccept⟩ :=
    commandAcceptanceCases { s with agenda := rest } (regAddr s.params .cmd) 0xF w (regAt_regAddr hp (r := .cmd) rfl)
  exact (step_write ha).trans (congrArg _ (haccept hf hb hw))

/-- A read of STATUS shows the state that stands. -/
theorem step_readMove_status (hp : s.params.Legal) (ha : s.agenda = readMove s.params .status :: rest) :
    step s = .next (nextDraw { s with agenda := rest, rdata := statusWord s }) := by
  have hread : readValue { s with agenda := rest } (regAddr s.params .status) = statusWord s :=
    readValue_status (s := { s with agenda := rest }) (regAt_regAddr hp (r := .status) rfl)
  rw [readMove] at ha
  rw [step_read ha, hostRead, hread]

/-- The host's writes of IN, one step each. -/
theorem run_inByteMoves (hp : s.params.Legal) (hb : s.busy = false) (hk : k + bs.length ≤ s.params.inMax)
    (ha : s.agenda = inByteMoves s.params k bs ++ rest) (n : Nat) :
    Sys2Proof.core.run (bs.length + n) s
      = Sys2Proof.core.run n { s with agenda := rest, inBuf := Memory.writeFrom s.inBuf k bs } := by
  induction bs generalizing s k with
  | nil =>
    have hs : { s with agenda := rest } = s := by rw [show rest = s.agenda from ha.symm]
    rw [List.length_nil, Nat.zero_add, Memory.writeFrom]
    exact congrArg _ hs.symm
  | cons b bs ih =>
    rw [List.length_cons] at hk
    have hbyte : (b.setWidth 32).setWidth 8 = b := by
      refine BitVec.eq_of_toNat_eq ?_
      rw [BitVec.toNat_setWidth, BitVec.toNat_setWidth_of_le (by decide)]
      omega
    have hstep := step_writeMove_inByte hp hb (by omega) ha
    rw [hbyte] at hstep
    rw [List.length_cons, Nat.add_right_comm, run_succ hstep]
    exact ih (s := { s with agenda := _, inBuf := _ }) hp hb (show k + 1 + bs.length ≤ s.params.inMax by omega) rfl

/-- The input that the host's writes leave. -/
theorem inputBytes_writeFrom (hwf : Memory.wf s.inBuf) (hlen : bs.length < 2 ^ 16)
    (hbuf : t.inBuf = Memory.writeFrom s.inBuf 0 bs) (hinLen : t.inLen = (BitVec.ofNat 32 bs.length).setWidth 16) :
    inputBytes t = bs := by
  refine inputBytes_eq (hbuf ▸ Memory.wf_writeFrom hwf 0 bs) ?_ fun k hk => ?_
  · rw [hinLen, BitVec.toNat_setWidth, BitVec.toNat_ofNat]
    omega
  · rw [hbuf, ← Memory.read_writeFrom s.inBuf 0 hk, Nat.zero_add]

/-- The state after the length `n` and the DECODE are written: the command waits for the engine. -/
def decodePending (s : State) (n : BitVec 16) (rest : List Action) : State :=
  { s with agenda := rest, inLen := n, err := false, errcode := 0, done := false, pend := some 0x00000005 }

theorem step_decodePending {n : BitVec 16} {c : Section}
    (hok : decodeStream s.params (inputBytes { s with inLen := n }) = .ok c) :
    step (decodePending s n (.engine :: rest)) = .next (complete { nextDraw (decodePending s n rest) with sec := c }) :=
  (step_engine (s := decodePending s n (.engine :: rest)) rfl).trans
    ((engineStep_of_pending (s := decodePending s n rest) rfl (show decode 0x00000005 = .ok .decode by decide)).trans
      (execDecode_of_ok (s := decodePending s n rest) hok))

/-- The last four moves: the length, the command, the engine and the read. -/
theorem run_decodeMoves {v : BitVec 32} {c : Section} (hp : s.params.Legal) (hb : s.busy = false) (hf : s.fault = false)
    (ha : s.agenda = writeMove s.params .inLen v :: commandMoves s.params 0x00000005)
    (hok : decodeStream s.params (inputBytes { s with inLen := v.setWidth 16 }) = .ok c) :
    ∃ t : State, Sys2Proof.core.run 4 s = .next t ∧ t.sec = c ∧ t.ended ∧ t.err = false ∧ t.rdata = statusWord t := by
  have hlen := step_writeMove_inLen hp hb ha
  have hcmd : step { s with agenda := commandMoves s.params 0x00000005, inLen := v.setWidth 16 }
      = .next (decodePending s (v.setWidth 16) [.engine, readMove s.params .status]) :=
    step_writeMove_cmd (s := { s with agenda := commandMoves s.params 0x00000005, inLen := v.setWidth 16 }) hp hb hf
      (by decide) rfl
  have hdecode := step_decodePending (rest := [readMove s.params .status]) hok
  have hread := step_readMove_status (rest := [])
    (s := complete { nextDraw (decodePending s (v.setWidth 16) [readMove s.params .status]) with sec := c }) hp rfl
  exact ⟨_, (run_succ hlen).trans ((run_succ hcmd).trans ((run_succ hdecode).trans (run_succ hread))), rfl, ⟨rfl, rfl⟩, rfl,
    rfl⟩

/-- Settles O58: the writes load the input, the word of DECODE is accepted, the engine decodes, and the read shows STATUS. -/
theorem bootSequenceLoadsTheStream : Obligations.BootSequenceLoadsTheStream := by
  intro s bs c inv hb hf hok ha
  have hp := inv.params_legal
  obtain ⟨-, -, -, hinMax, -⟩ := id hp
  obtain ⟨_, _, _, _, _, _, _, _, _, _, hin, -⟩ := decodeStream_eq_ok.mp hok
  rw [bootMoves, List.append_assoc] at ha
  rw [run_inByteMoves hp hb (by omega) ha]
  refine run_decodeMoves (s := { s with agenda := _, inBuf := Memory.writeFrom s.inBuf 0 bs }) hp hb hf rfl ?_
  rw [inputBytes_writeFrom (s := s) inv.in_ok.1 (by omega) rfl rfl]
  exact hok

end Sys2Proof.Machine
end
